-- ==== Sys2Proof/Word.lean ====
section
/-! DEFINITION. The word types of the KECCAK-CORE: 64-bit host registers and backing words (rule R14),
bytes (rule R67) and the 32-bit command word (rule R80). -/

namespace Sys2Proof

/-- A 64-bit host register, lane or backing word (rule R14). -/
abbrev Word := BitVec 64

/-- A byte of a bit string or of a host register (rules R65 and R67). -/
abbrev Byte := BitVec 8

/-- A KCMD command word, the low half of a CMD write (rule R80). -/
abbrev CmdWord := BitVec 32

end Sys2Proof
end

