-- ==== Sys2Proof/Syntax.lean ====
section
/-! DEFINITION. The commands of KCMD, one constructor per row of the opcode map (rule R86).
Numeric operands are no part of a command: they stand in OPA and OPB (rule R85). -/

namespace Sys2Proof

/-- A bit-vector register number: "Every value 0 to 3 names a register" (rule R83). -/
abbrev VReg := Fin 4

/-- A KCMD command with the operand fields its format uses (rules R82 and R86).
`imm8` is an unsigned integer (rule R84); that it fits its 8 bits is `Instr.wf`'s check. -/
inductive Instr where
  | bvZero (vd : VReg)
  | bvPush (vd : VReg) (imm8 : Nat)
  | bvChlen (vd : VReg)
  | bvAppend (vd vs : VReg)
  | bvShl (vd : VReg)
  | bvShr (vd : VReg)
  | bvExtract (vd vs : VReg)
  | bvCopy (vd vs : VReg)
  | bvLen (vs : VReg)
  | bvReadw (vs : VReg)
  | pInit
  | pPermute
  | pRdlane
  | pWrlane
  | pXorin (vs : VReg)
  | pExtract (vd : VReg)
  | sInit
  | sAbsorb (vs : VReg)
  | sFinal (vd : VReg)
  deriving DecidableEq, Repr

end Sys2Proof
end

