-- ==== Sys2Proof/WellFormed.lean ====
section
/-! DEFINITION. Which terms of `Instr` are commands: every operand fits the field that encodes it. -/

namespace Sys2Proof

/-- IMM8 is "an unsigned integer 0 to 255" (rule R84). A register number always fits its field (rule R83).
Well-formedness is about the encoding: BV.PUSH with a count of 65 to 255 is a command (it raises EINVAL). -/
def Instr.wf : Instr → Bool
  | .bvPush _ imm8 => decide (imm8 < 256)
  | .bvZero _ | .bvChlen _ | .bvAppend _ _ | .bvShl _ | .bvShr _ | .bvExtract _ _ | .bvCopy _ _
  | .bvLen _ | .bvReadw _ | .pInit | .pPermute | .pRdlane | .pWrlane | .pXorin _ | .pExtract _
  | .sInit | .sAbsorb _ | .sFinal _ => true

end Sys2Proof
end

