-- ==== Sys2Proof/Decode.lean ====
section
/-! DEFINITION. Decoding of a CMD value (rules R80 to R89), total and rejecting by name, and the encoder
written from the same opcode map (rules R86 and R90). -/

namespace Sys2Proof

/-- Why a CMD value is not a command. Each of the last three raises EILLEGAL (rule R262).
`wrongLength` is met only by `decodeBytes`: a CMD write is 8 bytes (rule R62). -/
inductive DecodeError where
  | wrongLength
  | highHalfNonzero
  | unassignedOpcode
  | fieldNotZero
  deriving DecidableEq, Repr

/-- The five formats of rule R82. -/
inductive Format where
  | n | d | s | ds | di
  deriving DecidableEq, Repr

/-- The mask of fixed bits of a format (rule R82). -/
def Format.mask : Format → CmdWord
  | .n => 0xFFFFFFFF#32
  | .d => 0xFFFFFCFF#32
  | .s => 0xFFFFF3FF#32
  | .ds => 0xFFFFF0FF#32
  | .di => 0xFF00FCFF#32

/-- A row of the opcode map (rule R86): opcode, format, and the command built from VD, VS and IMM8. -/
structure OpRow where
  opc : BitVec 8
  format : Format
  build : VReg → VReg → Nat → Instr

/-- The match value of a row: every row's fixed bits above OPC are zero (rule R86). -/
def OpRow.matchValue (r : OpRow) : CmdWord := r.opc.setWidth 32

/-- The BitVector rows of the opcode map (rule R86). -/
def bitVectorRows : List OpRow :=
  [ ⟨0x10#8, .d, fun vd _ _ => .bvZero vd⟩,
    ⟨0x11#8, .di, fun vd _ imm8 => .bvPush vd imm8⟩,
    ⟨0x12#8, .d, fun vd _ _ => .bvChlen vd⟩,
    ⟨0x13#8, .ds, fun vd vs _ => .bvAppend vd vs⟩,
    ⟨0x14#8, .d, fun vd _ _ => .bvShl vd⟩,
    ⟨0x15#8, .d, fun vd _ _ => .bvShr vd⟩,
    ⟨0x16#8, .ds, fun vd vs _ => .bvExtract vd vs⟩,
    ⟨0x17#8, .ds, fun vd vs _ => .bvCopy vd vs⟩,
    ⟨0x18#8, .s, fun _ vs _ => .bvLen vs⟩,
    ⟨0x19#8, .s, fun _ vs _ => .bvReadw vs⟩ ]

/-- The PermutationEngine and SpongeHash rows of the opcode map (rule R86). -/
def engineRows : List OpRow :=
  [ ⟨0x20#8, .n, fun _ _ _ => .pInit⟩,
    ⟨0x21#8, .n, fun _ _ _ => .pPermute⟩,
    ⟨0x22#8, .n, fun _ _ _ => .pRdlane⟩,
    ⟨0x23#8, .n, fun _ _ _ => .pWrlane⟩,
    ⟨0x24#8, .s, fun _ vs _ => .pXorin vs⟩,
    ⟨0x25#8, .d, fun vd _ _ => .pExtract vd⟩,
    ⟨0x30#8, .n, fun _ _ _ => .sInit⟩,
    ⟨0x31#8, .s, fun _ vs _ => .sAbsorb vs⟩,
    ⟨0x32#8, .d, fun vd _ _ => .sFinal vd⟩ ]

/-- The opcode map of rule R86, all 19 rows. -/
def opcodeTable : List OpRow := bitVectorRows ++ engineRows

/-- OPC, bits 7:0 (rule R81). -/
def opcField (w : CmdWord) : BitVec 8 := w.extractLsb' 0 8

/-- VD, bits 9:8 (rules R81 and R83). -/
def vdField (w : CmdWord) : VReg := ⟨(w.extractLsb' 8 2).toNat, (w.extractLsb' 8 2).isLt⟩

/-- VS, bits 11:10 (rules R81 and R83). -/
def vsField (w : CmdWord) : VReg := ⟨(w.extractLsb' 10 2).toNat, (w.extractLsb' 10 2).isLt⟩

/-- IMM8, bits 23:16, zero-extended (rules R81 and R84). -/
def imm8Field (w : CmdWord) : Nat := (w.extractLsb' 16 8).toNat

/-- The part of rule R87's `decode` after the high half has been checked. -/
def decodeWord (w : CmdWord) : Except DecodeError Instr :=
  match opcodeTable.find? (fun r => r.opc == opcField w) with
  | none => .error .unassignedOpcode
  | some r =>
    if w &&& r.format.mask = r.matchValue then .ok (r.build (vdField w) (vsField w) (imm8Field w))
    else .error .fieldNotZero

/-- Rule R87: decoding of a 64-bit CMD value. It takes no state (rule R89). -/
def decode (cmd : Word) : Except DecodeError Instr :=
  if cmd.extractLsb' 32 32 ≠ 0#32 then .error .highHalfNonzero
  else decodeWord (cmd.extractLsb' 0 32)

/-- The 64-bit value of 8 bytes of a host write, little-endian (rule R65). -/
def wordOfBytes : List Byte → Nat
  | [] => 0
  | b :: bs => b.toNat + 256 * wordOfBytes bs

/-- Decoding from the bytes of a host write to CMD, in address order: total on any byte list. -/
def decodeBytes (bs : List Byte) : Except DecodeError Instr :=
  if bs.length = 8 then decode (BitVec.ofNat 64 (wordOfBytes bs)) else .error .wrongLength

/-- The word with the four fields of rule R81 in place: match OR (VD << 8) OR (VS << 10) OR (IMM8 << 16) (rule R90). -/
def fieldsWord (opc : BitVec 8) (vd vs : VReg) (imm8 : Nat) : CmdWord :=
  opc.setWidth 32 ||| (BitVec.ofNat 32 vd.val <<< 8) ||| (BitVec.ofNat 32 vs.val <<< 10)
    ||| (BitVec.ofNat 32 imm8 <<< 16)

/-- The command word of a command (rules R86 and R90). -/
def encode : Instr → CmdWord
  | .bvZero vd => fieldsWord 0x10#8 vd 0 0
  | .bvPush vd imm8 => fieldsWord 0x11#8 vd 0 imm8
  | .bvChlen vd => fieldsWord 0x12#8 vd 0 0
  | .bvAppend vd vs => fieldsWord 0x13#8 vd vs 0
  | .bvShl vd => fieldsWord 0x14#8 vd 0 0
  | .bvShr vd => fieldsWord 0x15#8 vd 0 0
  | .bvExtract vd vs => fieldsWord 0x16#8 vd vs 0
  | .bvCopy vd vs => fieldsWord 0x17#8 vd vs 0
  | .bvLen vs => fieldsWord 0x18#8 0 vs 0
  | .bvReadw vs => fieldsWord 0x19#8 0 vs 0
  | .pInit => fieldsWord 0x20#8 0 0 0
  | .pPermute => fieldsWord 0x21#8 0 0 0
  | .pRdlane => fieldsWord 0x22#8 0 0 0
  | .pWrlane => fieldsWord 0x23#8 0 0 0
  | .pXorin vs => fieldsWord 0x24#8 0 vs 0
  | .pExtract vd => fieldsWord 0x25#8 vd 0 0
  | .sInit => fieldsWord 0x30#8 0 0 0
  | .sAbsorb vs => fieldsWord 0x31#8 0 vs 0
  | .sFinal vd => fieldsWord 0x32#8 vd 0 0

/-- The CMD value that issues a command: its word zero-extended to 64 bits (rules R80 and R90). -/
def encodeCmd (i : Instr) : Word := (encode i).setWidth 64

/-- The format of a command (rule R86). -/
def formatOf : Instr → Format
  | .pInit | .pPermute | .pRdlane | .pWrlane | .sInit => .n
  | .bvZero _ | .bvChlen _ | .bvShl _ | .bvShr _ | .pExtract _ | .sFinal _ => .d
  | .bvLen _ | .bvReadw _ | .pXorin _ | .sAbsorb _ => .s
  | .bvAppend _ _ | .bvExtract _ _ | .bvCopy _ _ => .ds
  | .bvPush _ _ => .di

/-- The CMD value whose low `nbits` bits are those of `w` and whose other bits are 0. -/
def tableWord (nbits w : Nat) : Word := BitVec.ofNat 64 (w % 2 ^ nbits)

/-- The `k` low bytes of a value, lowest first, as the host stores them (rule R65). -/
def bytesOfWord (v : Word) : Nat → List Byte
  | 0 => []
  | k + 1 => bytesOfWord v k ++ [v.extractLsb' (8 * k) 8]

/-- The command the decoder reads from an opcode-table row's bits `w`: the 8 bytes of the CMD write
that carries them, little-endian, are given to `decodeBytes`. -/
def decodeTableWord (nbits w : Nat) : Option Instr :=
  match decodeBytes (bytesOfWord (tableWord nbits w) 8) with
  | .ok i => some i
  | .error _ => none

end Sys2Proof
end

