-- ==== Sys2Proof/Config.lean ====
section
/-! DEFINITION. What one implementation fixes and the spec leaves open: the three OPEN parameters of rule R13,
and the free value of a read the spec calls unspecified (rule R311). -/

namespace Sys2Proof

/-- The implementation parameters of rule R13, which "a model takes as an argument".
A state carries them, no step writes them, and a statement about every state therefore holds for every choice.
`BV_MAX_BITS` and `CORE_BASE` are stored in the form that builds in their lower bound and their alignment:
`BV_MAX_BITS = 1600 + bvExtra` and `CORE_BASE = 256 * corePage` (assumption log 1). -/
structure Params where
  /-- `BV_MAX_BITS - 1600`. -/
  bvExtra : Nat
  /-- `MB_MAX_BITS`. -/
  mbMaxBits : Nat
  /-- `CORE_BASE / 256`. -/
  corePage : Nat
  deriving DecidableEq, Repr

/-- `BV_MAX_BITS`, the largest length a V register may hold (rules R13 and R27). -/
def Params.bvMaxBits (p : Params) : Nat := p.bvExtra + 1600

/-- `CORE_BASE`, the byte address of the register window (rules R13 and R60). -/
def Params.coreBase (p : Params) : Nat := 256 * p.corePage

/-- The bounds rule R13 puts on the parameters: both lengths are below 2^64. -/
def Params.legal (p : Params) : Bool :=
  decide (p.bvMaxBits < 2 ^ 64) && decide (p.mbMaxBits < 2 ^ 64)

/-- The bit-vector bound of the block that `State.reset` is: any value rule R13 allows (assumption log 1). -/
opaque Config.bvBound : BitVec 64

/-- The message-buffer bound of the block that `State.reset` is: any value rule R13 allows (assumption log 1). -/
opaque Config.mbBound : BitVec 64

/-- The window page of the block that `State.reset` is: any value rule R13 allows (assumption log 1). -/
opaque Config.windowPage : Nat

/-- The parameters of the block that `State.reset` is. Nothing is known of them but that they are legal. -/
def Config.params : Params where
  bvExtra := Config.bvBound.toNat % (2 ^ 64 - 1600)
  mbMaxBits := Config.mbBound.toNat
  corePage := Config.windowPage

/-- The free value of the `n`-th host read of RESULT or CONFIG performed while a command runs:
"A model returns an arbitrary 64-bit value and assumes nothing about it" (rule R311, assumption log 5). -/
opaque Config.unspecifiedRead : Nat → Word

end Sys2Proof
end

