-- ==== Sys2Proof/Machine/BitString.lean ====
section
/-! DEFINITION. Bit strings and the pure functions of the BitVector datapath (rules R25, R26, R67, R100 to R109). -/

namespace Sys2Proof.Machine

/-- A bit string: "a pair (len(s), val(s))" (rule R25). Its canonical form is `BitStr.canonical` (rule R26). -/
structure BitStr where
  len : Nat
  val : Nat
  deriving DecidableEq, Repr

/-- Canonical form: val(s) < 2^len(s) (rule R26). -/
def BitStr.canonical (s : BitStr) : Bool := decide (s.val < 2 ^ s.len)

/-- Bit `i` of a string, val(s)[i] (rule R25). -/
def BitStr.bit (s : BitStr) (i : Nat) : Bool := s.val.testBit i

/-- The number of backing words, ceil(len(s) / 64) (rule R25). -/
def BitStr.wordCount (s : BitStr) : Nat := (s.len + 63) / 64

/-- Backing word `k`, val(s)[64k+63 : 64k] (rule R25). -/
def BitStr.word (s : BitStr) (k : Nat) : Word := BitVec.ofNat 64 (s.val / 2 ^ (64 * k))

/-- The backing store words(s) (rule R25). -/
def BitStr.words (s : BitStr) : List Word := (List.range s.wordCount).map s.word

/-- Byte `k`, val(s)[8k+7 : 8k]; a last partial byte is zero-extended (rule R67). -/
def BitStr.byte (s : BitStr) (k : Nat) : Byte := BitVec.ofNat 8 (s.val / 2 ^ (8 * k))

/-- The bytes of a string in increasing `k`, the last one partial if need be (rules R67 and R69). -/
def BitStr.bytes (s : BitStr) : List Byte := (List.range ((s.len + 7) / 8)).map s.byte

/-- The empty string (rule R100). -/
def BitStr.empty : BitStr := ⟨0, 0⟩

/-- Rule R101. -/
def BitStr.zeroes (n : Nat) : BitStr := ⟨n, 0⟩

/-- The value of a byte list, byte 0 least significant (rule R102). -/
def bytesVal : List Byte → Nat
  | [] => 0
  | b :: bs => b.toNat + 2 ^ 8 * bytesVal bs

/-- Rule R102. -/
def BitStr.fromBytes (bs : List Byte) : BitStr := ⟨8 * bs.length, bytesVal bs⟩

/-- The value of a word list, word 0 least significant (rule R103). -/
def wordsVal : List Word → Nat
  | [] => 0
  | u :: us => u.toNat + 2 ^ 64 * wordsVal us

/-- Rule R103: bits at positions at or above the length are dropped. -/
def BitStr.fromWords (us : List Word) (n : Nat) : BitStr := ⟨n, wordsVal us % 2 ^ n⟩

/-- Rule R103: the low `n` bits of one word. -/
def BitStr.raw (u : Word) (n : Nat) : BitStr := BitStr.fromWords [u] n

/-- Rule R104. -/
def BitStr.changeLength (s : BitStr) (n : Nat) : BitStr := ⟨n, s.val % 2 ^ n⟩

/-- Rule R105: `t` follows `s`. -/
def BitStr.append (s t : BitStr) : BitStr := ⟨s.len + t.len, s.val + t.val * 2 ^ s.len⟩

/-- Rule R106. -/
def BitStr.leftShift (s : BitStr) (n : Nat) : BitStr := ⟨s.len + n, s.val * 2 ^ n⟩

/-- Rule R107. -/
def BitStr.rightShift (s : BitStr) (n : Nat) : BitStr :=
  if s.len ≤ n then BitStr.empty else ⟨s.len - n, s.val / 2 ^ n⟩

/-- The positions `extract` fails on (rule R108). -/
def BitStr.badRange (s : BitStr) (first last : Nat) : Bool :=
  decide (first = 0) || decide (last < first) || decide (s.len < last) || decide (s.len < first)

/-- Rule R108: the 1-based inclusive range, or `none` for RangeError. -/
def BitStr.extract (s : BitStr) (first last : Nat) : Option BitStr :=
  if s.badRange first last then none
  else some ((s.rightShift (first - 1)).changeLength (last - first + 1))

/-- Rule R109. -/
def BitStr.copy (s : BitStr) : BitStr := s

end Sys2Proof.Machine
end

