-- ==== Sys2Proof/Machine/Keccak.lean ====
section
/-! DEFINITION. The Keccak-p permutation over 25 lanes and its bit-string datapaths, as pure functions
(rules R140 to R162). `w` is the lane width in bits, `l` its exponent. -/

namespace Sys2Proof.Machine

/-- The lanes A[x,y] at flat index 5y + x, each in a 64-bit word (rules R18 and R28). -/
abbrev Grid := Vector Word 25

/-- A register of 25 rotation offsets of 6 bits, at flat index 5y + x (rule R29). -/
abbrev Offsets := Vector (BitVec 6) 25

/-- A[x,y], with coordinates mod 5 (rule R18). -/
def Grid.lane (a : Grid) (x y : Nat) : Word := a.getD (5 * (y % 5) + x % 5) 0#64

/-- The grid whose lane (x,y) is `f x y`. -/
def Grid.build (f : Nat → Nat → Word) : Grid := Vector.ofFn fun i : Fin 25 => f (i.val % 5) (i.val / 5)

/-- All 25 lanes zero. -/
def Grid.zero : Grid := Vector.replicate 25 0#64

/-- mask_w = 2^w - 1 (rule R16). -/
def laneMask (w : Nat) : Word := BitVec.ofNat 64 (2 ^ w - 1)

/-- The legal widths (rule R141). -/
def legalWidths : List Nat := [25, 50, 100, 200, 400, 800, 1600]

/-- ROTTAB, the unreduced rotation offsets at flat index 5y + x (rule R142). -/
def rotTab : Vector Nat 25 :=
  #v[0, 1, 190, 28, 91,
     36, 300, 6, 55, 276,
     3, 10, 171, 153, 231,
     105, 45, 15, 21, 136,
     210, 66, 253, 120, 78]

/-- OFF[x][y] = ROTTAB[x][y] mod w (rules R140 and R143). -/
def offsets (w : Nat) : Offsets := rotTab.map fun r => BitVec.ofNat 6 (r % w)

/-- OFF[x][y] as a rotation count (rule R146). -/
def Offsets.count (off : Offsets) (x y : Nat) : Nat := (off.getD (5 * (y % 5) + x % 5) 0#6).toNat

/-- rotl_w (rule R144). -/
def rotl (w : Nat) (v : Word) (n : Nat) : Word :=
  let k := n % w
  if k = 0 then v else ((v <<< k) ||| (v >>> (w - k))) &&& laneMask w

/-- The column parity C[x] of θ (rule R145). -/
def columnParity (a : Grid) (x : Nat) : Word :=
  a.lane x 0 ^^^ a.lane x 1 ^^^ a.lane x 2 ^^^ a.lane x 3 ^^^ a.lane x 4

/-- θ (rule R145); x - 1 mod 5 is written x + 4 mod 5. -/
def theta (w : Nat) (a : Grid) : Grid :=
  let c : Vector Word 5 := Vector.ofFn fun x : Fin 5 => columnParity a x.val
  let d : Vector Word 5 := Vector.ofFn fun x : Fin 5 =>
    c.getD ((x.val + 4) % 5) 0#64 ^^^ rotl w (c.getD ((x.val + 1) % 5) 0#64) 1
  Grid.build fun x y => a.lane x y ^^^ d.getD x 0#64

/-- ρ (rule R146). -/
def rho (w : Nat) (off : Offsets) (a : Grid) : Grid :=
  Grid.build fun x y => rotl w (a.lane x y) (off.count x y)

/-- π: A'[x,y] is A[(x + 3y) mod 5, x] (rule R147). -/
def piStep (a : Grid) : Grid := Grid.build fun x y => a.lane (x + 3 * y) x

/-- NOT_w, the complement within w bits (rules R16 and R148). -/
def notLane (w : Nat) (v : Word) : Word := ~~~v &&& laneMask w

/-- χ (rule R148). -/
def chi (w : Nat) (a : Grid) : Grid :=
  Grid.build fun x y => a.lane x y ^^^ (notLane w (a.lane (x + 1) y) &&& a.lane (x + 2) y)

/-- One step of the 8-bit register R of rule R149. -/
def lfsrStep (r : BitVec 8) : BitVec 8 :=
  if r.getLsbD 7 then (r <<< 1) ^^^ 0x71#8 else r <<< 1

/-- The register after `n` steps from 0x01 (rule R149). -/
def lfsr : Nat → BitVec 8
  | 0 => 0x01#8
  | n + 1 => lfsrStep (lfsr n)

/-- rc(t), for any integer t, with the non-negative remainder (rule R149). -/
def rc (t : Int) : Bool := (lfsr (t % 255).toNat).getLsbD 0

/-- The bits 2^j - 1 of RC for j below `n` (rule R150). -/
def rcBits (ir : Int) : Nat → Word
  | 0 => 0#64
  | j + 1 => if rc ((j : Int) + 7 * ir) then rcBits ir j ||| BitVec.ofNat 64 (2 ^ (2 ^ j - 1)) else rcBits ir j

/-- RC(i_r) for lanes of width 2^l (rule R150). -/
def roundConstant (l : Nat) (ir : Int) : Word := rcBits ir (l + 1)

/-- ι (rule R151). -/
def iota (l : Nat) (ir : Int) (a : Grid) : Grid :=
  Grid.build fun x y => if x = 0 ∧ y = 0 then a.lane x y ^^^ roundConstant l ir else a.lane x y

/-- Rnd(A, i_r) = ι(χ(π(ρ(θ(A)))), i_r) (rule R153). -/
def keccakRound (w l : Nat) (off : Offsets) (a : Grid) (ir : Int) : Grid :=
  iota l ir (chi w (piStep (rho w off (theta w a))))

/-- `n` rounds from round index `ir` on, in increasing order (rules R152 and R154). -/
def keccakRounds (w l : Nat) (off : Offsets) : Nat → Int → Grid → Grid
  | 0, _, a => a
  | n + 1, ir, a => keccakRounds w l off n (ir + 1) (keccakRound w l off a ir)

/-- Keccak-p[25w, nr]: the round indices 12 + 2l - nr to 12 + 2l - 1 (rules R152 to R155). -/
def permute (w l nr : Nat) (off : Offsets) (a : Grid) : Grid :=
  keccakRounds w l off nr (12 + 2 * (l : Int) - (nr : Int)) a

/-- The value of a list of lanes packed w bits each, the first lowest (rule R160). -/
def packLanes (w : Nat) : List Word → Nat
  | [] => 0
  | v :: vs => v.toNat % 2 ^ w + 2 ^ w * packLanes w vs

/-- The state string S(A): lane (x,y) occupies bits w(5y+x) to w(5y+x) + w - 1 (rule R160). -/
def stateString (w : Nat) (a : Grid) : BitStr := ⟨25 * w, packLanes w a.toList⟩

/-- Slice `i` of w bits of a value, as a lane (rule R161). -/
def laneSlice (w v i : Nat) : Word := BitVec.ofNat 64 (v / 2 ^ (w * i) % 2 ^ w)

/-- The XOR-in datapath (rule R161). -/
def xorIn (w : Nat) (a : Grid) (s : BitStr) : Grid :=
  let t := s.changeLength (25 * w)
  Grid.build fun x y => a.lane x y ^^^ laneSlice w t.val (5 * y + x)

/-- The extraction datapath (rule R162). -/
def extractOut (w : Nat) (a : Grid) (n : Nat) : BitStr := (stateString w a).changeLength n

end Sys2Proof.Machine
end

