-- ==== Sys2Proof/Machine/State.lean ====
section
/-! DEFINITION. The state of the KECCAK-CORE as plain data (10_state.md), the reasons a step can stop, and reset
(rule R301). The last four fields are the model's own: the parameters it takes as an argument, the accesses the host
has issued, the values the host has read, and the counter of the free values. -/

namespace Sys2Proof.Machine

/-- The sponge sequencer's state SST (rule R31). Its value 3 is never held and is not representable. -/
inductive SpongeState where
  | idle
  | absorbing
  | used
  deriving DecidableEq, Repr

/-- The error codes of rule R261. Codes 7 to 15 are never reported and are not representable. -/
inductive ErrorCode where
  | ok
  | eillegal
  | einval
  | erange
  | estate
  | ecapacity
  /-- Reserved: no step produces it, and a host that observes it observes a fault (rule R267). -/
  | einternal
  deriving DecidableEq, Repr

/-- What the outside does to the block: a host access to the register window at a byte offset from CORE_BASE
(rules R60 to R62), or the reset input (rule R300). Sizes are in bytes. -/
inductive HostOp where
  | read (off size : Nat)
  | write (off size : Nat) (value : Word)
  | reset
  deriving DecidableEq, Repr

/-- When a host operation arrives, relative to the command before it (rules R303, R310 and R311; assumption log 4). -/
inductive Arrival where
  /-- After that command has completed: STATUS.BUSY = 0. -/
  | idle
  /-- While that command runs: STATUS.BUSY = 1. -/
  | busy
  /-- While that command runs and the bus holds a CMD write; it matters for a reset only (rule R303). -/
  | held
  deriving DecidableEq, Repr

/-- A host operation with the time of its arrival. -/
structure HostEvent where
  op : HostOp
  arrival : Arrival
  deriving DecidableEq, Repr

/-- The state: the registers of 10_state.md's summary table, then the model's own fields. -/
structure State where
  /-- OPA (rule R21). -/
  opa : Word
  /-- OPB (rule R22). -/
  opb : Word
  /-- RESULT (rule R23). -/
  result : Word
  /-- V0 to V3 (rule R24). -/
  v : Vector BitStr 4
  /-- The lanes A[x,y] (rule R28). -/
  lanes : Grid
  /-- WIDTH (rule R29). -/
  width : BitVec 11
  /-- ROUNDS (rule R29). -/
  rounds : BitVec 8
  /-- W (rule R29). -/
  w : BitVec 7
  /-- L (rule R29). -/
  l : BitVec 3
  /-- OFF[x][y] (rule R29). -/
  off : Offsets
  /-- The message buffer MB (rule R30). -/
  mb : BitStr
  /-- SST (rule R31). -/
  sst : SpongeState
  /-- RATE (rule R32). -/
  rate : BitVec 11
  /-- The command index pc; STATUS.CMDCNT is pc mod 2^32 (rule R33). -/
  pc : Nat
  /-- STATUS.BUSY (rule R34). -/
  busy : Bool
  /-- STATUS.ERRSEEN (rule R34). -/
  errSeen : Bool
  /-- STATUS.LASTERR (rule R34). -/
  lastErr : ErrorCode
  /-- The parameters of rule R13; no step writes them (assumption log 1). -/
  params : Params
  /-- The host operations still to be performed, in the order the block receives them (rule R75, assumption log 2). -/
  queue : List HostEvent
  /-- The values the host has read, oldest first (assumption log 6). -/
  hostReads : List Word
  /-- How many free values have been taken (assumption log 5). -/
  freeCount : Nat
  deriving DecidableEq, Repr

/-- Why a step stops with a fault. -/
inductive Fault where
  /-- A host read of STATUS that would report EINTERNAL (rules R261 and R267): "a model must treat that observation
  as a fault, never as a value". Raised by `windowRead` only, in states no run from reset reaches. Safe. -/
  | internalInvariantViolation
  deriving DecidableEq, Repr

/-- Why a step is refused. -/
inductive Refusal where
  /-- An instruction without a meaning yet. No arm of `exec` raises it in this model. Safe. -/
  | notModelled (mnemonic : String)
  /-- A host access of another size than 8 bytes or at an offset that is no multiple of 8: "A model must refuse such
  an access: it has no step in the model" (rule R63). Raised by the host port only. Safe. -/
  | unsupportedAccess
  /-- A host access at an offset at or above 256, outside the register window: no access to this block (rules R60 and
  R73). Raised by the host port only. Safe. -/
  | outsideWindow
  deriving DecidableEq, Repr

/-- The outcome of a step of this machine. -/
abbrev Result := Host.Outcome State Fault Refusal

/-- The state after reset of a block with the given parameters (rule R301). -/
def State.resetWith (p : Params) : State where
  opa := 0#64
  opb := 0#64
  result := 0#64
  v := Vector.replicate 4 BitStr.empty
  lanes := Grid.zero
  width := 1600#11
  rounds := 24#8
  w := 64#7
  l := 6#3
  off := offsets 64
  mb := BitStr.empty
  sst := .idle
  rate := 0#11
  pc := 0
  busy := false
  errSeen := false
  lastErr := .ok
  params := p
  queue := []
  hostReads := []
  freeCount := 0

/-- The machine right after reset (rule R301), with parameters of which only their legality is known (assumption log 1). -/
def State.reset : State := State.resetWith Config.params

end Sys2Proof.Machine
end

