-- ==== Sys2Proof/Machine/Flags.lean ====
section
/-! DEFINITION. STATUS and CONFIG: the common completion update (rule R271) and the two register views
(rules R34 and R35). The block has no other flags (rule R37). -/

namespace Sys2Proof.Machine

/-- The code STATUS.LASTERR shows (rule R261). -/
def ErrorCode.code : ErrorCode → BitVec 4
  | .ok => 0#4
  | .eillegal => 1#4
  | .einval => 2#4
  | .erange => 3#4
  | .estate => 4#4
  | .ecapacity => 5#4
  | .einternal => 6#4

/-- The value STATUS.SST shows (rule R31). -/
def SpongeState.code : SpongeState → BitVec 2
  | .idle => 0#2
  | .absorbing => 1#2
  | .used => 2#2

/-- The common completion update of every command that starts, with its code (rule R271).
STATUS.CMDCNT is pc mod 2^32 and is computed from pc (rule R33). -/
def State.complete (e : ErrorCode) (s : State) : State :=
  { s with lastErr := e, errSeen := s.errSeen || decide (e ≠ .ok), pc := s.pc + 1, busy := false }

/-- STATUS (rule R34), its fields from bit 63 down:
CMDCNT, reserved 31:10, SST, LASTERR, reserved 3:2, ERRSEEN, BUSY. -/
def State.statusWord (s : State) : Word :=
  BitVec.ofNat 32 s.pc ++ 0#22 ++ s.sst.code ++ s.lastErr.code ++ 0#2 ++ BitVec.ofBool s.errSeen ++ BitVec.ofBool s.busy

/-- CONFIG (rule R35), its fields from bit 63 down:
reserved, RATE, reserved, L, reserved, W, ROUNDS, reserved, WIDTH. -/
def State.configWord (s : State) : Word :=
  0#13 ++ s.rate ++ 0#5 ++ s.l ++ 0#1 ++ s.w ++ s.rounds ++ 0#5 ++ s.width

end Sys2Proof.Machine
end

