-- ==== Sys2Proof/Machine/Operands.lean ====
section
/-! DEFINITION. Where commands read and write their operands: OPA and OPB as numbers, the V registers, the lanes by
flat index, and the two capacity bounds. -/

namespace Sys2Proof.Machine

/-- OPA as "unsigned 64-bit integers with no sign and no scaling" (rule R85). -/
def State.opaNat (s : State) : Nat := s.opa.toNat

/-- OPB as an unsigned 64-bit integer (rule R85). -/
def State.opbNat (s : State) : Nat := s.opb.toNat

/-- V[d] (rule R19). -/
def State.getV (s : State) (d : VReg) : BitStr := s.v.get d

/-- V[d] <- x (rule R19); no V register aliases another (rule R24). -/
def State.setV (s : State) (d : VReg) (x : BitStr) : State := { s with v := s.v.set d.val x d.isLt }

/-- The lane at a flat index 5y + x, which is A[i mod 5, i div 5] (rules R18 and R172). -/
def State.laneAt (s : State) (i : Nat) : Word := s.lanes.getD i 0#64

/-- A[i mod 5, i div 5] <- u for a flat index i <= 24 (rule R173). -/
def State.setLaneAt (s : State) (i : Nat) (u : Word) : State := { s with lanes := s.lanes.setIfInBounds i u }

/-- Whether a string of `n` bits fits a V register: n <= BV_MAX_BITS (rule R27).
It is written so that a length of at most 1600 fits whatever the parameter is (rule R13). -/
def State.fitsV (s : State) (n : Nat) : Bool := decide (n - 1600 ≤ s.params.bvExtra)

/-- Whether a message of `n` bits fits the message buffer: n <= MB_MAX_BITS (rule R30). -/
def State.fitsMb (s : State) (n : Nat) : Bool := decide (n ≤ s.params.mbMaxBits)

end Sys2Proof.Machine
end

