-- ==== Sys2Proof/Machine/Ops.lean ====
section
/-! DEFINITION. The named operations the meanings share: completing a command with success or with an error,
configuring the engine, reset, and reads and writes of the register window between commands. -/

namespace Sys2Proof.Machine

/-- A command ends with success (rule R271). -/
def succeed (s : State) : Result := .next (s.complete .ok)

/-- A command raises Error(e) (rules R19, R260, R271 and R272): STATUS and pc change and nothing else.
This is the block's whole exception entry: no vector, no saved pc, no mode, and no return (rule R273). -/
def fail (e : ErrorCode) (s : State) : Result := .next (s.complete e)

/-- A CMD value that is no command raises EILLEGAL (rules R87, R88 and R262). -/
def illegalCommand (s : State) : Result := fail .eillegal s

/-- "Every P.* command raises ESTATE while SST = ABSORBING" (rule R176). -/
def unlessAbsorbing (s : State) (k : Result) : Result :=
  if s.sst = .absorbing then fail .estate s else k

/-- "S.ABSORB and S.FINAL outside ABSORBING raise ESTATE" (rule R265). -/
def whileAbsorbing (s : State) (k : Result) : Result :=
  if s.sst = .absorbing then k else fail .estate s

/-- RESULT <- u. -/
def State.setResult (s : State) (u : Word) : State := { s with result := u }

/-- The lanes <- a. -/
def State.setLanes (s : State) (a : Grid) : State := { s with lanes := a }

/-- The permutation of the configuration registers, applied to the lanes (rule R154). -/
def State.permuted (s : State) : Grid := permute s.w.toNat s.l.toNat s.rounds.toNat s.off s.lanes

/-- WIDTH and ROUNDS are written, W, L and OFF derived from WIDTH, and the lanes cleared (rules R29, R140 and R170). -/
def State.configure (s : State) (b nr : Nat) : State :=
  { s with
    width := BitVec.ofNat 11 b
    rounds := BitVec.ofNat 8 nr
    w := BitVec.ofNat 7 (b / 25)
    l := BitVec.ofNat 3 (Nat.log2 (b / 25))
    off := offsets (b / 25)
    lanes := Grid.zero }

/-- MB <- x. -/
def State.setMb (s : State) (x : BitStr) : State := { s with mb := x }

/-- SST <- x. -/
def State.setSst (s : State) (x : SpongeState) : State := { s with sst := x }

/-- RATE <- r. -/
def State.setRate (s : State) (r : Nat) : State := { s with rate := BitVec.ofNat 11 r }

/-- The reset input (rules R300 and R301). The parameters are no state of the block, and what the host has still to
issue and what it has read are the host's (assumption log 8). -/
def State.hardReset (s : State) : State :=
  { State.resetWith s.params with queue := s.queue, hostReads := s.hostReads, freeCount := s.freeCount }

/-- A read returned `u` to the host. -/
def State.pushRead (s : State) (u : Word) : State := { s with hostReads := s.hostReads ++ [u] }

/-- The register at an offset that is a multiple of 8 within the window (rules R61, R36 and R64). -/
def State.windowRead (s : State) (off : Nat) : Except Fault Word :=
  if off = 0x00 then .ok s.opa
  else if off = 0x08 then .ok s.opb
  else if off = 0x18 then .ok s.result
  else if off = 0x20 then
    if s.lastErr = .einternal then .error .internalInvariantViolation else .ok s.statusWord
  else if off = 0x28 then .ok s.configWord
  else .ok 0#64

/-- A write to the window that starts no command: OPA and OPB store the value, and a write to a read-only register
or to a reserved offset is ignored (rules R62 and R64). -/
def State.windowWrite (s : State) (off : Nat) (u : Word) : State :=
  if off = 0x00 then { s with opa := u }
  else if off = 0x08 then { s with opb := u }
  else s

/-- Byte `k` of a 64-bit register, bits 8k+7 to 8k (rule R65). -/
def registerByte (u : Word) (k : Nat) : Byte := u.extractLsb' (8 * k) 8

/-- The byte the window shows at byte address CORE_BASE + off, for off < 256 (rules R61 and R65). It is a view of the
registers: a 1-byte host access is refused (rule R63). -/
def State.windowByte (s : State) (off : Nat) : Except Fault Byte :=
  (s.windowRead (8 * (off / 8))).map fun u => registerByte u (off % 8)

end Sys2Proof.Machine
end

