-- ==== Sys2Proof/Machine/BitVector.lean ====
section
/-! DEFINITION. The BitVector commands (rules R120 to R129). They run in every sponge state. -/

namespace Sys2Proof.Machine

/-- BV.ZERO (rule R120). -/
def execBvZero (vd : VReg) (s : State) : Result :=
  if s.fitsV s.opaNat then succeed (s.setV vd (BitStr.zeroes s.opaNat))
  else fail .ecapacity s

/-- BV.PUSH (rule R121). -/
def execBvPush (vd : VReg) (imm8 : Nat) (s : State) : Result :=
  if 64 < imm8 then fail .einval s
  else if s.fitsV ((s.getV vd).len + imm8) then succeed (s.setV vd ((s.getV vd).append (BitStr.raw s.opa imm8)))
  else fail .ecapacity s

/-- BV.CHLEN (rule R122). -/
def execBvChlen (vd : VReg) (s : State) : Result :=
  if s.fitsV s.opaNat then succeed (s.setV vd ((s.getV vd).changeLength s.opaNat))
  else fail .ecapacity s

/-- BV.APPEND (rule R123). -/
def execBvAppend (vd vs : VReg) (s : State) : Result :=
  if s.fitsV ((s.getV vd).len + (s.getV vs).len) then succeed (s.setV vd ((s.getV vd).append (s.getV vs)))
  else fail .ecapacity s

/-- BV.SHL (rule R124). -/
def execBvShl (vd : VReg) (s : State) : Result :=
  if s.fitsV ((s.getV vd).len + s.opaNat) then succeed (s.setV vd ((s.getV vd).leftShift s.opaNat))
  else fail .ecapacity s

/-- BV.SHR (rule R125). -/
def execBvShr (vd : VReg) (s : State) : Result :=
  succeed (s.setV vd ((s.getV vd).rightShift s.opaNat))

/-- BV.EXTRACT (rule R126). -/
def execBvExtract (vd vs : VReg) (s : State) : Result :=
  match (s.getV vs).extract s.opaNat s.opbNat with
  | some x => succeed (s.setV vd x)
  | none => fail .erange s

/-- BV.COPY (rule R127). -/
def execBvCopy (vd vs : VReg) (s : State) : Result :=
  succeed (s.setV vd (s.getV vs).copy)

/-- BV.LEN (rule R128). -/
def execBvLen (vs : VReg) (s : State) : Result :=
  succeed (s.setResult (BitVec.ofNat 64 (s.getV vs).len))

/-- BV.READW (rule R129). -/
def execBvReadw (vs : VReg) (s : State) : Result :=
  if (s.getV vs).wordCount ≤ s.opaNat then fail .erange s
  else succeed (s.setResult ((s.getV vs).word s.opaNat))

end Sys2Proof.Machine
end

