-- ==== Sys2Proof/Machine/Permutation.lean ====
section
/-! DEFINITION. The PermutationEngine commands (rules R170 to R176). Each raises ESTATE while SST = ABSORBING. -/

namespace Sys2Proof.Machine

/-- P.INIT (rule R170). -/
def execPInit (s : State) : Result :=
  unlessAbsorbing s
    (if s.opaNat ∉ legalWidths then fail .einval s
     else if 255 < s.opbNat then fail .einval s
     else succeed (s.configure s.opaNat s.opbNat))

/-- P.PERMUTE (rule R171). -/
def execPPermute (s : State) : Result :=
  unlessAbsorbing s (succeed (s.setLanes s.permuted))

/-- P.RDLANE (rule R172). -/
def execPRdlane (s : State) : Result :=
  unlessAbsorbing s
    (if 24 < s.opaNat then fail .erange s
     else succeed (s.setResult (s.laneAt s.opaNat)))

/-- P.WRLANE (rule R173). -/
def execPWrlane (s : State) : Result :=
  unlessAbsorbing s
    (if 2 ^ s.w.toNat ≤ s.opbNat then fail .einval s
     else if 24 < s.opaNat then fail .erange s
     else succeed (s.setLaneAt s.opaNat s.opb))

/-- P.XORIN (rule R174). -/
def execPXorin (vs : VReg) (s : State) : Result :=
  unlessAbsorbing s
    (if s.width.toNat < (s.getV vs).len then fail .erange s
     else succeed (s.setLanes (xorIn s.w.toNat s.lanes (s.getV vs))))

/-- P.EXTRACT (rule R175). -/
def execPExtract (vd : VReg) (s : State) : Result :=
  unlessAbsorbing s
    (if s.width.toNat < s.opaNat then fail .erange s
     else succeed (s.setV vd (extractOut s.w.toNat s.lanes s.opaNat)))

end Sys2Proof.Machine
end

