-- ==== Sys2Proof/Machine/SpongeFn.lean ====
section
/-! DEFINITION. Padding, absorbing and squeezing over Keccak-p[1600, 24], as pure functions (rules R200 to R208). -/

namespace Sys2Proof.Machine

/-- The sponge's permutation, Keccak-p[1600, 24] (rule R200). -/
def keccakF (a : Grid) : Grid := permute 64 6 24 (offsets 64) a

/-- j = (-m - 2) mod r, the non-negative remainder (rule R202). -/
def padZeros (m r : Nat) : Nat := ((-(m : Int) - 2) % (r : Int)).toNat

/-- pad(m, r) (rule R203). -/
def padding (m r : Nat) : BitStr := ⟨padZeros m r + 2, 1 + 2 ^ (padZeros m r + 1)⟩

/-- P = append(M, pad(len(M), r)) (rule R205). -/
def paddedMessage (m : BitStr) (r : Nat) : BitStr := m.append (padding m.len r)

/-- n, the number of r-bit blocks of a padded message (rule R205). -/
def blockCount (p : BitStr) (r : Nat) : Nat := p.len / r

/-- Block B_i = extract(P, i·r + 1, (i + 1)·r) (rule R205). -/
def messageBlock (p : BitStr) (r i : Nat) : BitStr := (p.extract (i * r + 1) ((i + 1) * r)).getD BitStr.empty

/-- The blocks `i` to `i + n - 1`, absorbed in increasing order (rule R206). -/
def absorbBlocks (p : BitStr) (r : Nat) : Nat → Nat → Grid → Grid
  | 0, _, a => a
  | n + 1, i, a => absorbBlocks p r n (i + 1) (keccakF (xorIn 64 a ((messageBlock p r i).changeLength 1600)))

/-- The absorb loop (rule R206). -/
def absorbAll (a : Grid) (p : BitStr) (r : Nat) : Grid := absorbBlocks p r (blockCount p r) 0 a

/-- The while loop of rule R207; each turn adds r >= 1 bits, so `d` turns are enough. -/
def squeezeLoop (r d : Nat) : Nat → BitStr → Grid → BitStr × Grid
  | 0, z, a => (z, a)
  | fuel + 1, z, a =>
    if z.len < d then squeezeLoop r d fuel (z.append (extractOut 64 (keccakF a) r)) (keccakF a) else (z, a)

/-- The squeeze loop (rule R207). -/
def squeeze (a : Grid) (r d : Nat) : BitStr × Grid :=
  let out := squeezeLoop r d d (extractOut 64 a r) a
  (out.1.changeLength d, out.2)

/-- SPONGE(M, c, d) (rule R208). -/
def sponge (m : BitStr) (c d : Nat) : BitStr :=
  (squeeze (absorbAll Grid.zero (paddedMessage m (1600 - c)) (1600 - c)) (1600 - c) d).1

end Sys2Proof.Machine
end

