-- ==== Sys2Proof/Machine/Sponge.lean ====
section
/-! DEFINITION. The SpongeHash commands (rules R210 to R214). -/

namespace Sys2Proof.Machine

/-- S.INIT (rule R210): allowed in every sponge state. -/
def execSInit (s : State) : Result :=
  if s.opaNat = 0 ∨ 1600 ≤ s.opaNat then fail .einval s
  else succeed ((((s.configure 1600 24).setRate (1600 - s.opaNat)).setMb BitStr.empty).setSst .absorbing)

/-- S.ABSORB (rule R211): pure buffering (rule R214). -/
def execSAbsorb (vs : VReg) (s : State) : Result :=
  whileAbsorbing s
    (if s.fitsMb (s.mb.len + (s.getV vs).len) then succeed (s.setMb (s.mb.append (s.getV vs)))
     else fail .ecapacity s)

/-- The squeezed string and the last lanes of S.FINAL for `d` bits (rules R205 to R207 and R212). -/
def State.finalised (s : State) (d : Nat) : BitStr × Grid :=
  squeeze (absorbAll s.lanes (paddedMessage s.mb s.rate.toNat) s.rate.toNat) s.rate.toNat d

/-- S.FINAL (rule R212). -/
def execSFinal (vd : VReg) (s : State) : Result :=
  whileAbsorbing s
    (if s.fitsV s.opaNat then
       succeed ((((s.setV vd (s.finalised s.opaNat).1).setLanes (s.finalised s.opaNat).2).setMb BitStr.empty).setSst .used)
     else fail .ecapacity s)

end Sys2Proof.Machine
end

