-- ==== Sys2Proof/Machine/Dispatch.lean ====
section
/-! DEFINITION. One arm per command, each one direct call of its meaning. -/

namespace Sys2Proof.Machine

/-- What a command does to a state in which it has started. -/
def exec (i : Instr) (s : State) : Host.Outcome State Fault Refusal :=
  match i with
  | .bvZero vd => Sys2Proof.Machine.execBvZero vd s
  | .bvPush vd imm8 => Sys2Proof.Machine.execBvPush vd imm8 s
  | .bvChlen vd => Sys2Proof.Machine.execBvChlen vd s
  | .bvAppend vd vs => Sys2Proof.Machine.execBvAppend vd vs s
  | .bvShl vd => Sys2Proof.Machine.execBvShl vd s
  | .bvShr vd => Sys2Proof.Machine.execBvShr vd s
  | .bvExtract vd vs => Sys2Proof.Machine.execBvExtract vd vs s
  | .bvCopy vd vs => Sys2Proof.Machine.execBvCopy vd vs s
  | .bvLen vs => Sys2Proof.Machine.execBvLen vs s
  | .bvReadw vs => Sys2Proof.Machine.execBvReadw vs s
  | .pInit => Sys2Proof.Machine.execPInit s
  | .pPermute => Sys2Proof.Machine.execPPermute s
  | .pRdlane => Sys2Proof.Machine.execPRdlane s
  | .pWrlane => Sys2Proof.Machine.execPWrlane s
  | .pXorin vs => Sys2Proof.Machine.execPXorin vs s
  | .pExtract vd => Sys2Proof.Machine.execPExtract vd s
  | .sInit => Sys2Proof.Machine.execSInit s
  | .sAbsorb vs => Sys2Proof.Machine.execSAbsorb vs s
  | .sFinal vd => Sys2Proof.Machine.execSFinal vd s

end Sys2Proof.Machine
end

