-- ==== Sys2Proof/Machine/HostPort.lean ====
section
/-! DEFINITION. The host's side of the block: which accesses are supported, what a CMD write does, what the accesses
performed while a command runs see and do, and the reset input (20_memory.md, 70_reset_and_hazards.md). -/

namespace Sys2Proof.Machine

/-- "an 8-byte access at an offset that is a multiple of 8 within the window" (rule R62). -/
def supported (off size : Nat) : Bool := decide (size = 8) && decide (off % 8 = 0) && decide (off < 256)

/-- Why an access that is not `supported` has no step (rules R60 and R63). -/
def accessRefusal (off : Nat) : Refusal := if off < 256 then .unsupportedAccess else .outsideWindow

/-- Whether an operation is a supported write to CMD, which starts a command (rule R36). -/
def HostOp.isCmdWrite : HostOp → Bool
  | .write off size _ => decide (off = 0x10) && decide (size = 8)
  | .read _ _ => false
  | .reset => false

/-- Whether an operation is a supported access. -/
def HostOp.isSupported : HostOp → Bool
  | .write off size _ => supported off size
  | .read off size => supported off size
  | .reset => false

/-- The part of the queue that is performed while a command runs (assumption log 4). -/
structure Overlap where
  /-- The accesses performed while the command runs, in order. -/
  ops : List HostOp
  /-- Whether a reset abandons the command (rule R303). -/
  abandoned : Bool
  /-- What is left for after the command, or after the reset. -/
  rest : List HostEvent
  deriving DecidableEq, Repr

/-- Splits the queue behind a CMD write. Accesses that arrive while the command runs are performed (rule R311) up to
the first CMD write, which the bus holds until the command completes (rule R310), or to the first reset, which abandons
the command and discards a held CMD write (rule R303). An unsupported access is left for its own step. -/
def overlap : List HostEvent → Overlap
  | [] => ⟨[], false, []⟩
  | e :: q =>
    if e.arrival = .idle then ⟨[], false, e :: q⟩
    else if e.op = .reset then ⟨[], true, q⟩
    else if e.op.isCmdWrite then
      match q with
      | ⟨.reset, .held⟩ :: q' => ⟨[], true, q'⟩
      | _ => ⟨[], false, e :: q⟩
    else if e.op.isSupported then ⟨e.op :: (overlap q).ops, (overlap q).abandoned, (overlap q).rest⟩
    else ⟨[], false, e :: q⟩

/-- A read performed between commands returns the register and changes no state of the block (rules R62 and R72). -/
def idleRead (off : Nat) (s : State) : Result :=
  match s.windowRead off with
  | .ok u => .next (s.pushRead u)
  | .error f => .fault f

/-- A read performed while a command runs (rule R311). `before` is the state in which the command started: STATUS shows
BUSY = 1 and the other fields as the last completed command left them, and RESULT and CONFIG show a free value. -/
def busyRead (before : State) (off : Nat) (s : State) : Result :=
  if off = 0x18 ∨ off = 0x28 then
    .next ({ s with freeCount := s.freeCount + 1 }.pushRead (Config.unspecifiedRead s.freeCount))
  else if off = 0x20 then
    match before.windowRead off with
    | .ok u => .next (s.pushRead u)
    | .error f => .fault f
  else idleRead off s

/-- One access performed while a command runs (rule R311): a write to OPA or OPB takes effect at once. -/
def busyAccess (before : State) (op : HostOp) (s : State) : Result :=
  match op with
  | .read off _ => busyRead before off s
  | .write off _ u => .next (s.windowWrite off u)
  | .reset => .next s

/-- The accesses performed while a command runs, in order. -/
def busyAccesses (before : State) : List HostOp → State → Result
  | [], s => .next s
  | op :: ops, s =>
    match busyAccess before op s with
    | .next t => busyAccesses before ops t
    | .fault f => .fault f
    | .refused r => .refused r

/-- A CMD value is decoded and executed (rules R80 and R87). -/
def execCmd (u : Word) (s : State) : Result :=
  match decode u with
  | .ok i => exec i s
  | .error _ => illegalCommand s

/-- STATUS.BUSY is 1 from the CMD write that starts a command (rule R34); `q` is what the host has still to issue. -/
def State.start (s : State) (q : List HostEvent) : State := { s with busy := true, queue := q }

/-- A command that completes: it samples its operands as they stand at its CMD write (rule R36), and the accesses
performed while it runs do not affect it (rule R311). -/
def runToCompletion (u : Word) (ops : List HostOp) (s : State) : Result :=
  match execCmd u s with
  | .next t => busyAccesses s ops t
  | .fault f => .fault f
  | .refused r => .refused r

/-- A command that a reset abandons: "no effect of the abandoned command remains" (rule R303). -/
def abandonByReset (ops : List HostOp) (s : State) : Result :=
  match busyAccesses s ops s with
  | .next t => .next t.hardReset
  | .fault f => .fault f
  | .refused r => .refused r

/-- A write of `u` to CMD (rule R36), with everything that is performed while its command runs. -/
def cmdWrite (u : Word) (s : State) : Result :=
  if (overlap s.queue).abandoned then abandonByReset (overlap s.queue).ops (s.start (overlap s.queue).rest)
  else runToCompletion u (overlap s.queue).ops (s.start (overlap s.queue).rest)

/-- One host operation, performed when no command runs. -/
def hostStep (op : HostOp) (s : State) : Result :=
  match op with
  | .reset => .next s.hardReset
  | .read off size => if supported off size then idleRead off s else .refused (accessRefusal off)
  | .write off size u =>
    if supported off size then
      if off = 0x10 then cmdWrite u s else .next (s.windowWrite off u)
    else .refused (accessRefusal off)

/-- The block performs the next host operation (rule R75). With none to perform it is idle and "holds all state while
idle" (rules R20 and R283). -/
def stepQueue (s : State) : Result :=
  match s.queue with
  | [] => .next s
  | e :: q => hostStep e.op { s with queue := q }

/-- The queue with a write of `u` to CMD put before it. -/
def State.withCommand (s : State) (u : Word) : State :=
  { s with queue := ⟨.write 0x10 8 u, .idle⟩ :: s.queue }

/-- A host access at a byte address of the host's address space (rule R62's MemRead and MemWrite). -/
inductive BusAccess where
  | read (addr size : Nat)
  | write (addr size : Nat) (value : Word)
  deriving DecidableEq, Repr

/-- The offset of a byte address in the 256-byte window at CORE_BASE (rules R60 and R61).
DESIGN CHOICE (assumption log 7; unsafe): an access is judged by its first byte. The spec does not say whether an access
that starts below CORE_BASE and reaches into the window (8 bytes at CORE_BASE - 4) is one that rule R63 wants refused;
here it has no offset, so `busOp` drops it as no access to this block. -/
def windowOffset (p : Params) (addr : Nat) : Option Nat :=
  if p.coreBase ≤ addr ∧ addr < p.coreBase + 256 then some (addr - p.coreBase) else none

/-- The access to the window that a host access is, if it falls into the window. -/
def busOp (p : Params) : BusAccess → Option HostOp
  | .read addr size => (windowOffset p addr).map fun off => .read off size
  | .write addr size u => (windowOffset p addr).map fun off => .write off size u

/-- The host issues accesses: those that fall into the window join the queue in order (rule R75). -/
def State.issue (s : State) (accesses : List BusAccess) : State :=
  { s with queue := s.queue ++ (accesses.filterMap (busOp s.params)).map fun op => ⟨op, .idle⟩ }

end Sys2Proof.Machine
end

