-- ==== Sys2Proof/Machine/Step.lean ====
section
/-! DEFINITION. One step of the machine: the next host operation of the queue, a command being one step
(rules R75 and R315). -/

namespace Sys2Proof.Machine

/-- One step. -/
def step (s : State) : Host.Outcome State Fault Refusal := stepQueue s

/-- `s` with the command whose bits are `w` as the next host operation: a CMD write of it stands first in the queue.
A program comes to run by the host issuing it (assumption log 2). -/
def State.withFetchWord (s : State) (nbits w : Nat) : State := s.withCommand (tableWord nbits w)

end Sys2Proof.Machine
end

