-- ==== Sys2Proof/Safety.lean ====
section
/-! DEFINITION. What claims about the machine are stated in: the invariant of the block's state, and the two ways a
command can end, written out field by field and not through the operations of the machine. -/

namespace Sys2Proof.Machine

/-- Every V register and MB is in canonical form and within its bound (rules R26, R27 and R30). -/
structure StringsBounded (s : State) : Prop where
  v_canonical : ∀ d : VReg, (s.getV d).val < 2 ^ (s.getV d).len
  v_len : ∀ d : VReg, (s.getV d).len ≤ s.params.bvMaxBits
  mb_canonical : s.mb.val < 2 ^ s.mb.len
  mb_len : s.mb.len ≤ s.params.mbMaxBits

/-- The configuration registers agree with one another: WIDTH = 25 W, W = 2^L, L <= 6, and OFF is ROTTAB mod W
(rules R10, R29 and R140). -/
structure ConfigConsistent (s : State) : Prop where
  width_eq : s.width.toNat = 25 * s.w.toNat
  w_eq : s.w.toNat = 2 ^ s.l.toNat
  l_le : s.l.toNat ≤ 6
  off_eq : s.off = rotTab.map fun r => BitVec.ofNat 6 (r % s.w.toNat)

/-- "This block keeps bits w to 63 of every lane at zero at all times" (rule R28). -/
def LanesWithinWidth (s : State) : Prop := ∀ i, i < 25 → (s.laneAt i).toNat < 2 ^ s.w.toNat

/-- The sponge registers agree with SST (rules R30, R31, R32, R200 and R212). -/
structure SpongeConsistent (s : State) : Prop where
  rate_lt : s.rate.toNat < 1600
  rate_zero : s.rate = 0#11 ↔ s.sst = .idle
  mb_empty : s.sst ≠ .absorbing → s.mb = ⟨0, 0⟩
  engine : s.sst = .absorbing → s.width = 1600#11 ∧ s.rounds = 24#8 ∧ s.lanes = Vector.replicate 25 0#64

/-- STATUS never shows EINTERNAL, ERRSEEN covers LASTERR, and no command runs between steps (rules R34, R267 and R315). -/
structure StatusConsistent (s : State) : Prop where
  not_internal : s.lastErr ≠ .einternal
  err_seen : s.lastErr ≠ .ok → s.errSeen = true
  not_busy : s.busy = false

/-- The invariant of the block's state between steps. -/
structure Inv (s : State) : Prop where
  strings : StringsBounded s
  config : ConfigConsistent s
  lanes : LanesWithinWidth s
  sponge : SpongeConsistent s
  status : StatusConsistent s

/-- `s` after a command that succeeded and changed nothing but STATUS and pc (rule R271). -/
def State.afterSuccess (s : State) : State := { s with lastErr := .ok, pc := s.pc + 1, busy := false }

/-- `s` after a command that raised `e` (rules R271 and R272). -/
def State.afterError (s : State) (e : ErrorCode) : State :=
  { s with lastErr := e, errSeen := true, pc := s.pc + 1, busy := false }

/-- The registers the host writes, and the model's own fields: no command writes any of them (rules R21 and R22). -/
def SameHostSide (s t : State) : Prop :=
  t.opa = s.opa ∧ t.opb = s.opb ∧ t.params = s.params ∧ t.queue = s.queue ∧ t.hostReads = s.hostReads ∧
    t.freeCount = s.freeCount

/-- A run is safe while no step faults (rules R267 and R274). -/
def NoFault (r : Result) : Prop := ∀ f, r ≠ .fault f

/-- What a CMD value that is no command looks like (rules R80, R82, R86 and R88): a high half that is not zero, an
opcode outside the map, or a field that the opcode's format requires to be zero and is not. -/
def IllegalCmd (u : Word) : Prop :=
  let opc := (u.extractLsb' 0 8).toNat
  let vd := u.extractLsb' 8 2
  let vs := u.extractLsb' 10 2
  let rsv0 := u.extractLsb' 12 4
  let imm8 := u.extractLsb' 16 8
  let rsv1 := u.extractLsb' 24 8
  u.extractLsb' 32 32 ≠ 0#32 ∨
  opc ≤ 0x0F ∨ (0x1A ≤ opc ∧ opc ≤ 0x1F) ∨ (0x26 ≤ opc ∧ opc ≤ 0x2F) ∨ 0x33 ≤ opc ∨
  rsv0 ≠ 0#4 ∨ rsv1 ≠ 0#8 ∨
  (imm8 ≠ 0#8 ∧ opc ≠ 0x11) ∨
  (vd ≠ 0#2 ∧ opc ∈ [0x18, 0x19, 0x20, 0x21, 0x22, 0x23, 0x24, 0x30, 0x31]) ∨
  (vs ≠ 0#2 ∧ opc ∉ [0x13, 0x16, 0x17, 0x18, 0x19, 0x24, 0x31])

/-- No host operation is performed while the command before this queue runs. -/
def NothingOverlaps (q : List HostEvent) : Prop := ∀ e, q.head? = some e → e.arrival = .idle

end Sys2Proof.Machine
end

