-- ==== Sys2Proof/Certificates/Slice0/Obligations.lean ====
section
/-! DEFINITION. The statements for the provers. Each docstring names the rules a statement formalises. -/

open Sys2Proof Sys2Proof.Machine

/-! ### Encoding -/

/-- The example words of rule R92: the encoder gives them, the decoder reads them, and 0x00000121 is illegal. -/
def Obligations.ExampleCommandWords : Prop :=
  encode (.bvPush 2 8) = 0x00080211#32 ∧ decode 0x00080211#64 = .ok (.bvPush 2 8) ∧
  encode (.bvExtract 3 0) = 0x00000316#32 ∧ decode 0x00000316#64 = .ok (.bvExtract 3 0) ∧
  encode (.sFinal 1) = 0x00000132#32 ∧ decode 0x00000132#64 = .ok (.sFinal 1) ∧
  decode 0x00000121#64 = .error .fieldNotZero

/-- Decoding the CMD value of a well-formed command gives the command back, for every command and every operand
(rules R80, R82, R86, R87 and R90). -/
def Obligations.DecodeOfEncode : Prop :=
  ∀ i : Instr, i.wf = true → decode (encodeCmd i) = .ok i

/-- Every CMD value that decodes is the CMD value of the command it decodes to, so no two values mean the same
(rules R80, R82, R86 and R87). -/
def Obligations.EncodeOfDecode : Prop :=
  ∀ (u : Word) (i : Instr), decode u = .ok i → encodeCmd i = u ∧ i.wf = true

/-- Decoding refuses exactly the values with a nonzero high half, an unassigned opcode, or a nonzero field that the
opcode's format requires to be zero (rules R80, R82, R87 and R88). -/
def Obligations.IllegalCommandValues : Prop :=
  ∀ u : Word, (∃ e, decode u = .error e) ↔ IllegalCmd u

/-- Byte k of a 64-bit register is its bits 8k+7 to 8k, and the 8 bytes of a CMD write decode as its value
(rule R65). -/
def Obligations.LittleEndianRegisters : Prop :=
  (∀ (s : State) (off k : Nat) (u : Word), off % 8 = 0 → k < 8 → s.windowRead off = .ok u →
    s.windowByte (off + k) = .ok (u.extractLsb' (8 * k) 8)) ∧
  ∀ u : Word, decodeBytes ((List.range 8).map fun k => u.extractLsb' (8 * k) 8) = decode u

/-! ### The host port -/

/-- When the next host operation is a CMD write of a value that decodes and nothing arrives while its command runs,
a step is that command, started with BUSY = 1 (rules R36, R71, R80 and R315).
The queue of host operations and its arrival marks are the model's choice (assumption log 2 and 4). -/
def Obligations.StepRunsTheDecodedCommand : Prop :=
  ∀ (s : State) (u : Word) (a : Arrival) (q : List HostEvent) (i : Instr),
    s.queue = ⟨.write 0x10 8 u, a⟩ :: q → NothingOverlaps q → decode u = .ok i →
    step s = exec i { s with queue := q, busy := true }

/-- "An illegal command changes nothing except STATUS and pc": a CMD write of a value with a nonzero high half, an
unassigned opcode, or a nonzero must-be-zero field raises EILLEGAL (rules R88, R262, R271 and R272).
The queue of host operations and its arrival marks are the model's choice (assumption log 2 and 4). -/
def Obligations.IllegalCommandChangesStatusAndPcOnly : Prop :=
  ∀ (s : State) (u : Word) (a : Arrival) (q : List HostEvent),
    s.queue = ⟨.write 0x10 8 u, a⟩ :: q → NothingOverlaps q → IllegalCmd u →
    step s = .next ({ s with queue := q }.afterError .eillegal)

/-- A write to OPA and one to OPB that arrive while a command runs do not affect that command and take effect at once:
the state after the step holds the new values for the next command to sample, and reads behind the writes return them
while the command still runs (rules R36 and R311).
The queue of host operations, its arrival marks and the list of values read are the model's choice
(assumption log 2, 4 and 6). -/
def Obligations.OperandWritesDuringACommand : Prop :=
  ∀ (s t : State) (u x y : Word) (a : Arrival) (q : List HostEvent), NothingOverlaps q →
    execCmd u { s with queue := q, busy := true } = .next t →
    (s.queue = ⟨.write 0x10 8 u, a⟩ :: ⟨.write 0x00 8 x, .busy⟩ :: ⟨.write 0x08 8 y, .busy⟩ :: q →
      step s = .next { t with opa := x, opb := y }) ∧
    (s.queue = ⟨.write 0x10 8 u, a⟩ :: ⟨.write 0x00 8 x, .busy⟩ :: ⟨.write 0x08 8 y, .busy⟩ ::
        ⟨.read 0x00 8, .busy⟩ :: ⟨.read 0x08 8, .busy⟩ :: q →
      step s = .next { t with opa := x, opb := y, hostReads := s.hostReads ++ [x, y] })

/-- Accesses that arrive while a command runs (rules R34, R62, R64 and R311).
First, in one row: STATUS shows BUSY = 1 and the fields the last completed command left, OPA shows its last value, CMD
and the reserved offset 0x30 show 0, and RESULT and CONFIG show some value.
Then, behind any supported accesses `ops` that arrive while the command runs, which leave the block in `t`: a read at
any offset returns OPA or OPB as last written, STATUS with BUSY = 1, 0 for CMD and for every reserved offset
0x30 to 0xF8, or some value for RESULT and CONFIG, and changes nothing of the block; a write to OPA or OPB stores its
value; and a write to RESULT, STATUS, CONFIG or a reserved offset is ignored.
The queue of host operations and its arrival marks, the counter of free values that a read of RESULT or CONFIG advances
by one, and the list of values read are the model's choice (DESIGN CHOICE, assumption log 2, 4, 5 and 6). -/
def Obligations.ReadsDuringACommand : Prop :=
  (∀ (s t : State) (u : Word) (a : Arrival) (q : List HostEvent),
    s.busy = false → s.lastErr ≠ .einternal →
    s.queue = ⟨.write 0x10 8 u, a⟩ :: ⟨.read 0x20 8, .busy⟩ :: ⟨.read 0x18 8, .busy⟩ :: ⟨.read 0x28 8, .busy⟩ ::
      ⟨.read 0x00 8, .busy⟩ :: ⟨.read 0x10 8, .busy⟩ :: ⟨.read 0x30 8, .busy⟩ :: q → NothingOverlaps q →
    execCmd u { s with queue := q, busy := true } = .next t →
    ∃ x y : Word, step s =
      .next { t with
        hostReads := s.hostReads ++ [s.statusWord ||| 1#64, x, y, s.opa, 0#64, 0#64], freeCount := s.freeCount + 2 }) ∧
  ∀ (s t : State) (u : Word) (a : Arrival) (ops : List HostOp) (q : List HostEvent) (off : Nat),
    (∀ op ∈ ops, op.isSupported = true ∧ op.isCmdWrite = false) → s.lastErr ≠ .einternal → NothingOverlaps q →
    off % 8 = 0 → off < 256 →
    step { s with queue := ⟨.write 0x10 8 u, a⟩ :: ((ops.map fun op => ⟨op, .busy⟩) ++ q) } = .next t →
    (∃ x n,
      step { s with
        queue := ⟨.write 0x10 8 u, a⟩ :: ((ops.map fun op => ⟨op, .busy⟩) ++ ⟨.read off 8, .busy⟩ :: q) } =
          .next { t with hostReads := t.hostReads ++ [x], freeCount := n } ∧
      (off = 0x00 → x = t.opa) ∧ (off = 0x08 → x = t.opb) ∧ (off = 0x20 → x = s.statusWord ||| 1#64) ∧
      (off = 0x10 ∨ 0x30 ≤ off → x = 0#64) ∧
      (off = 0x18 ∨ off = 0x28 → n = t.freeCount + 1) ∧ (off ≠ 0x18 → off ≠ 0x28 → n = t.freeCount)) ∧
    ∀ (x : Word) (r : Result),
      step { s with
        queue := ⟨.write 0x10 8 u, a⟩ :: ((ops.map fun op => ⟨op, .busy⟩) ++ ⟨.write off 8 x, .busy⟩ :: q) } = r →
      (off = 0x00 → r = .next { t with opa := x }) ∧ (off = 0x08 → r = .next { t with opb := x }) ∧
      (0x18 ≤ off → r = .next t)

/-- A CMD write that arrives while a command runs is neither lost nor rejected and does not disturb that command: it is
performed when the command completes, with OPA and OPB as they stand then (rules R75 and R310).
The queue of host operations and its arrival marks are the model's choice (assumption log 2 and 4). -/
def Obligations.HeldCommandRunsNext : Prop :=
  ∀ (s t : State) (u u' x : Word) (a : Arrival) (q : List HostEvent),
    s.queue = ⟨.write 0x10 8 u, a⟩ :: ⟨.write 0x00 8 x, .busy⟩ :: ⟨.write 0x10 8 u', .busy⟩ :: q → NothingOverlaps q →
    execCmd u { s with queue := ⟨.write 0x10 8 u', .busy⟩ :: q, busy := true } = .next t →
    step s = .next { t with opa := x } ∧
    step { t with opa := x } = execCmd u' { t with opa := x, queue := q, busy := true }

/-- A reset that arrives while a command runs abandons it, and discards a CMD write the bus holds, whatever accesses
were performed before it; every element of the block then has its reset value (rules R300, R301, R303 and R310).
That the queue behind the reset, the values read and the counter of free values stay is the model's choice
(assumption log 8), and that a held CMD write alone is discarded, and not the accesses behind it, is deduced
(assumption log 9, unsafe: a platform may drop them too).
The queue of host operations and its arrival marks are the model's choice (assumption log 2 and 4). -/
def Obligations.ResetAbandonsTheCommand : Prop :=
  ∀ (s : State) (u u' : Word) (a : Arrival) (ops : List HostOp) (q : List HostEvent),
    (∀ op ∈ ops, op.isSupported = true ∧ op.isCmdWrite = false) → s.lastErr ≠ .einternal →
    (s.queue = ⟨.write 0x10 8 u, a⟩ :: ((ops.map fun op => ⟨op, .busy⟩) ++ ⟨.reset, .busy⟩ :: q) ∨
      s.queue = ⟨.write 0x10 8 u, a⟩ ::
        ((ops.map fun op => ⟨op, .busy⟩) ++ ⟨.write 0x10 8 u', .busy⟩ :: ⟨.reset, .held⟩ :: q)) →
    ∃ t, step s = .next t ∧
      t = { State.resetWith s.params with queue := q, hostReads := t.hostReads, freeCount := t.freeCount }

/-- The accesses between commands (rules R36, R61, R62, R64 and R72): an aligned 8-byte read returns the register at its
offset, 0 for CMD and for a reserved offset, and changes nothing; a write to OPA or OPB stores its value; a write to
any other offset but CMD is ignored.
The value read is the one put at the end of hostReads, the model's own record (DESIGN CHOICE, assumption log 6).
The queue of host operations and its arrival marks are the model's choice (assumption log 2 and 4). -/
def Obligations.AccessesBetweenCommands : Prop :=
  ∀ (s : State) (off : Nat) (a : Arrival) (q : List HostEvent), off % 8 = 0 → off < 256 →
    (s.queue = ⟨.read off 8, a⟩ :: q → s.lastErr ≠ .einternal →
      ∃ x, step s = .next { s with queue := q, hostReads := s.hostReads ++ [x] } ∧
        (off = 0x00 → x = s.opa) ∧ (off = 0x08 → x = s.opb) ∧ (off = 0x10 → x = 0#64) ∧
        (off = 0x18 → x = s.result) ∧ (off = 0x20 → x = s.statusWord) ∧ (off = 0x28 → x = s.configWord) ∧
        (0x30 ≤ off → x = 0#64)) ∧
    ∀ x, s.queue = ⟨.write off 8 x, a⟩ :: q →
      (off = 0x00 → step s = .next { s with queue := q, opa := x }) ∧
      (off = 0x08 → step s = .next { s with queue := q, opb := x }) ∧
      (0x18 ≤ off → step s = .next { s with queue := q })

/-- "A model must refuse such an access: it has no step in the model": an access of another size than 8 bytes or at an
offset that is no multiple of 8 (rule R63).
The queue of host operations and its arrival marks are the model's choice (assumption log 2 and 4). -/
def Obligations.UnsupportedAccessesAreRefused : Prop :=
  ∀ (s : State) (off size : Nat) (x : Word) (a : Arrival) (q : List HostEvent),
    off < 256 → (size ≠ 8 ∨ off % 8 ≠ 0) →
    (s.queue = ⟨.read off size, a⟩ :: q ∨ s.queue = ⟨.write off size x, a⟩ :: q) →
    step s = .refused .unsupportedAccess

/-- The window is the 256 bytes at CORE_BASE, and an access at CORE_BASE + o reaches offset o (rules R60 and R62).
That an access whose first byte lies outside the window is none to this block (`busOp` answers none), also where it
starts below CORE_BASE and reaches into the window, is the model's DESIGN CHOICE (assumption log 7); CORE_BASE mod 256 = 0
is rule R13's constraint, which holds here by the form in which the model stores it (assumption log 1). -/
def Obligations.WindowIsAtCoreBase : Prop :=
  ∀ (p : Params) (addr size : Nat) (x : Word),
    p.coreBase % 256 = 0 ∧
    (∀ off, off < 256 → addr = p.coreBase + off →
      busOp p (.read addr size) = some (.read off size) ∧ busOp p (.write addr size x) = some (.write off size x)) ∧
    ((addr < p.coreBase ∨ p.coreBase + 256 ≤ addr) →
      busOp p (.read addr size) = none ∧ busOp p (.write addr size x) = none)

/-- The fields of STATUS and CONFIG (rules R33, R34 and R35), with the code LASTERR shows for each error (rule R261) and
the value SST shows for each sponge state (rule R31). -/
def Obligations.StatusAndConfigFields : Prop :=
  ∀ s : State,
    s.statusWord.getLsbD 0 = s.busy ∧ s.statusWord.getLsbD 1 = s.errSeen ∧ s.statusWord.extractLsb' 2 2 = 0#2 ∧
    s.statusWord.extractLsb' 4 4 = s.lastErr.code ∧ s.statusWord.extractLsb' 8 2 = s.sst.code ∧
    s.statusWord.extractLsb' 10 22 = 0#22 ∧ (s.statusWord.extractLsb' 32 32).toNat = s.pc % 2 ^ 32 ∧
    s.configWord.extractLsb' 0 11 = s.width ∧ s.configWord.extractLsb' 11 5 = 0#5 ∧
    s.configWord.extractLsb' 16 8 = s.rounds ∧ s.configWord.extractLsb' 24 7 = s.w ∧
    s.configWord.extractLsb' 31 1 = 0#1 ∧ s.configWord.extractLsb' 32 3 = s.l ∧
    s.configWord.extractLsb' 35 5 = 0#5 ∧ s.configWord.extractLsb' 40 11 = s.rate ∧
    s.configWord.extractLsb' 51 13 = 0#13 ∧
    (s.lastErr = .ok → s.statusWord.extractLsb' 4 4 = 0#4) ∧
    (s.lastErr = .eillegal → s.statusWord.extractLsb' 4 4 = 1#4) ∧
    (s.lastErr = .einval → s.statusWord.extractLsb' 4 4 = 2#4) ∧
    (s.lastErr = .erange → s.statusWord.extractLsb' 4 4 = 3#4) ∧
    (s.lastErr = .estate → s.statusWord.extractLsb' 4 4 = 4#4) ∧
    (s.lastErr = .ecapacity → s.statusWord.extractLsb' 4 4 = 5#4) ∧
    (s.lastErr = .einternal → s.statusWord.extractLsb' 4 4 = 6#4) ∧
    (s.sst = .idle → s.statusWord.extractLsb' 8 2 = 0#2) ∧
    (s.sst = .absorbing → s.statusWord.extractLsb' 8 2 = 1#2) ∧
    (s.sst = .used → s.statusWord.extractLsb' 8 2 = 2#2)

/-! ### Reset -/

/-- "Reset sets every architectural state element of 10_state.md to the value below": the reset input, in every state
(rule R301). -/
def Obligations.ResetValues : Prop :=
  ∀ (s t : State) (a : Arrival) (q : List HostEvent), s.queue = ⟨.reset, a⟩ :: q → step s = .next t →
    t.opa = 0#64 ∧ t.opb = 0#64 ∧ t.result = 0#64 ∧ (∀ d : VReg, t.getV d = ⟨0, 0⟩) ∧
    (∀ i, i < 25 → t.laneAt i = 0#64) ∧ t.width = 1600#11 ∧ t.rounds = 24#8 ∧ t.w = 64#7 ∧ t.l = 6#3 ∧
    t.off = #v[0#6, 1#6, 62#6, 28#6, 27#6, 36#6, 44#6, 6#6, 55#6, 20#6, 3#6, 10#6, 43#6, 25#6, 39#6,
      41#6, 45#6, 15#6, 21#6, 8#6, 18#6, 2#6, 61#6, 56#6, 14#6] ∧
    t.mb = ⟨0, 0⟩ ∧ t.sst = .idle ∧ t.rate = 0#11 ∧ t.pc = 0 ∧
    t.statusWord = 0x0000000000000000#64 ∧ t.configWord = 0x0000000640180640#64

/-- The state after reset is what a successful P.INIT of 1600 and 24 leaves of it, but for pc; and a P.PERMUTE straight
after reset is Keccak-f[1600] of the zero state (rule R302). -/
def Obligations.ResetIsAConfiguredEngine : Prop :=
  ∀ p : Params,
    exec .pInit { State.resetWith p with opa := 1600#64, opb := 24#64 } =
      .next { State.resetWith p with opa := 1600#64, opb := 24#64, pc := 1 } ∧
    exec .pPermute (State.resetWith p) =
      .next { State.resetWith p with
        lanes := (List.range 24).foldl (fun (a : Grid) (k : Nat) => keccakRound 64 6 (offsets 64) a (k : Int))
          (Vector.replicate 25 0#64)
        pc := 1 }

/-- The state after reset meets the invariant, whatever the implementation parameters are (assumption log 1). The
invariant's clause on the lanes in ABSORBING is the model's (assumption log 19); SST is IDLE after reset. -/
def Obligations.ResetMeetsTheInvariant : Prop := Inv State.reset

/-! ### The whole machine -/

/-- From every state that meets the invariant, a step leads to a state that meets it: canonical and bounded strings,
lanes within the lane width, a consistent configuration and sponge, and STATUS without EINTERNAL
(rules R26 to R32, R140, R156, R176, R200, R210 to R214, R267 and R315).
The clause `SpongeConsistent.engine`, that the lanes are zero while SST = ABSORBING, is the model's: it follows the
buffer-everything form of rule R214, while an eager block may hold other lanes there, which no command observes
(DEDUCED, assumption log 19, unsafe for a claim about those lanes). -/
def Obligations.StepKeepsTheInvariant : Prop :=
  ∀ s t : State, Inv s → step s = .next t → Inv t

/-- From a state that meets the invariant no step faults, and a supported access, a command or a reset completes
(rules R71, R267 and R274).
The queue of host operations and its arrival marks are the model's choice (assumption log 2 and 4). -/
def Obligations.StepsComplete : Prop :=
  ∀ s : State, Inv s →
    NoFault (step s) ∧
    ∀ (e : HostEvent) (q : List HostEvent), s.queue = e :: q → (e.op.isSupported = true ∨ e.op = .reset) →
      ∃ t, step s = .next t

/-- The common completion update: every command completes, pc advances by one, BUSY falls, ERRSEEN is set by an error
and never cleared, LASTERR is the command's own code, and the block writes neither OPA nor OPB (rules R21, R33 and
R271). The second part says the same of every CMD value, an illegal one included. -/
def Obligations.EveryCommandCompletes : Prop :=
  (∀ (i : Instr) (s : State), ∃ t, exec i s = .next t ∧
    t.pc = s.pc + 1 ∧ t.busy = false ∧ t.lastErr ∈ [.ok, .einval, .erange, .estate, .ecapacity] ∧
    (t.errSeen = true ↔ s.errSeen = true ∨ t.lastErr ≠ .ok) ∧
    t.statusWord.extractLsb' 32 32 = s.statusWord.extractLsb' 32 32 + 1#32 ∧ SameHostSide s t ∧
    (i ≠ .sInit → (∀ vd, i ≠ .sFinal vd) → t.sst = s.sst)) ∧
  ∀ (u : Word) (s : State), ∃ t, execCmd u s = .next t ∧
    t.pc = s.pc + 1 ∧ t.busy = false ∧ t.lastErr ∈ [.ok, .eillegal, .einval, .erange, .estate, .ecapacity] ∧
    (t.lastErr = .eillegal ↔ IllegalCmd u) ∧ (t.errSeen = true ↔ s.errSeen = true ∨ t.lastErr ≠ .ok) ∧
    t.statusWord.extractLsb' 32 32 = BitVec.ofNat 32 t.pc ∧ SameHostSide s t ∧ (IllegalCmd u → t.sst = s.sst)

/-- "a command that raises an error changes no state except the STATUS fields and pc" (rule R272): of every command, and
of every CMD value. -/
def Obligations.FailedCommandsChangeNothingElse : Prop :=
  (∀ (i : Instr) (s t : State), exec i s = .next t → t.lastErr ≠ .ok → t = s.afterError t.lastErr) ∧
  ∀ (u : Word) (s t : State), execCmd u s = .next t → t.lastErr ≠ .ok → t = s.afterError t.lastErr

/-- Which commands write what: RESULT, the configuration, RATE, MB, the lanes and the V registers
(rules R23, R24, R28, R29, R30 and R32). -/
def Obligations.OnlyTheseCommandsWrite : Prop :=
  ∀ (i : Instr) (s t : State), exec i s = .next t →
    ((∀ vs, i ≠ .bvLen vs) → (∀ vs, i ≠ .bvReadw vs) → i ≠ .pRdlane → t.result = s.result) ∧
    (i ≠ .pInit → i ≠ .sInit →
      t.width = s.width ∧ t.rounds = s.rounds ∧ t.w = s.w ∧ t.l = s.l ∧ t.off = s.off) ∧
    (i ≠ .sInit → t.rate = s.rate) ∧
    (i ≠ .sInit → (∀ vs, i ≠ .sAbsorb vs) → (∀ vd, i ≠ .sFinal vd) → t.mb = s.mb) ∧
    (i ∉ [.pInit, .pPermute, .pWrlane, .sInit] → (∀ vs, i ≠ .pXorin vs) → (∀ vd, i ≠ .sFinal vd) →
      t.lanes = s.lanes) ∧
    ∀ k : VReg, i ∉ [.bvZero k, .bvChlen k, .bvShl k, .bvShr k, .pExtract k, .sFinal k] →
      (∀ n, i ≠ .bvPush k n) → (∀ vs, i ∉ [.bvAppend k vs, .bvExtract k vs, .bvCopy k vs]) → t.getV k = s.getV k

/-- The sponge state machine (rule R213): each command's next SST, and the error that leaves it unchanged. -/
def Obligations.SpongeStateTransitions : Prop :=
  ∀ s : State,
    (∃ t, exec .sInit s = .next t ∧
      if 1 ≤ s.opa.toNat ∧ s.opa.toNat < 1600 then t.sst = .absorbing ∧ t.lastErr = .ok
      else t.sst = s.sst ∧ t.lastErr = .einval) ∧
    (∀ vs, ∃ t, exec (.sAbsorb vs) s = .next t ∧ t.sst = s.sst ∧
      if s.sst = .absorbing then t.lastErr = .ok ∨ t.lastErr = .ecapacity else t.lastErr = .estate) ∧
    (∀ vd, ∃ t, exec (.sFinal vd) s = .next t ∧
      if s.sst = .absorbing then
        (t.sst = .used ∧ t.lastErr = .ok) ∨ (t.sst = .absorbing ∧ t.lastErr = .ecapacity)
      else t.sst = s.sst ∧ t.lastErr = .estate) ∧
    (∀ i, (i ∈ [.pInit, .pPermute, .pRdlane, .pWrlane] ∨ (∃ r, i = .pXorin r ∨ i = .pExtract r)) →
      ∃ t, exec i s = .next t ∧ t.sst = s.sst ∧ (t.lastErr = .estate ↔ s.sst = .absorbing)) ∧
    ∀ i, i ∉ [.pInit, .pPermute, .pRdlane, .pWrlane, .sInit] →
      (∀ r, i ∉ [.pXorin r, .pExtract r, .sAbsorb r, .sFinal r]) →
      ∃ t, exec i s = .next t ∧ t.sst = s.sst ∧ t.lastErr ≠ .estate

/-- When a command raises EINVAL, all cases and no other (rule R263). In ABSORBING the P commands raise ESTATE, which
comes first (rules R176 and R268). -/
def Obligations.WhenEinvalIsRaised : Prop :=
  ∀ (i : Instr) (s t : State), exec i s = .next t →
    (t.lastErr = .einval ↔
      (i = .pInit ∧ s.sst ≠ .absorbing ∧
        (s.opa.toNat ∉ [25, 50, 100, 200, 400, 800, 1600] ∨ 255 < s.opb.toNat)) ∨
      (i = .sInit ∧ (s.opa.toNat = 0 ∨ 1600 ≤ s.opa.toNat)) ∨
      (∃ vd n, i = .bvPush vd n ∧ 64 < n) ∨
      (i = .pWrlane ∧ s.sst ≠ .absorbing ∧ 2 ^ s.w.toNat ≤ s.opb.toNat))

/-- When a command raises ERANGE, all cases and no other (rule R264). ESTATE, which the P commands raise in ABSORBING,
and EINVAL come first (rules R176 and R268). -/
def Obligations.WhenErangeIsRaised : Prop :=
  ∀ (i : Instr) (s t : State), exec i s = .next t →
    (t.lastErr = .erange ↔
      (∃ vd vs, i = .bvExtract vd vs ∧ (s.opa.toNat = 0 ∨ s.opb.toNat < s.opa.toNat ∨
        (s.getV vs).len < s.opb.toNat ∨ (s.getV vs).len < s.opa.toNat)) ∨
      (∃ vs, i = .bvReadw vs ∧ ((s.getV vs).len + 63) / 64 ≤ s.opa.toNat) ∨
      (i = .pRdlane ∧ s.sst ≠ .absorbing ∧ 24 < s.opa.toNat) ∨
      (i = .pWrlane ∧ s.sst ≠ .absorbing ∧ s.opb.toNat < 2 ^ s.w.toNat ∧ 24 < s.opa.toNat) ∨
      (∃ vs, i = .pXorin vs ∧ s.sst ≠ .absorbing ∧ s.width.toNat < (s.getV vs).len) ∨
      (∃ vd, i = .pExtract vd ∧ s.sst ≠ .absorbing ∧ s.width.toNat < s.opa.toNat))

/-- When a command raises ESTATE, all cases and no other (rules R176 and R265). -/
def Obligations.WhenEstateIsRaised : Prop :=
  ∀ (i : Instr) (s t : State), exec i s = .next t →
    (t.lastErr = .estate ↔
      ((∃ r, i = .sAbsorb r ∨ i = .sFinal r) ∧ s.sst ≠ .absorbing) ∨
      ((i ∈ [.pInit, .pPermute, .pRdlane, .pWrlane] ∨ ∃ r, i = .pXorin r ∨ i = .pExtract r) ∧ s.sst = .absorbing))

/-- When a command raises ECAPACITY, all cases and no other (rule R266). ESTATE, which S.ABSORB and S.FINAL raise outside
ABSORBING, and EINVAL, which BV.PUSH raises above 64 bits, come first (rules R121, R265 and R268). -/
def Obligations.WhenEcapacityIsRaised : Prop :=
  ∀ (i : Instr) (s t : State), exec i s = .next t →
    (t.lastErr = .ecapacity ↔
      (∃ vd, (i = .bvZero vd ∨ i = .bvChlen vd) ∧ s.params.bvMaxBits < s.opa.toNat) ∨
      (∃ vd n, i = .bvPush vd n ∧ n ≤ 64 ∧ s.params.bvMaxBits < (s.getV vd).len + n) ∨
      (∃ vd, i = .bvShl vd ∧ s.params.bvMaxBits < (s.getV vd).len + s.opa.toNat) ∨
      (∃ vd vs, i = .bvAppend vd vs ∧ s.params.bvMaxBits < (s.getV vd).len + (s.getV vs).len) ∨
      (∃ vd, i = .sFinal vd ∧ s.sst = .absorbing ∧ s.params.bvMaxBits < s.opa.toNat) ∨
      (∃ vs, i = .sAbsorb vs ∧ s.sst = .absorbing ∧ s.params.mbMaxBits < s.mb.len + (s.getV vs).len))

/-- "No command reads STATUS": two states that differ in STATUS and pc alone lead to states that differ in BUSY,
ERRSEEN and pc alone (rule R37). -/
def Obligations.NoCommandReadsStatus : Prop :=
  ∀ (i : Instr) (s t : State) (e : ErrorCode) (seen busy : Bool) (n : Nat), exec i s = .next t →
    ∃ t', exec i { s with lastErr := e, errSeen := seen, busy := busy, pc := n } = .next t' ∧
      t' = { t with errSeen := t'.errSeen, pc := n + 1 }

/-- "A command that uses only OPA ignores OPB. A command that uses neither ignores both" (rule R85). -/
def Obligations.UnusedOperandsAreIgnored : Prop :=
  ∀ (i : Instr) (s t : State) (x : Word), exec i s = .next t →
    (i ≠ .pInit → i ≠ .pWrlane → (∀ vd vs, i ≠ .bvExtract vd vs) →
      exec i { s with opb := x } = .next { t with opb := x }) ∧
    ((i = .pPermute ∨ ∃ vd vs, i ∈ [.bvAppend vd vs, .bvCopy vd vs, .bvLen vs, .pXorin vs, .sAbsorb vs]) →
      exec i { s with opa := x } = .next { t with opa := x })

/-- While SST = ABSORBING no command observes the lanes: with other lanes, every command but S.INIT and S.FINAL does the
same and leaves those lanes (rule R176). -/
def Obligations.LanesAreUnobservableWhileAbsorbing : Prop :=
  ∀ (i : Instr) (s t : State) (a : Grid), s.sst = .absorbing → i ≠ .sInit → (∀ vd, i ≠ .sFinal vd) →
    exec i s = .next t → exec i { s with lanes := a } = .next { t with lanes := a } ∧ t.lanes = s.lanes

/-! ### The BitVector commands -/

/-- BV.ZERO (rule R120) and BV.COPY (rule R127). -/
def Obligations.BvZeroAndCopyResults : Prop :=
  ∀ (vd vs : VReg) (s : State),
    encode (.bvZero vd) = BitVec.ofNat 32 (0x10 + 0x100 * vd.val) ∧
    (s.opa.toNat ≤ s.params.bvMaxBits →
      ∃ x, exec (.bvZero vd) s = .next { s with v := s.v.set vd.val x vd.isLt }.afterSuccess ∧
        x.len = s.opa.toNat ∧ x.val = 0) ∧
    (s.params.bvMaxBits < s.opa.toNat → exec (.bvZero vd) s = .next (s.afterError .ecapacity)) ∧
    encode (.bvCopy vd vs) = BitVec.ofNat 32 (0x17 + 0x100 * vd.val + 0x400 * vs.val) ∧
    ∃ t, exec (.bvCopy vd vs) s = .next t ∧ t = { s with v := t.v }.afterSuccess ∧
      t.getV vd = s.getV vs ∧ ∀ k, k ≠ vd → t.getV k = s.getV k

/-- BV.PUSH appends the low IMM8 bits of OPA (rule R121). -/
def Obligations.BvPushResult : Prop :=
  ∀ (vd : VReg) (n : Nat) (s : State), (s.getV vd).val < 2 ^ (s.getV vd).len →
    (n < 256 → encode (.bvPush vd n) = BitVec.ofNat 32 (0x11 + 0x100 * vd.val + 0x10000 * n)) ∧
    (n ≤ 64 → (s.getV vd).len + n ≤ s.params.bvMaxBits →
      ∃ x, exec (.bvPush vd n) s = .next { s with v := s.v.set vd.val x vd.isLt }.afterSuccess ∧
        x.len = (s.getV vd).len + n ∧ x.val < 2 ^ x.len ∧
        (∀ i, i < (s.getV vd).len → x.bit i = (s.getV vd).bit i) ∧
        ∀ i, i < n → x.bit ((s.getV vd).len + i) = s.opa.getLsbD i) ∧
    (64 < n → exec (.bvPush vd n) s = .next (s.afterError .einval)) ∧
    (n ≤ 64 → s.params.bvMaxBits < (s.getV vd).len + n → exec (.bvPush vd n) s = .next (s.afterError .ecapacity))

/-- BV.CHLEN truncates or zero-extends (rule R122). -/
def Obligations.BvChlenResult : Prop :=
  ∀ (vd : VReg) (s : State), (s.getV vd).val < 2 ^ (s.getV vd).len →
    encode (.bvChlen vd) = BitVec.ofNat 32 (0x12 + 0x100 * vd.val) ∧
    (s.opa.toNat ≤ s.params.bvMaxBits →
      ∃ x, exec (.bvChlen vd) s = .next { s with v := s.v.set vd.val x vd.isLt }.afterSuccess ∧
        x.len = s.opa.toNat ∧ x.val < 2 ^ x.len ∧
        (∀ i, i < s.opa.toNat → i < (s.getV vd).len → x.bit i = (s.getV vd).bit i) ∧
        ∀ i, (s.getV vd).len ≤ i → x.bit i = false) ∧
    (s.params.bvMaxBits < s.opa.toNat → exec (.bvChlen vd) s = .next (s.afterError .ecapacity))

/-- BV.APPEND: "self's bit `length-1` is immediately followed by other's bit 0" (rules R105 and R123); VD = VS included. -/
def Obligations.BvAppendResult : Prop :=
  ∀ (vd vs : VReg) (s : State), (s.getV vd).val < 2 ^ (s.getV vd).len → (s.getV vs).val < 2 ^ (s.getV vs).len →
    encode (.bvAppend vd vs) = BitVec.ofNat 32 (0x13 + 0x100 * vd.val + 0x400 * vs.val) ∧
    ((s.getV vd).len + (s.getV vs).len ≤ s.params.bvMaxBits →
      ∃ x, exec (.bvAppend vd vs) s = .next { s with v := s.v.set vd.val x vd.isLt }.afterSuccess ∧
        x.len = (s.getV vd).len + (s.getV vs).len ∧ x.val < 2 ^ x.len ∧
        (∀ i, i < (s.getV vd).len → x.bit i = (s.getV vd).bit i) ∧
        ∀ i, i < (s.getV vs).len → x.bit ((s.getV vd).len + i) = (s.getV vs).bit i) ∧
    (s.params.bvMaxBits < (s.getV vd).len + (s.getV vs).len →
      exec (.bvAppend vd vs) s = .next (s.afterError .ecapacity))

/-- BV.SHL moves every bit up by OPA and fills with zeros (rule R124). -/
def Obligations.BvShlResult : Prop :=
  ∀ (vd : VReg) (s : State), (s.getV vd).val < 2 ^ (s.getV vd).len →
    encode (.bvShl vd) = BitVec.ofNat 32 (0x14 + 0x100 * vd.val) ∧
    ((s.getV vd).len + s.opa.toNat ≤ s.params.bvMaxBits →
      ∃ x, exec (.bvShl vd) s = .next { s with v := s.v.set vd.val x vd.isLt }.afterSuccess ∧
        x.len = (s.getV vd).len + s.opa.toNat ∧ x.val < 2 ^ x.len ∧
        (∀ i, i < s.opa.toNat → x.bit i = false) ∧
        ∀ i, i < (s.getV vd).len → x.bit (s.opa.toNat + i) = (s.getV vd).bit i) ∧
    (s.params.bvMaxBits < (s.getV vd).len + s.opa.toNat → exec (.bvShl vd) s = .next (s.afterError .ecapacity))

/-- BV.SHR drops the low OPA bits; every OPA is legal, and one at or above the length empties the register (rule R125). -/
def Obligations.BvShrResult : Prop :=
  ∀ (vd : VReg) (s : State), (s.getV vd).val < 2 ^ (s.getV vd).len →
    encode (.bvShr vd) = BitVec.ofNat 32 (0x15 + 0x100 * vd.val) ∧
    ∃ x, exec (.bvShr vd) s = .next { s with v := s.v.set vd.val x vd.isLt }.afterSuccess ∧
      x.len = (s.getV vd).len - s.opa.toNat ∧ x.val < 2 ^ x.len ∧
      ∀ i, i < x.len → x.bit i = (s.getV vd).bit (s.opa.toNat + i)

/-- BV.EXTRACT copies the 1-based inclusive range OPA to OPB, and fails on every other range (rules R108 and R126). -/
def Obligations.BvExtractResult : Prop :=
  ∀ (vd vs : VReg) (s : State), (s.getV vs).val < 2 ^ (s.getV vs).len →
    encode (.bvExtract vd vs) = BitVec.ofNat 32 (0x16 + 0x100 * vd.val + 0x400 * vs.val) ∧
    (1 ≤ s.opa.toNat → s.opa.toNat ≤ s.opb.toNat → s.opb.toNat ≤ (s.getV vs).len →
      ∃ x, exec (.bvExtract vd vs) s = .next { s with v := s.v.set vd.val x vd.isLt }.afterSuccess ∧
        x.len = s.opb.toNat - s.opa.toNat + 1 ∧ x.val < 2 ^ x.len ∧
        ∀ i, i < x.len → x.bit i = (s.getV vs).bit (s.opa.toNat - 1 + i)) ∧
    (s.opa.toNat = 0 ∨ s.opb.toNat < s.opa.toNat ∨ (s.getV vs).len < s.opb.toNat ∨ (s.getV vs).len < s.opa.toNat →
      exec (.bvExtract vd vs) s = .next (s.afterError .erange))

/-- BV.LEN (rule R128) and BV.READW (rule R129); a length is below 2^64 by rule R13. -/
def Obligations.BvLenAndReadwResults : Prop :=
  ∀ (vs : VReg) (s : State), (s.getV vs).val < 2 ^ (s.getV vs).len →
    encode (.bvLen vs) = BitVec.ofNat 32 (0x18 + 0x400 * vs.val) ∧
    ((s.getV vs).len < 2 ^ 64 →
      ∃ x, exec (.bvLen vs) s = .next { s with result := x }.afterSuccess ∧ x.toNat = (s.getV vs).len) ∧
    encode (.bvReadw vs) = BitVec.ofNat 32 (0x19 + 0x400 * vs.val) ∧
    (s.opa.toNat < ((s.getV vs).len + 63) / 64 →
      ∃ x, exec (.bvReadw vs) s = .next { s with result := x }.afterSuccess ∧
        ∀ i, i < 64 → x.getLsbD i = (decide (64 * s.opa.toNat + i < (s.getV vs).len) &&
          (s.getV vs).bit (64 * s.opa.toNat + i))) ∧
    (((s.getV vs).len + 63) / 64 ≤ s.opa.toNat → exec (.bvReadw vs) s = .next (s.afterError .erange))

/-! ### Laws of the bit-string functions -/

/-- Canonical form: every function of the datapath gives a string whose value is below 2^len (rule R110). -/
def Obligations.FunctionsKeepCanonicalForm : Prop :=
  ∀ (s t x : BitStr) (n first last : Nat) (bs : List Byte) (us : List Word),
    s.val < 2 ^ s.len → t.val < 2 ^ t.len →
    BitStr.empty.val < 2 ^ BitStr.empty.len ∧
    (BitStr.zeroes n).val < 2 ^ (BitStr.zeroes n).len ∧
    (BitStr.fromBytes bs).val < 2 ^ (BitStr.fromBytes bs).len ∧
    (BitStr.fromWords us n).val < 2 ^ (BitStr.fromWords us n).len ∧
    (s.changeLength n).val < 2 ^ (s.changeLength n).len ∧
    (s.append t).val < 2 ^ (s.append t).len ∧
    (s.leftShift n).val < 2 ^ (s.leftShift n).len ∧
    (s.rightShift n).val < 2 ^ (s.rightShift n).len ∧
    (s.extract first last = some x → x.val < 2 ^ x.len) ∧
    s.copy.val < 2 ^ s.copy.len

/-- Shift inverse, for every amount (rule R111). -/
def Obligations.ShiftInverse : Prop :=
  ∀ (s : BitStr) (n : Nat), s.val < 2 ^ s.len → (s.leftShift n).rightShift n = s

/-- Extract identity, its failure on the empty string, and append reconstruction (rules R112 and R113). -/
def Obligations.ExtractSplitsAndRejoins : Prop :=
  ∀ s : BitStr, s.val < 2 ^ s.len →
    (1 ≤ s.len → s.extract 1 s.len = some s.copy) ∧
    (∀ first last, BitStr.empty.extract first last = none) ∧
    ∀ k, 1 ≤ k → k + 1 ≤ s.len →
      ∃ x y, s.extract 1 k = some x ∧ s.extract (k + 1) s.len = some y ∧ x.append y = s

/-! ### The permutation engine -/

/-- θ bit by bit: bit z of lane (x,y) is XORed with the parity of column x - 1 at z and of column x + 1 at z - 1
(rules R144 and R145). -/
def Obligations.ThetaBits : Prop :=
  ∀ (w : Nat) (a : Grid) (x y z : Nat), 1 ≤ w → w ≤ 64 →
    (∀ i j, i < 5 → j < 5 → (a.lane i j).toNat < 2 ^ w) → x < 5 → y < 5 → z < w →
    ((theta w a).lane x y).getLsbD z =
      ((a.lane x y).getLsbD z ^^
        ([0, 1, 2, 3, 4].foldl (fun b j => b ^^ (a.lane ((x + 4) % 5) j).getLsbD z) false ^^
          [0, 1, 2, 3, 4].foldl (fun b j => b ^^ (a.lane ((x + 1) % 5) j).getLsbD ((z + w - 1) % w)) false))

/-- ρ then π, bit by bit: bit z of lane (x,y) is bit z - ROTTAB[X][x] mod w of lane (X,x) with X = x + 3y mod 5
(rules R144, R146 and R147). -/
def Obligations.RhoPiBits : Prop :=
  ∀ (l : Nat) (a : Grid) (x y z : Nat), l ≤ 6 →
    (∀ i j, i < 5 → j < 5 → (a.lane i j).toNat < 2 ^ 2 ^ l) → x < 5 → y < 5 → z < 2 ^ l →
    ((piStep (rho (2 ^ l) (offsets (2 ^ l)) a)).lane x y).getLsbD ((z + rotTab.getD (5 * x + (x + 3 * y) % 5) 0) % 2 ^ l) =
      (a.lane ((x + 3 * y) % 5) x).getLsbD z

/-- χ and ι bit by bit (rules R148, R150 and R151): χ's NOT stays within w bits, and ι flips only bits 2^j - 1 of lane
(0,0), as rc says. -/
def Obligations.ChiIotaBits : Prop :=
  ∀ (l : Nat) (ir : Int) (a : Grid) (x y z : Nat), l ≤ 6 → x < 5 → y < 5 →
    (∀ i j, i < 5 → j < 5 → (a.lane i j).toNat < 2 ^ 2 ^ l) →
    ((chi (2 ^ l) a).lane x y).getLsbD z =
      ((a.lane x y).getLsbD z ^^ (!(a.lane ((x + 1) % 5) y).getLsbD z && (a.lane ((x + 2) % 5) y).getLsbD z)) ∧
    ((iota l ir a).lane x y).getLsbD z =
      ((a.lane x y).getLsbD z ^^
        decide (x = 0 ∧ y = 0 ∧ ∃ j, j ≤ l ∧ z = 2 ^ j - 1 ∧ rc ((j : Int) + 7 * ir) = true))

/-- The 8-bit register of rule R149 starts at 0x01 and is shifted left, with 0x71 XORed in when the bit shifted out is 1;
rc(n) is its bit 0 after n steps. Reducing rc's argument mod 255 changes nothing, because the register has period 255, and
rc(t) = rc(t mod 255) for negative t too. The last part is RC(0) to RC(23) at w = 64 (rule R150). -/
def Obligations.RoundConstantBitsHavePeriod255 : Prop :=
  (∀ n : Nat, rc (n : Int) = (lfsr n).getLsbD 0) ∧ (∀ t : Int, rc t = rc (t % 255) ∧ rc t = rc (t + 255)) ∧
    rc 0 = true ∧ rc (-1) = false ∧
    lfsr 0 = 0x01#8 ∧
    (∀ n : Nat, lfsr (n + 1) =
      if (lfsr n).getLsbD 7 = true then (lfsr n <<< (1 : Nat)) ^^^ 0x71#8 else lfsr n <<< (1 : Nat)) ∧
    (List.range 24).map (fun k => roundConstant 6 (k : Int)) =
      [0x0000000000000001#64, 0x0000000000008082#64, 0x800000000000808A#64, 0x8000000080008000#64,
        0x000000000000808B#64, 0x0000000080000001#64, 0x8000000080008081#64, 0x8000000000008009#64] ++
      [0x000000000000008A#64, 0x0000000000000088#64, 0x0000000080008009#64, 0x000000008000000A#64,
        0x000000008000808B#64, 0x800000000000008B#64, 0x8000000000008089#64, 0x8000000000008003#64] ++
      [0x8000000000008002#64, 0x8000000000000080#64, 0x000000000000800A#64, 0x800000008000000A#64,
        0x8000000080008081#64, 0x8000000000008080#64, 0x0000000080000001#64, 0x8000000080008008#64]

/-- P.INIT (rule R170). -/
def Obligations.PInitResult : Prop :=
  ∀ s : State,
    encode .pInit = 0x00000020#32 ∧
    (s.sst ≠ .absorbing → s.opa.toNat ∈ [25, 50, 100, 200, 400, 800, 1600] → s.opb.toNat ≤ 255 →
      ∃ b nr w l off, exec .pInit s =
          .next { s with
            width := b, rounds := nr, w := w, l := l, off := off, lanes := Vector.replicate 25 0#64 }.afterSuccess ∧
        b.toNat = s.opa.toNat ∧ nr.toNat = s.opb.toNat ∧ 25 * w.toNat = s.opa.toNat ∧ 2 ^ l.toNat = w.toNat ∧
        ∀ i, i < 25 → (off.getD i 0#6).toNat = rotTab.getD i 0 % w.toNat) ∧
    (s.sst = .absorbing → exec .pInit s = .next (s.afterError .estate)) ∧
    (s.sst ≠ .absorbing → s.opa.toNat ∉ [25, 50, 100, 200, 400, 800, 1600] ∨ 255 < s.opb.toNat →
      exec .pInit s = .next (s.afterError .einval))

/-- P.PERMUTE runs the rounds 12 + 2L - ROUNDS to 12 + 2L - 1 in increasing order, and no round when ROUNDS = 0
(rules R152 to R155 and R171); in ABSORBING it raises ESTATE (rule R176). -/
def Obligations.PPermuteResult : Prop :=
  ∀ s : State,
    encode .pPermute = 0x00000021#32 ∧
    (s.sst ≠ .absorbing → exec .pPermute s =
      .next { s with lanes := (List.range s.rounds.toNat).foldl (fun (a : Grid) (k : Nat) =>
          iota s.l.toNat (12 + 2 * (s.l.toNat : Int) - (s.rounds.toNat : Int) + (k : Int))
            (chi s.w.toNat (piStep (rho s.w.toNat s.off (theta s.w.toNat a))))) s.lanes }.afterSuccess) ∧
    (s.sst ≠ .absorbing → s.rounds = 0#8 → exec .pPermute s = .next s.afterSuccess) ∧
    (s.sst = .absorbing → exec .pPermute s = .next (s.afterError .estate))

/-- P.RDLANE (rule R172) and P.WRLANE (rule R173) by coordinates; in ABSORBING both raise ESTATE (rule R176). -/
def Obligations.LaneReadAndWriteResults : Prop :=
  ∀ (s : State) (x y : Nat), x < 5 → y < 5 →
    encode .pRdlane = 0x00000022#32 ∧ encode .pWrlane = 0x00000023#32 ∧
    (s.sst ≠ .absorbing → s.opa.toNat = 5 * y + x →
      (∃ u, exec .pRdlane s = .next { s with result := u }.afterSuccess ∧ u = s.lanes.getD (5 * y + x) 0#64) ∧
      (s.opb.toNat < 2 ^ s.w.toNat →
        ∃ a, exec .pWrlane s = .next { s with lanes := a }.afterSuccess ∧ a.lane x y = s.opb ∧
          ∀ x' y', x' < 5 → y' < 5 → (x' ≠ x ∨ y' ≠ y) → a.lane x' y' = s.lanes.lane x' y')) ∧
    (s.sst ≠ .absorbing → 24 < s.opa.toNat → exec .pRdlane s = .next (s.afterError .erange)) ∧
    (s.sst ≠ .absorbing → 2 ^ s.w.toNat ≤ s.opb.toNat → exec .pWrlane s = .next (s.afterError .einval)) ∧
    (s.sst ≠ .absorbing → s.opb.toNat < 2 ^ s.w.toNat → 24 < s.opa.toNat →
      exec .pWrlane s = .next (s.afterError .erange)) ∧
    (s.sst = .absorbing →
      exec .pRdlane s = .next (s.afterError .estate) ∧ exec .pWrlane s = .next (s.afterError .estate))

/-- P.XORIN: bit z of lane (x,y) is XORed with bit w(5y+x) + z of the string (rules R161 and R174). -/
def Obligations.PXorinResult : Prop :=
  ∀ (vs : VReg) (s : State), ConfigConsistent s → LanesWithinWidth s → (s.getV vs).val < 2 ^ (s.getV vs).len →
    encode (.pXorin vs) = BitVec.ofNat 32 (0x24 + 0x400 * vs.val) ∧
    (s.sst ≠ .absorbing → (s.getV vs).len ≤ s.width.toNat →
      ∃ a, exec (.pXorin vs) s = .next { s with lanes := a }.afterSuccess ∧
        ∀ x y z, x < 5 → y < 5 →
          (a.lane x y).getLsbD z = ((s.lanes.lane x y).getLsbD z ^^
            (decide (z < s.w.toNat) && (s.getV vs).bit (s.w.toNat * (5 * y + x) + z)))) ∧
    (s.sst ≠ .absorbing → s.width.toNat < (s.getV vs).len → exec (.pXorin vs) s = .next (s.afterError .erange)) ∧
    (s.sst = .absorbing → exec (.pXorin vs) s = .next (s.afterError .estate))

/-- XORing the same string twice restores the lanes (rule R174). -/
def Obligations.XorinTwiceRestores : Prop :=
  ∀ (vs : VReg) (s t u : State), exec (.pXorin vs) s = .next t → exec (.pXorin vs) t = .next u →
    u.lanes = s.lanes

/-- P.EXTRACT gives the first OPA bits of the state string, whose bit i is bit (i mod w) of lane i div w
(rules R160, R162 and R175). -/
def Obligations.PExtractResult : Prop :=
  ∀ (vd : VReg) (s : State), ConfigConsistent s →
    encode (.pExtract vd) = BitVec.ofNat 32 (0x25 + 0x100 * vd.val) ∧
    (s.sst ≠ .absorbing → s.opa.toNat ≤ s.width.toNat →
      ∃ x, exec (.pExtract vd) s = .next { s with v := s.v.set vd.val x vd.isLt }.afterSuccess ∧
        x.len = s.opa.toNat ∧ x.val < 2 ^ x.len ∧
        ∀ i, i < s.opa.toNat →
          x.bit i = (s.lanes.lane (i / s.w.toNat % 5) (i / s.w.toNat / 5)).getLsbD (i % s.w.toNat)) ∧
    (s.sst ≠ .absorbing → s.width.toNat < s.opa.toNat → exec (.pExtract vd) s = .next (s.afterError .erange)) ∧
    (s.sst = .absorbing → exec (.pExtract vd) s = .next (s.afterError .estate))

/-! ### The sponge -/

/-- The padding (rules R202 to R204): j is the least number with (m + j + 2) mod r = 0, it is below r, and the padding
is 1, j zeros, 1. -/
def Obligations.PaddingIsPad101 : Prop :=
  ∀ (m r : Nat), 1 ≤ r →
    ∃ j, (padding m r).len = j + 2 ∧ j < r ∧ (m + j + 2) % r = 0 ∧ (∀ k, (m + k + 2) % r = 0 → j ≤ k) ∧
      ∀ i, (padding m r).bit i = decide (i = 0 ∨ i = j + 1)

/-- Padding loses nothing: two messages with the same padded message at one rate are equal (rules R203 and R205). -/
def Obligations.PaddedMessagesAreDistinct : Prop :=
  ∀ (m m' : BitStr) (r : Nat), 1 ≤ r → m.val < 2 ^ m.len → m'.val < 2 ^ m'.len →
    paddedMessage m r = paddedMessage m' r → m = m'

/-- S.INIT (rule R210). -/
def Obligations.SInitResult : Prop :=
  ∀ s : State,
    encode .sInit = 0x00000030#32 ∧
    (1 ≤ s.opa.toNat → s.opa.toNat ≤ 1599 →
      ∃ r, exec .sInit s =
          .next { s with
            width := 1600#11, rounds := 24#8, w := 64#7, l := 6#3
            off := #v[0#6, 1#6, 62#6, 28#6, 27#6, 36#6, 44#6, 6#6, 55#6, 20#6, 3#6, 10#6, 43#6, 25#6, 39#6,
              41#6, 45#6, 15#6, 21#6, 8#6, 18#6, 2#6, 61#6, 56#6, 14#6]
            lanes := Vector.replicate 25 0#64, rate := r, mb := ⟨0, 0⟩, sst := .absorbing }.afterSuccess ∧
        r.toNat + s.opa.toNat = 1600) ∧
    (s.opa.toNat = 0 ∨ 1600 ≤ s.opa.toNat → exec .sInit s = .next (s.afterError .einval))

/-- S.ABSORB appends a register to the message buffer (rule R211). -/
def Obligations.SAbsorbResult : Prop :=
  ∀ (vs : VReg) (s : State), s.mb.val < 2 ^ s.mb.len → (s.getV vs).val < 2 ^ (s.getV vs).len →
    encode (.sAbsorb vs) = BitVec.ofNat 32 (0x31 + 0x400 * vs.val) ∧
    (s.sst = .absorbing → s.mb.len + (s.getV vs).len ≤ s.params.mbMaxBits →
      ∃ x, exec (.sAbsorb vs) s = .next { s with mb := x }.afterSuccess ∧
        x.len = s.mb.len + (s.getV vs).len ∧ x.val < 2 ^ x.len ∧
        (∀ i, i < s.mb.len → x.bit i = s.mb.bit i) ∧
        ∀ i, i < (s.getV vs).len → x.bit (s.mb.len + i) = (s.getV vs).bit i) ∧
    (s.sst ≠ .absorbing → exec (.sAbsorb vs) s = .next (s.afterError .estate)) ∧
    (s.sst = .absorbing → s.params.mbMaxBits < s.mb.len + (s.getV vs).len →
      exec (.sAbsorb vs) s = .next (s.afterError .ecapacity))

/-- "absorbing s then t equals absorbing append(s, t)" (rule R211). -/
def Obligations.AbsorbsConcatenate : Prop :=
  ∀ (r1 r2 r3 : VReg) (s : State), s.sst = .absorbing → s.getV r3 = (s.getV r1).append (s.getV r2) →
    s.mb.len + (s.getV r1).len + (s.getV r2).len ≤ s.params.mbMaxBits →
    ∃ t u u', exec (.sAbsorb r1) s = .next t ∧ exec (.sAbsorb r2) t = .next u ∧ exec (.sAbsorb r3) s = .next u' ∧
      u.lastErr = .ok ∧ { u with pc := u'.pc } = u'

/-- S.FINAL is the sponge, bit by bit (rules R202 to R208 and R212). With r = RATE, M = MB of m bits and d = OPA:
the padded message of n·r bits is M, a 1, zeros, and a 1 as its last bit; block i is XORed into the first r bits of the
lanes before each permutation; and bit i of the digest is bit i mod r of the lanes after i div r more permutations. -/
def Obligations.SFinalIsTheSponge : Prop :=
  ∀ (vd : VReg) (s : State), s.sst = .absorbing → s.lanes = Vector.replicate 25 0#64 → 1 ≤ s.rate.toNat →
    s.rate.toNat < 1600 → s.mb.val < 2 ^ s.mb.len →
    encode (.sFinal vd) = BitVec.ofNat 32 (0x32 + 0x100 * vd.val) ∧
    (s.params.bvMaxBits < s.opa.toNat → exec (.sFinal vd) s = .next (s.afterError .ecapacity)) ∧
    (s.opa.toNat ≤ s.params.bvMaxBits →
      ∃ (x : BitStr) (n : Nat) (a b : Nat → Grid),
        exec (.sFinal vd) s =
          .next { s with
            v := s.v.set vd.val x vd.isLt, lanes := (permute 64 6 24 (offsets 64))^[(s.opa.toNat - 1) / s.rate.toNat] (a n)
            mb := ⟨0, 0⟩, sst := .used }.afterSuccess ∧
        x = sponge s.mb (1600 - s.rate.toNat) s.opa.toNat ∧
        s.mb.len + 2 ≤ n * s.rate.toNat ∧ n * s.rate.toNat < s.mb.len + 2 + s.rate.toNat ∧
        a 0 = Vector.replicate 25 0#64 ∧
        (∀ i, i < n → a (i + 1) = permute 64 6 24 (offsets 64) (b i)) ∧
        (∀ i q z, i < n → q < 25 → z < 64 →
          ((b i).getD q 0#64).getLsbD z = (((a i).getD q 0#64).getLsbD z ^^
            (decide (64 * q + z < s.rate.toNat) &&
              (s.mb.bit (i * s.rate.toNat + (64 * q + z)) ||
                decide (i * s.rate.toNat + (64 * q + z) = s.mb.len) ||
                decide (i * s.rate.toNat + (64 * q + z) + 1 = n * s.rate.toNat))))) ∧
        x.len = s.opa.toNat ∧ x.val < 2 ^ x.len ∧
        ∀ i, i < s.opa.toNat →
          x.bit i = ((((permute 64 6 24 (offsets 64))^[i / s.rate.toNat] (a n)).getD (i % s.rate.toNat / 64) 0#64).getLsbD
            (i % s.rate.toNat % 64)))

/-- S.FINAL outside ABSORBING raises ESTATE (rules R212 and R265); a shorter digest of a message is the beginning of a
longer one (rule R207). -/
def Obligations.ShorterDigestsAreBeginnings : Prop :=
  (∀ (vd : VReg) (s : State), s.sst ≠ .absorbing → exec (.sFinal vd) s = .next (s.afterError .estate)) ∧
  ∀ (m : BitStr) (c d d' : Nat), 1 ≤ c → c ≤ 1599 → d ≤ d' →
    sponge m c d = (sponge m c d').changeLength d
end

