-- ==== Sys2Proof/Laws/BitString.lean ====
section
/-! SUPPORT. The bit-string functions, each said once: its length, its bits and that its value stays below 2^len. -/

namespace Sys2Proof.Machine

theorem BitStr.canonical_iff (s : BitStr) : s.canonical = true ↔ s.val < 2 ^ s.len := by
  simp [BitStr.canonical]

/-- A canonical string has no bit at or above its length (rule R26). -/
theorem BitStr.bit_of_len_le {s : BitStr} (h : s.val < 2 ^ s.len) {i : Nat} (hi : s.len ≤ i) : s.bit i = false :=
  Nat.testBit_lt_two_pow (lt_of_lt_of_le h (Nat.pow_le_pow_right (by omega) hi))

/-- Two canonical strings of one length are equal when their bits are. -/
theorem BitStr.ext_bits {s t : BitStr} (hs : s.val < 2 ^ s.len) (ht : t.val < 2 ^ t.len) (hl : s.len = t.len)
    (hb : ∀ i, i < s.len → s.bit i = t.bit i) : s = t := by
  have hv : s.val = t.val := by
    apply Nat.eq_of_testBit_eq
    intro i
    by_cases hi : i < s.len
    · exact hb i hi
    · exact (BitStr.bit_of_len_le hs (by omega)).trans (BitStr.bit_of_len_le ht (by omega)).symm
  cases s; cases t; simp_all

@[simp] theorem BitStr.empty_len : BitStr.empty.len = 0 := rfl
@[simp] theorem BitStr.empty_val : BitStr.empty.val = 0 := rfl
@[simp] theorem BitStr.zeroes_len (n : Nat) : (BitStr.zeroes n).len = n := rfl
@[simp] theorem BitStr.zeroes_val (n : Nat) : (BitStr.zeroes n).val = 0 := rfl
@[simp] theorem BitStr.raw_len (u : Word) (n : Nat) : (BitStr.raw u n).len = n := rfl
@[simp] theorem BitStr.raw_val (u : Word) (n : Nat) : (BitStr.raw u n).val = u.toNat % 2 ^ n := by
  simp [BitStr.raw, BitStr.fromWords, wordsVal]
@[simp] theorem BitStr.changeLength_len (s : BitStr) (n : Nat) : (s.changeLength n).len = n := rfl
@[simp] theorem BitStr.append_len (s t : BitStr) : (s.append t).len = s.len + t.len := rfl
@[simp] theorem BitStr.leftShift_len (s : BitStr) (n : Nat) : (s.leftShift n).len = s.len + n := rfl
@[simp] theorem BitStr.rightShift_len (s : BitStr) (n : Nat) : (s.rightShift n).len = s.len - n := by
  unfold BitStr.rightShift
  split
  · simp; omega
  · rfl
@[simp] theorem BitStr.copy_eq (s : BitStr) : s.copy = s := rfl

/-- Rules R26 and R110 for `raw`. -/
theorem BitStr.raw_lt (u : Word) (n : Nat) : (BitStr.raw u n).val < 2 ^ (BitStr.raw u n).len := by
  simpa using Nat.mod_lt _ (Nat.two_pow_pos n)

/-- Rules R26 and R110 for `changeLength`. -/
theorem BitStr.changeLength_lt (s : BitStr) (n : Nat) : (s.changeLength n).val < 2 ^ (s.changeLength n).len :=
  Nat.mod_lt _ (Nat.two_pow_pos n)

/-- Rules R26 and R110 for `append`. -/
theorem BitStr.append_lt {s t : BitStr} (hs : s.val < 2 ^ s.len) (ht : t.val < 2 ^ t.len) :
    (s.append t).val < 2 ^ (s.append t).len := by
  change s.val + t.val * 2 ^ s.len < 2 ^ (s.len + t.len)
  have : (t.val + 1) * 2 ^ s.len ≤ 2 ^ t.len * 2 ^ s.len := Nat.mul_le_mul_right _ ht
  rw [Nat.pow_add, Nat.mul_comm (2 ^ s.len)]
  rw [Nat.add_mul] at this
  omega

/-- Rules R26 and R110 for `leftShift`. -/
theorem BitStr.leftShift_lt {s : BitStr} (hs : s.val < 2 ^ s.len) (n : Nat) :
    (s.leftShift n).val < 2 ^ (s.leftShift n).len := by
  change s.val * 2 ^ n < 2 ^ (s.len + n)
  rw [Nat.pow_add]
  exact Nat.mul_lt_mul_of_pos_right hs (Nat.two_pow_pos n)

/-- Rules R26 and R110 for `rightShift`. -/
theorem BitStr.rightShift_lt {s : BitStr} (hs : s.val < 2 ^ s.len) (n : Nat) :
    (s.rightShift n).val < 2 ^ (s.rightShift n).len := by
  unfold BitStr.rightShift
  split
  · simp
  · next h =>
    change s.val / 2 ^ n < 2 ^ (s.len - n)
    rw [Nat.div_lt_iff_lt_mul (Nat.two_pow_pos n), ← Nat.pow_add]
    rwa [Nat.sub_add_cancel (by omega)]

/-- A string `extract` gives is a slice of the right length, in canonical form (rules R108 and R110). -/
theorem BitStr.extract_eq_some {s x : BitStr} {first last : Nat} (h : s.extract first last = some x) :
    1 ≤ first ∧ first ≤ last ∧ last ≤ s.len ∧ x = (s.rightShift (first - 1)).changeLength (last - first + 1) := by
  unfold BitStr.extract at h
  split at h
  · simp at h
  · next hb =>
    simp [BitStr.badRange] at hb
    simp at h
    exact ⟨by omega, by omega, by omega, h.symm⟩

/-- `extract` succeeds on every legal range (rule R108). -/
theorem BitStr.extract_of_range {s : BitStr} {first last : Nat} (h1 : 1 ≤ first) (h2 : first ≤ last) (h3 : last ≤ s.len) :
    s.extract first last = some ((s.rightShift (first - 1)).changeLength (last - first + 1)) := by
  have : s.badRange first last = false := by
    simp [BitStr.badRange]; omega
  simp [BitStr.extract, this]

/-- `extract` fails on every other range (rule R108). -/
theorem BitStr.extract_eq_none {s : BitStr} {first last : Nat} (h : first = 0 ∨ last < first ∨ s.len < last) :
    s.extract first last = none := by
  have : s.badRange first last = true := by
    simp [BitStr.badRange]; omega
  simp [BitStr.extract, this]

/-- Bit `i` of `zeroes n` is 0. -/
@[simp] theorem BitStr.zeroes_bit (n i : Nat) : (BitStr.zeroes n).bit i = false := by simp [BitStr.bit]

/-- Bits of `raw` (rule R103). -/
theorem BitStr.raw_bit (u : Word) (n i : Nat) : (BitStr.raw u n).bit i = (decide (i < n) && u.getLsbD i) := by
  simp [BitStr.bit, Nat.testBit_mod_two_pow, BitVec.testBit_toNat]

/-- Bits of `changeLength` (rule R104). -/
theorem BitStr.changeLength_bit (s : BitStr) (n i : Nat) : (s.changeLength n).bit i = (decide (i < n) && s.bit i) := by
  simp [BitStr.bit, BitStr.changeLength, Nat.testBit_mod_two_pow]

/-- Bits of `append`: "self's bit `length-1` is immediately followed by other's bit 0" (rule R105). -/
theorem BitStr.append_bit {s : BitStr} (hs : s.val < 2 ^ s.len) (t : BitStr) (i : Nat) :
    (s.append t).bit i = if i < s.len then s.bit i else t.bit (i - s.len) := by
  have h : (s.append t).val = 2 ^ s.len * t.val + s.val := by
    change s.val + t.val * 2 ^ s.len = _
    rw [Nat.mul_comm, Nat.add_comm]
  unfold BitStr.bit
  rw [h, Nat.testBit_two_pow_mul_add t.val hs]

/-- Bits of `leftShift` (rule R106). -/
theorem BitStr.leftShift_bit (s : BitStr) (n i : Nat) :
    (s.leftShift n).bit i = (decide (n ≤ i) && s.bit (i - n)) := by
  simp [BitStr.bit, BitStr.leftShift, Nat.mul_comm s.val, Nat.testBit_two_pow_mul]

/-- Bits of `rightShift` (rule R107). -/
theorem BitStr.rightShift_bit {s : BitStr} (hs : s.val < 2 ^ s.len) (n i : Nat) :
    (s.rightShift n).bit i = s.bit (n + i) := by
  unfold BitStr.rightShift
  split
  · next h => rw [BitStr.bit_of_len_le hs (by omega)]; simp [BitStr.bit]
  · simp [BitStr.bit, Nat.testBit_div_two_pow, Nat.add_comm]

/-- Bits of a slice (rule R108). -/
theorem BitStr.slice_bit {s : BitStr} (hs : s.val < 2 ^ s.len) (first n i : Nat) :
    ((s.rightShift first).changeLength n).bit i = (decide (i < n) && s.bit (first + i)) := by
  rw [BitStr.changeLength_bit, BitStr.rightShift_bit hs]

/-- Bits of a backing word (rule R25). -/
theorem BitStr.word_bit (s : BitStr) (k i : Nat) : (s.word k).getLsbD i = (decide (i < 64) && s.bit (64 * k + i)) := by
  simp [BitStr.word, BitStr.bit, BitVec.getLsbD_ofNat, Nat.testBit_div_two_pow, Nat.add_comm]

/-- Appending is associative, so successive appends may be joined first (rules R105 and R211). -/
theorem BitStr.append_assoc (s t u : BitStr) : (s.append t).append u = s.append (t.append u) := by
  simp only [BitStr.append, BitStr.mk.injEq]
  refine ⟨by omega, ?_⟩
  rw [Nat.pow_add]; ring

end Sys2Proof.Machine
end

