-- ==== Sys2Proof/Laws/Decode.lean ====
section
/-! SUPPORT. The fields of a command word: what a format's mask says of them, and which opcodes are assigned. -/

namespace Sys2Proof

/-- The value of a command word is the sum of its fields (rule R81). -/
theorem cmdWord_eq_fields (w : CmdWord) :
    w.toNat = (w.extractLsb' 0 8).toNat + 2^8 * (w.extractLsb' 8 2).toNat + 2^10 * (w.extractLsb' 10 2).toNat
      + 2^12 * (w.extractLsb' 12 4).toNat + 2^16 * (w.extractLsb' 16 8).toNat + 2^24 * (w.extractLsb' 24 8).toNat := by
  simp [BitVec.extractLsb'_toNat, Nat.shiftRight_eq_div_pow]
  omega

/-- The value of an encoded word is the sum of its fields (rule R90). -/
theorem fieldsWord_toNat (o : BitVec 8) (vd vs : VReg) (n : Nat) (hn : n < 256) :
    (fieldsWord o vd vs n).toNat = o.toNat + 2^8 * vd.val + 2^10 * vs.val + 2^16 * n := by
  have h1 : o.toNat < 2^8 := o.isLt
  have h2 := vd.isLt
  have h3 := vs.isLt
  have e : (fieldsWord o vd vs n).toNat = ((o.toNat ||| (vd.val <<< 8)) ||| (vs.val <<< 10)) ||| (n <<< 16) := by
    simp only [fieldsWord, BitVec.toNat_or, BitVec.toNat_shiftLeft, BitVec.toNat_ofNat, BitVec.toNat_setWidth, Nat.shiftLeft_eq]
    congr 1
    · congr 1
      · congr 1
        · omega
        · omega
      · omega
    · omega
  rw [e]
  have a1 : o.toNat ||| (vd.val <<< 8) = 2^8 * vd.val + o.toNat := by
    rw [Nat.lor_comm, Nat.shiftLeft_eq, Nat.mul_comm, ← Nat.two_pow_add_eq_or_of_lt h1]
  have a2 : (2^8 * vd.val + o.toNat) ||| (vs.val <<< 10) = 2^10 * vs.val + (2^8 * vd.val + o.toNat) := by
    rw [Nat.lor_comm, Nat.shiftLeft_eq, Nat.mul_comm, ← Nat.two_pow_add_eq_or_of_lt (by omega)]
  have a3 : (2^10 * vs.val + (2^8 * vd.val + o.toNat)) ||| (n <<< 16) = 2^16 * n + (2^10 * vs.val + (2^8 * vd.val + o.toNat)) := by
    rw [Nat.lor_comm, Nat.shiftLeft_eq, Nat.mul_comm, ← Nat.two_pow_add_eq_or_of_lt (by omega)]
  rw [a1, a2, a3]; omega

/-- What a word that meets `(word AND mask) == match` has in each field (rules R82 and R87). -/
theorem fields_of_mask (w : CmdWord) (f : Format) (o : BitVec 8) (h : w &&& f.mask = o.setWidth 32) :
   w.extractLsb' 0 8 = o ∧ w.extractLsb' 12 4 = 0#4 ∧ w.extractLsb' 24 8 = 0#8 ∧
   (f ≠ .di → w.extractLsb' 16 8 = 0#8) ∧ ((f = .n ∨ f = .s) → w.extractLsb' 8 2 = 0#2) ∧
   ((f = .n ∨ f = .d ∨ f = .di) → w.extractLsb' 10 2 = 0#2) := by
  have k0 := congrArg (fun v : CmdWord => v.extractLsb' 0 8) h
  have k1 := congrArg (fun v : CmdWord => v.extractLsb' 12 4) h
  have k2 := congrArg (fun v : CmdWord => v.extractLsb' 24 8) h
  have k3 := congrArg (fun v : CmdWord => v.extractLsb' 16 8) h
  have k4 := congrArg (fun v : CmdWord => v.extractLsb' 8 2) h
  have k5 := congrArg (fun v : CmdWord => v.extractLsb' 10 2) h
  have z : ∀ n a, 8 ≤ a → (o.setWidth 32 : CmdWord).extractLsb' a n = 0#n := by
    intro n a ha
    apply BitVec.eq_of_getLsbD_eq
    intro i hi
    simp [BitVec.getLsbD_extractLsb', BitVec.getLsbD_setWidth]
    intro _ _
    exact BitVec.getLsbD_of_ge _ _ (by omega)
  have z0 : (o.setWidth 32 : CmdWord).extractLsb' 0 8 = o := by
    apply BitVec.eq_of_getLsbD_eq
    intro i hi
    simp [BitVec.getLsbD_setWidth, hi]; omega
  simp only [z _ _ (by omega : 8 ≤ 12), z _ _ (by omega : 8 ≤ 24), z _ _ (by omega : 8 ≤ 16), z _ _ (by omega : 8 ≤ 8), z _ _ (by omega : 8 ≤ 10), z0, BitVec.extractLsb'_and] at k0 k1 k2 k3 k4 k5
  have e : ∀ n (x : BitVec n), x &&& BitVec.allOnes n = x := by simp
  cases f <;> simp only [Format.mask] at k0 k1 k2 k3 k4 k5 <;> refine ⟨?_, ?_, ?_, ?_, ?_, ?_⟩ <;> (try simp)
  all_goals first
    | (rw [← e 8 (w.extractLsb' 0 8)]; exact k0)
    | (rw [← e 4 (w.extractLsb' 12 4)]; exact k1)
    | (rw [← e 8 (w.extractLsb' 24 8)]; exact k2)
    | (rw [← e 8 (w.extractLsb' 16 8)]; exact k3)
    | (rw [← e 2 (w.extractLsb' 8 2)]; exact k4)
    | (rw [← e 2 (w.extractLsb' 10 2)]; exact k5)

/-- A word with these fields meets `(word AND mask) == match` (rules R82 and R87). -/
theorem mask_of_fields (w : CmdWord) (f : Format) (o : BitVec 8) (h0 : w.extractLsb' 0 8 = o) (h1 : w.extractLsb' 12 4 = 0#4) (h2 : w.extractLsb' 24 8 = 0#8)
   (h3 : f ≠ .di → w.extractLsb' 16 8 = 0#8) (h4 : (f = .n ∨ f = .s) → w.extractLsb' 8 2 = 0#2)
   (h5 : (f = .n ∨ f = .d ∨ f = .di) → w.extractLsb' 10 2 = 0#2) : w &&& f.mask = o.setWidth 32 := by
  apply BitVec.eq_of_getLsbD_eq
  intro i hi
  have g : ∀ (a n : Nat), w.extractLsb' a n = 0#n → ∀ i, a ≤ i → i < a + n → w.getLsbD i = false := by
    intro a n h i ha hb
    have := congrArg (fun v : BitVec n => v.getLsbD (i - a)) h
    simpa [BitVec.getLsbD_extractLsb', show i - a < n by omega, show a + (i - a) = i by omega] using this
  have g0 : ∀ i, i < 8 → o.getLsbD i = w.getLsbD i := by
    intro i hi; rw [← h0]; simp [hi]
  have q1 := g _ _ h1
  have q2 := g _ _ h2
  have q3 := fun hf => g _ _ (h3 hf)
  have q4 := fun hf => g _ _ (h4 hf)
  have q5 := fun hf => g _ _ (h5 hf)
  have mk : ∀ i, i < 32 → (w &&& f.mask).getLsbD i = (w.getLsbD i && f.mask.getLsbD i) := fun i _ => by simp
  rw [mk i hi, BitVec.getLsbD_setWidth]
  by_cases h8 : i < 8
  · rw [g0 i h8]
    have : f.mask.getLsbD i = true := by
      cases f <;> simp only [Format.mask] <;> interval_cases i <;> rfl
    simp [this, hi]
  · rw [BitVec.getLsbD_of_ge o i (by omega)]
    simp only [Bool.and_false, Bool.and_eq_false_iff]
    cases f <;> simp only [reduceCtorEq, ne_eq, not_false_eq_true, forall_const, or_true, or_false, or_self, IsEmpty.forall_iff, not_true_eq_false] at q3 q4 q5 <;> simp only [Format.mask] <;> interval_cases i <;> first
      | (exact .inr rfl)
      | (left; first | exact q1 _ (by omega) (by omega) | exact q2 _ (by omega) (by omega) | exact q3 _ (by omega) (by omega) | exact q4 _ (by omega) (by omega) | exact q5 _ (by omega) (by omega))

/-- The opcodes no row has (rule R86). -/
theorem find_eq_none_iff (o : BitVec 8) : opcodeTable.find? (fun r => r.opc == o) = none ↔
   (o.toNat ≤ 0x0F ∨ (0x1A ≤ o.toNat ∧ o.toNat ≤ 0x1F) ∨ (0x26 ≤ o.toNat ∧ o.toNat ≤ 0x2F) ∨ 0x33 ≤ o.toNat) := by
  have key : ∀ n : Fin 256, (opcodeTable.find? (fun r => r.opc == BitVec.ofNat 8 n.val)).isNone = 
     decide (n.val ≤ 0x0F ∨ (0x1A ≤ n.val ∧ n.val ≤ 0x1F) ∨ (0x26 ≤ n.val ∧ n.val ≤ 0x2F) ∨ 0x33 ≤ n.val) := by decide +kernel
  have := key ⟨o.toNat, o.isLt⟩
  simp only [BitVec.ofNat_toNat, BitVec.setWidth_eq] at this
  rw [← Option.isNone_iff_eq_none, this, decide_eq_true_eq]

/-- A word that meets a row's mask and match encodes the command the row builds from its fields (rules R86 and R90). -/
theorem encode_build {r : OpRow} (h : r ∈ opcodeTable) (w : CmdWord) (hw : r.opc = opcField w) (hm : w &&& r.format.mask = r.matchValue) :
   encode (r.build (vdField w) (vsField w) (imm8Field w)) = w ∧ (r.build (vdField w) (vsField w) (imm8Field w)).wf = true := by
  obtain ⟨f0, f1, f2, f3, f4, f5⟩ := fields_of_mask w _ _ hm
  have himm : imm8Field w < 256 := (w.extractLsb' 16 8).isLt
  have hw' := cmdWord_eq_fields w
  rw [f1, f2] at hw'
  have v0 : w.extractLsb' 8 2 = 0#2 → vdField w = 0 := fun e => by apply Fin.ext; simp [vdField, e]
  have v1 : w.extractLsb' 10 2 = 0#2 → vsField w = 0 := fun e => by apply Fin.ext; simp [vsField, e]
  have i0 : w.extractLsb' 16 8 = 0#8 → imm8Field w = 0 := fun e => by simp [imm8Field, e]
  have full : fieldsWord r.opc (vdField w) (vsField w) (imm8Field w) = w := by
    apply BitVec.eq_of_toNat_eq
    rw [fieldsWord_toNat _ _ _ _ himm, hw', ← f0]
    simp [vdField, vsField, imm8Field]
  simp only [opcodeTable, bitVectorRows, engineRows, List.cons_append, List.nil_append, List.mem_cons, List.not_mem_nil, or_false] at h
  rcases h with rfl | rfl | rfl | rfl | rfl | rfl | rfl | rfl | rfl | rfl | rfl | rfl | rfl | rfl | rfl | rfl | rfl | rfl | rfl <;>
    simp only [reduceCtorEq, ne_eq, not_false_eq_true, forall_const, or_true, or_false, or_self, IsEmpty.forall_iff, not_true_eq_false] at f3 f4 f5 <;>
    simp only [encode, Instr.wf, himm, decide_true, and_true] <;>
    (try rw [v0 f4] at full) <;> (try rw [v1 f5] at full) <;> (try rw [i0 f3] at full) <;> exact full

end Sys2Proof
end

