-- ==== Sys2Proof/Laws/Keccak.lean ====
section
/-! SUPPORT. The permutation engine's functions: their lanes, and that each keeps every lane below 2^w (rule R156). -/

namespace Sys2Proof.Machine

/-- Every lane lies within `w` bits (rule R28). -/
def Grid.Within (w : Nat) (a : Grid) : Prop := ∀ x y, (a.lane x y).toNat < 2 ^ w

/-- The lanes of a grid built from a function (rule R18). -/
@[simp] theorem Grid.lane_build (f : Nat → Nat → Word) (x y : Nat) : (Grid.build f).lane x y = f (x % 5) (y % 5) := by
  have h1 : 5 * (y % 5) + x % 5 < 25 := by omega
  have h2 : (5 * (y % 5) + x % 5) % 5 = x % 5 := by omega
  have h3 : (5 * (y % 5) + x % 5) / 5 = y % 5 := by omega
  simp [Grid.build, Grid.lane, Vector.getD, h1, h2, h3]

/-- Coordinates are mod 5 (rule R18). -/
theorem Grid.lane_mod (a : Grid) (x y : Nat) : a.lane (x % 5) (y % 5) = a.lane x y := by
  simp [Grid.lane]

/-- A lane by flat index (rule R18). -/
theorem Grid.getD_eq_lane (a : Grid) (i : Nat) (hi : i < 25) : a.getD i 0#64 = a.lane (i % 5) (i / 5) := by
  have : 5 * (i / 5 % 5) + i % 5 % 5 = i := by omega
  rw [Grid.lane, this]

/-- A lane by coordinates is the lane at its flat index. -/
theorem Grid.lane_eq_getD (a : Grid) (x y : Nat) : a.lane x y = a.getD (5 * (y % 5) + x % 5) 0#64 := rfl

/-- Grids with equal lanes are equal. -/
theorem Grid.ext_lanes {a b : Grid} (h : ∀ x y, x < 5 → y < 5 → a.lane x y = b.lane x y) : a = b := by
  apply Vector.ext
  intro i hi
  have := h (i % 5) (i / 5) (by omega) (by omega)
  rw [← Grid.getD_eq_lane a i hi, ← Grid.getD_eq_lane b i hi] at this
  simpa [Vector.getD, hi] using this

@[simp] theorem Grid.lane_zero (x y : Nat) : Grid.zero.lane x y = 0#64 := by
  have : 5 * (y % 5) + x % 5 < 25 := by omega
  simp [Grid.zero, Grid.lane, Vector.getD, this]

theorem Grid.within_zero (w : Nat) : Grid.zero.Within w := by
  intro x y; simp

/-- `Within` by flat index. -/
theorem Grid.within_iff (w : Nat) (a : Grid) : a.Within w ↔ ∀ i, i < 25 → (a.getD i 0#64).toNat < 2 ^ w := by
  constructor
  · intro h i hi; rw [Grid.getD_eq_lane a i hi]; exact h _ _
  · intro h x y; exact h _ (by omega)

theorem Grid.within_build {w : Nat} {f : Nat → Nat → Word} (h : ∀ x y, (f x y).toNat < 2 ^ w) : (Grid.build f).Within w := by
  intro x y; simpa using h _ _

/-- XOR stays within w bits. -/
theorem xor_lt {w : Nat} {u v : Word} (hu : u.toNat < 2 ^ w) (hv : v.toNat < 2 ^ w) : (u ^^^ v).toNat < 2 ^ w := by
  rw [BitVec.toNat_xor]; exact Nat.xor_lt_two_pow hu hv

theorem laneMask_toNat {w : Nat} (hw : w ≤ 64) : (laneMask w).toNat = 2 ^ w - 1 := by
  have h1 : 2 ^ w ≤ 2 ^ 64 := Nat.pow_le_pow_right (by omega) hw
  have h2 : 0 < 2 ^ w := Nat.two_pow_pos w
  simp only [laneMask, BitVec.toNat_ofNat]
  exact Nat.mod_eq_of_lt (by omega)

/-- Bits of mask_w (rule R16). -/
theorem laneMask_bit {w : Nat} (hw : w ≤ 64) (z : Nat) : (laneMask w).getLsbD z = decide (z < w) := by
  rw [← BitVec.testBit_toNat, laneMask_toNat hw, Nat.testBit_two_pow_sub_one]

theorem and_laneMask_lt {w : Nat} (hw : w ≤ 64) (u : Word) : (u &&& laneMask w).toNat < 2 ^ w := by
  rw [BitVec.toNat_and, laneMask_toNat hw]
  have := @Nat.and_le_right u.toNat (2 ^ w - 1)
  have := Nat.two_pow_pos w
  omega

/-- Every rotation stays "within the w-bit lane" (rule R144). -/
theorem rotl_lt {w : Nat} (hw : w ≤ 64) {v : Word} (hv : v.toNat < 2 ^ w) (n : Nat) : (rotl w v n).toNat < 2 ^ w := by
  unfold rotl
  simp only
  split
  · exact hv
  · exact and_laneMask_lt hw _

theorem notLane_lt {w : Nat} (hw : w ≤ 64) (v : Word) : (notLane w v).toNat < 2 ^ w := and_laneMask_lt hw _

/-- A lane within w bits has no bit at or above w. -/
theorem getLsbD_of_lt {w : Nat} {v : Word} (hv : v.toNat < 2 ^ w) {z : Nat} (hz : w ≤ z) : v.getLsbD z = false := by
  rw [← BitVec.testBit_toNat]
  exact Nat.testBit_lt_two_pow (lt_of_lt_of_le hv (Nat.pow_le_pow_right (by omega) hz))

/-- Bit `z` of a rotation by `n` is bit `z - n` mod w of the lane (rule R144). -/
theorem rotl_bit {w : Nat} (hw : w ≤ 64) {v : Word} (hv : v.toNat < 2 ^ w) (n : Nat) {z : Nat} (hz : z < w) :
    (rotl w v n).getLsbD z = v.getLsbD ((z + (w - n % w)) % w) := by
  have hk : n % w < w := Nat.mod_lt _ (by omega)
  unfold rotl
  simp only
  split
  · next h => rw [h, Nat.sub_zero, Nat.add_mod_right, Nat.mod_eq_of_lt hz]
  · next h =>
    simp only [BitVec.getLsbD_and, BitVec.getLsbD_or, BitVec.getLsbD_shiftLeft, BitVec.getLsbD_ushiftRight,
      laneMask_bit hw]
    by_cases hzk : z < n % w
    · rw [Nat.mod_eq_of_lt (by omega : z + (w - n % w) < w)]
      simp [hzk, hz, Nat.add_comm]
    · have e : (z + (w - n % w)) % w = z - n % w := by
        rw [show z + (w - n % w) = (z - n % w) + w by omega, Nat.add_mod_right, Nat.mod_eq_of_lt (by omega)]
      have f : v.getLsbD (w - n % w + z) = false := getLsbD_of_lt hv (by omega)
      rw [e, f]
      simp [hzk, hz, show z < 64 by omega]

theorem columnParity_mod (a : Grid) (x : Nat) : columnParity a (x % 5) = columnParity a x := by
  simp [columnParity, Grid.lane]

/-- The lanes of θ (rule R145). -/
theorem lane_theta (w : Nat) (a : Grid) (x y : Nat) :
    (theta w a).lane x y =
      a.lane x y ^^^ (columnParity a (x + 4) ^^^ rotl w (columnParity a (x + 1)) 1) := by
  have h1 : (x % 5 + 4) % 5 = (x + 4) % 5 := by omega
  have h2 : (x % 5 + 1) % 5 = (x + 1) % 5 := by omega
  have h3 : x % 5 < 5 := Nat.mod_lt _ (by omega)
  have h4 : (x + 4) % 5 < 5 := Nat.mod_lt _ (by omega)
  have h5 : (x + 1) % 5 < 5 := Nat.mod_lt _ (by omega)
  simp [theta, Vector.getD, h1, h2, h3, h4, h5, columnParity_mod, Grid.lane_mod]

/-- The lanes of ρ (rule R146). -/
theorem lane_rho (w : Nat) (off : Offsets) (a : Grid) (x y : Nat) :
    (rho w off a).lane x y = rotl w (a.lane x y) (off.count x y) := by
  simp [rho, Grid.lane_mod, Offsets.count]

/-- The lanes of π (rule R147). -/
theorem lane_piStep (a : Grid) (x y : Nat) : (piStep a).lane x y = a.lane (x + 3 * y) x := by
  have : (x % 5 + 3 * (y % 5)) % 5 = (x + 3 * y) % 5 := by omega
  rw [piStep, Grid.lane_build, ← Grid.lane_mod a, this, Grid.lane_mod a, ← Grid.lane_mod a _ (x % 5), Nat.mod_mod,
    Grid.lane_mod]

/-- The lanes of χ (rule R148). -/
theorem lane_chi (w : Nat) (a : Grid) (x y : Nat) :
    (chi w a).lane x y = a.lane x y ^^^ (notLane w (a.lane (x + 1) y) &&& a.lane (x + 2) y) := by
  have h1 : (x % 5 + 1) % 5 = (x + 1) % 5 := by omega
  have h2 : (x % 5 + 2) % 5 = (x + 2) % 5 := by omega
  rw [chi, Grid.lane_build, Grid.lane_mod, ← Grid.lane_mod a (x % 5 + 1), h1, ← Grid.lane_mod a (x % 5 + 2), h2,
    Nat.mod_mod, Grid.lane_mod, Grid.lane_mod]

/-- The lanes of ι (rule R151). -/
theorem lane_iota (l : Nat) (ir : Int) (a : Grid) (x y : Nat) :
    (iota l ir a).lane x y = if x % 5 = 0 ∧ y % 5 = 0 then a.lane x y ^^^ roundConstant l ir else a.lane x y := by
  simp [iota, Grid.lane_mod]

theorem columnParity_lt {w : Nat} {a : Grid} (h : a.Within w) (x : Nat) : (columnParity a x).toNat < 2 ^ w := by
  unfold columnParity
  exact xor_lt (xor_lt (xor_lt (xor_lt (h _ _) (h _ _)) (h _ _)) (h _ _)) (h _ _)

theorem theta_within {w : Nat} (hw : w ≤ 64) {a : Grid} (h : a.Within w) : (theta w a).Within w := by
  intro x y
  rw [lane_theta]
  exact xor_lt (h _ _) (xor_lt (columnParity_lt h _) (rotl_lt hw (columnParity_lt h _) _))

theorem rho_within {w : Nat} (hw : w ≤ 64) (off : Offsets) {a : Grid} (h : a.Within w) : (rho w off a).Within w := by
  intro x y
  rw [lane_rho]
  exact rotl_lt hw (h _ _) _

theorem piStep_within {w : Nat} {a : Grid} (h : a.Within w) : (piStep a).Within w := by
  intro x y
  rw [lane_piStep]
  exact h _ _

theorem chi_within {w : Nat} (hw : w ≤ 64) {a : Grid} (h : a.Within w) : (chi w a).Within w := by
  intro x y
  rw [lane_chi, BitVec.toNat_xor, BitVec.toNat_and]
  exact Nat.xor_lt_two_pow (h _ _) (lt_of_le_of_lt Nat.and_le_left (notLane_lt hw _))

/-- The bits of RC lie below 2^(n-1) + 1 positions: bit 2^j - 1 for j < n only (rule R150). -/
theorem rcBits_lt (ir : Int) (n : Nat) : (rcBits ir (n + 1)).toNat < 2 ^ (2 ^ n) := by
  have key : ∀ m, (BitVec.ofNat 64 (2 ^ (2 ^ m - 1)) : Word).toNat < 2 ^ (2 ^ m) := by
    intro m
    have h0 : 0 < 2 ^ m := Nat.two_pow_pos m
    have h1 : 2 ^ (2 ^ m - 1) < 2 ^ (2 ^ m) := Nat.pow_lt_pow_right (by omega) (by omega)
    exact lt_of_le_of_lt (Nat.mod_le _ _) h1
  induction n with
  | zero =>
    have := key 0
    simp only [rcBits]
    split <;> simp at *
  | succ n ih =>
    have hm : (2 : Nat) ^ (2 ^ n) ≤ 2 ^ (2 ^ (n + 1)) :=
      Nat.pow_le_pow_right (by omega) (Nat.pow_le_pow_right (by omega) (by omega))
    rw [rcBits]
    split
    · rw [BitVec.toNat_or]
      exact Nat.or_lt_two_pow (lt_of_lt_of_le ih hm) (key (n + 1))
    · exact lt_of_lt_of_le ih hm

theorem roundConstant_lt (l : Nat) (ir : Int) : (roundConstant l ir).toNat < 2 ^ (2 ^ l) := rcBits_lt ir l

theorem iota_within {l : Nat} (ir : Int) {a : Grid} (h : a.Within (2 ^ l)) : (iota l ir a).Within (2 ^ l) := by
  intro x y
  rw [lane_iota]
  split
  · exact xor_lt (h _ _) (roundConstant_lt l ir)
  · exact h _ _

theorem keccakRound_within {l : Nat} (hl : l ≤ 6) (off : Offsets) (ir : Int) {a : Grid} (h : a.Within (2 ^ l)) :
    (keccakRound (2 ^ l) l off a ir).Within (2 ^ l) := by
  have hw : 2 ^ l ≤ 64 := Nat.pow_le_pow_right (n := 2) (by omega) hl
  exact iota_within ir (chi_within hw (piStep_within (rho_within hw off (theta_within hw h))))

theorem keccakRounds_within {l : Nat} (hl : l ≤ 6) (off : Offsets) (n : Nat) (ir : Int) {a : Grid} (h : a.Within (2 ^ l)) :
    (keccakRounds (2 ^ l) l off n ir a).Within (2 ^ l) := by
  induction n generalizing ir a with
  | zero => exact h
  | succ n ih => exact ih (ir + 1) (keccakRound_within hl off ir h)

/-- The permutation keeps every lane within w bits (rule R156). -/
theorem permute_within {l : Nat} (hl : l ≤ 6) (nr : Nat) (off : Offsets) {a : Grid} (h : a.Within (2 ^ l)) :
    (permute (2 ^ l) l nr off a).Within (2 ^ l) := keccakRounds_within hl off nr _ h

theorem laneSlice_lt (w v i : Nat) : (laneSlice w v i).toNat < 2 ^ w :=
  lt_of_le_of_lt (Nat.mod_le _ _) (Nat.mod_lt _ (Nat.two_pow_pos w))

/-- Bits of a slice (rule R161). -/
theorem laneSlice_bit {w : Nat} (hw : w ≤ 64) (v i z : Nat) :
    (laneSlice w v i).getLsbD z = (decide (z < w) && v.testBit (w * i + z)) := by
  rw [laneSlice, BitVec.getLsbD_ofNat, Nat.testBit_mod_two_pow, Nat.testBit_div_two_pow, Nat.add_comm z]
  by_cases hz : z < w
  · simp [show z < 64 by omega]
  · simp [hz]

/-- The lanes of XOR-in (rule R161). -/
theorem lane_xorIn (w : Nat) (a : Grid) (s : BitStr) (x y : Nat) :
    (xorIn w a s).lane x y = a.lane x y ^^^ laneSlice w (s.val % 2 ^ (25 * w)) (5 * (y % 5) + x % 5) := by
  simp [xorIn, Grid.lane_mod, BitStr.changeLength]

theorem xorIn_within {w : Nat} {a : Grid} (h : a.Within w) (s : BitStr) : (xorIn w a s).Within w := by
  intro x y
  rw [lane_xorIn]
  exact xor_lt (h _ _) (laneSlice_lt _ _ _)

/-- The packed value of a list of lanes fits its bits (rule R160). -/
theorem packLanes_lt (w : Nat) (vs : List Word) : packLanes w vs < 2 ^ (w * vs.length) := by
  induction vs with
  | nil => simp [packLanes]
  | cons v vs ih =>
    have h1 : v.toNat % 2 ^ w < 2 ^ w := Nat.mod_lt _ (Nat.two_pow_pos w)
    have h2 : 2 ^ w * (packLanes w vs + 1) ≤ 2 ^ w * 2 ^ (w * vs.length) := Nat.mul_le_mul_left _ ih
    simp only [packLanes, List.length_cons]
    rw [Nat.mul_add, Nat.mul_one, Nat.pow_add, Nat.mul_comm (2 ^ (w * vs.length))]
    rw [Nat.mul_add, Nat.mul_one] at h2
    omega

/-- Bit `w * i + z` of a packed list is bit `z` of its entry `i` (rule R160). -/
theorem packLanes_bit {w : Nat} (vs : List Word) (i z : Nat) (hz : z < w) :
    (packLanes w vs).testBit (w * i + z) = (vs.getD i 0#64).getLsbD z := by
  induction vs generalizing i with
  | nil => simp [packLanes]
  | cons v vs ih =>
    have h1 : v.toNat % 2 ^ w < 2 ^ w := Nat.mod_lt _ (Nat.two_pow_pos w)
    rw [packLanes, Nat.add_comm (v.toNat % 2 ^ w), Nat.testBit_two_pow_mul_add _ h1]
    cases i with
    | zero => simp [hz, Nat.testBit_mod_two_pow, BitVec.testBit_toNat]
    | succ i =>
      have e : w * (i + 1) + z - w = w * i + z := by rw [Nat.mul_add]; omega
      have n : ¬ w * (i + 1) + z < w := by rw [Nat.mul_add]; omega
      simp only [n, ite_false, e, ih i, List.getD_cons_succ]

theorem stateString_lt (w : Nat) (a : Grid) : (stateString w a).val < 2 ^ (stateString w a).len := by
  have := packLanes_lt w a.toList
  simpa [stateString, Nat.mul_comm] using this

/-- Bit `i` of S(A) is bit (i mod w) of lane A[(i div w) mod 5, (i div w) div 5] (rule R160). -/
theorem stateString_bit {w : Nat} (hw : 0 < w) (a : Grid) {i : Nat} (hi : i < 25 * w) :
    (stateString w a).bit i = (a.lane (i / w % 5) (i / w / 5)).getLsbD (i % w) := by
  have hd : i / w < 25 := (Nat.div_lt_iff_lt_mul hw).mpr hi
  have := packLanes_bit a.toList (i / w) (i % w) (Nat.mod_lt _ hw)
  rw [Nat.div_add_mod] at this
  rw [← Grid.getD_eq_lane a _ hd]
  simp only [stateString, BitStr.bit, this]
  simp [List.getD, Vector.getD, hd]

@[simp] theorem extractOut_len (w : Nat) (a : Grid) (n : Nat) : (extractOut w a n).len = n := rfl

theorem extractOut_lt (w : Nat) (a : Grid) (n : Nat) : (extractOut w a n).val < 2 ^ (extractOut w a n).len :=
  BitStr.changeLength_lt _ _

/-- Bits of the extraction datapath (rule R162). -/
theorem extractOut_bit {w : Nat} (hw : 0 < w) (a : Grid) (n : Nat) {i : Nat} (hi : i < 25 * w) :
    (extractOut w a n).bit i = (decide (i < n) && (a.lane (i / w % 5) (i / w / 5)).getLsbD (i % w)) := by
  rw [extractOut, BitStr.changeLength_bit, stateString_bit hw a hi]

/-- Bits of a column parity (rule R145). -/
theorem columnParity_bit (a : Grid) (x z : Nat) :
    (columnParity a x).getLsbD z = [0, 1, 2, 3, 4].foldl (fun b j => b ^^ (a.lane (x % 5) j).getLsbD z) false := by
  rw [← columnParity_mod]; simp [columnParity]

/-- OFF[x][y] is ROTTAB[x][y] mod w for each lane width (rule R143). -/
theorem offsets_count (l x y : Nat) (hl : l ≤ 6) :
    (offsets (2 ^ l)).count x y = rotTab.getD (5 * (y % 5) + x % 5) 0 % 2 ^ l := by
  have key : ∀ l : Fin 7, ∀ i : Fin 25,
      ((offsets (2 ^ l.val)).getD i.val 0#6).toNat = rotTab.getD i.val 0 % 2 ^ l.val := by decide +kernel
  exact key ⟨l, by omega⟩ ⟨5 * (y % 5) + x % 5, by omega⟩

/-- Bits of NOT_w (rule R148). -/
theorem notLane_bit {w : Nat} (hw : w ≤ 64) (v : Word) (z : Nat) :
    (notLane w v).getLsbD z = (decide (z < w) && !v.getLsbD z) := by
  rw [notLane, BitVec.getLsbD_and, laneMask_bit hw, BitVec.getLsbD_not]
  by_cases hz : z < w
  · simp [hz, show z < 64 by omega]
  · simp [hz]

/-- Bits of the first `n` terms of RC (rule R150). -/
theorem rcBits_bit (ir : Int) (z n : Nat) (hn : n ≤ 7) :
    (rcBits ir n).getLsbD z = decide (∃ j, j < n ∧ z = 2 ^ j - 1 ∧ rc ((j : Int) + 7 * ir) = true) := by
  induction n with
  | zero => simp [rcBits]
  | succ n ih =>
    have e : (∃ j, j < n + 1 ∧ z = 2 ^ j - 1 ∧ rc ((j : Int) + 7 * ir) = true) ↔
        (∃ j, j < n ∧ z = 2 ^ j - 1 ∧ rc ((j : Int) + 7 * ir) = true) ∨
          (z = 2 ^ n - 1 ∧ rc ((n : Int) + 7 * ir) = true) := by
      constructor
      · rintro ⟨j, h, a, b⟩
        rcases Nat.lt_or_eq_of_le (Nat.le_of_lt_succ h) with h | rfl
        · exact .inl ⟨j, h, a, b⟩
        · exact .inr ⟨a, b⟩
      · rintro (⟨j, h, a, b⟩ | ⟨a, b⟩)
        · exact ⟨j, by omega, a, b⟩
        · exact ⟨n, by omega, a, b⟩
    simp only [e]
    rw [rcBits]
    split
    · next h =>
      rw [BitVec.getLsbD_or, ih (by omega)]
      simp only [h, and_true, Bool.decide_or]
      congr 1
      have hle : 2 ^ n ≤ 64 := Nat.pow_le_pow_right (n := 2) (by omega) (by omega : n ≤ 6)
      have hp := Nat.two_pow_pos n
      rw [BitVec.getLsbD_ofNat, Nat.testBit_two_pow]
      by_cases hz : z = 2 ^ n - 1
      · simp [hz]; omega
      · simp [hz]; omega
    · next h => rw [ih (by omega)]; simp [h]

/-- The register of rule R149 returns after 255 steps. -/
theorem lfsr_add_period (n : Nat) : lfsr (n + 255) = lfsr n := by
  induction n with
  | zero => decide +kernel
  | succ n ih => rw [show n + 1 + 255 = (n + 255) + 1 by omega, lfsr, ih, lfsr]

/-- The rounds as one fold over the round indices in increasing order (rules R152 and R154). -/
theorem keccakRounds_eq_foldl (w l : Nat) (off : Offsets) (n : Nat) (ir : Int) (a : Grid) :
    keccakRounds w l off n ir a =
      (List.range n).foldl (fun (a : Grid) (k : Nat) => keccakRound w l off a (ir + (k : Int))) a := by
  induction n generalizing ir a with
  | zero => rfl
  | succ n ih =>
    rw [keccakRounds, ih, List.range_succ_eq_map, List.foldl_cons, List.foldl_map]
    simp [Int.add_left_comm, Int.add_comm]

end Sys2Proof.Machine
end

