-- ==== Sys2Proof/Laws/Sponge.lean ====
section
/-! SUPPORT. Padding arithmetic, and what absorbing and squeezing keep (rules R202 to R207). -/

namespace Sys2Proof.Machine

/-- 0 <= j < r (rule R204). -/
theorem padZeros_lt (m : Nat) {r : Nat} (hr : 0 < r) : padZeros m r < r := by
  have h0 := Int.emod_nonneg (-(m : Int) - 2) (by omega : (r : Int) ≠ 0)
  have h1 := Int.emod_lt_of_pos (-(m : Int) - 2) (by omega : (0 : Int) < (r : Int))
  unfold padZeros
  omega

/-- (m + j + 2) mod r = 0 (rule R204). -/
theorem padZeros_mod (m : Nat) {r : Nat} (hr : 0 < r) : (m + padZeros m r + 2) % r = 0 := by
  have h0 := Int.emod_nonneg (-(m : Int) - 2) (by omega : (r : Int) ≠ 0)
  have h2 := Int.emod_add_mul_ediv (-(m : Int) - 2) (r : Int)
  have hz : ((padZeros m r : Nat) : Int) = (-(m : Int) - 2) % (r : Int) := by
    unfold padZeros; omega
  have key : ((m + padZeros m r + 2 : Nat) : Int) = (r : Int) * (-((-(m : Int) - 2) / (r : Int))) := by
    push_cast
    rw [hz, Int.mul_neg]
    omega
  have : ((r : Nat) : Int) ∣ ((m + padZeros m r + 2 : Nat) : Int) := ⟨_, key⟩
  exact Nat.mod_eq_zero_of_dvd (Int.natCast_dvd_natCast.mp this)

@[simp] theorem padding_len (m r : Nat) : (padding m r).len = padZeros m r + 2 := rfl
@[simp] theorem padding_val (m r : Nat) : (padding m r).val = 1 + 2 ^ (padZeros m r + 1) := rfl

/-- The padding is in canonical form (rules R26 and R203). -/
theorem padding_lt (m r : Nat) : (padding m r).val < 2 ^ (padding m r).len := by
  simp only [padding_val, padding_len]
  have : 2 ^ (padZeros m r + 2) = 2 ^ (padZeros m r + 1) + 2 ^ (padZeros m r + 1) := by rw [Nat.pow_succ]; omega
  have : 1 < 2 ^ (padZeros m r + 1) := Nat.one_lt_two_pow (by omega)
  omega

@[simp] theorem paddedMessage_len (m : BitStr) (r : Nat) : (paddedMessage m r).len = m.len + (padZeros m.len r + 2) := rfl

theorem paddedMessage_lt {m : BitStr} (hm : m.val < 2 ^ m.len) (r : Nat) :
    (paddedMessage m r).val < 2 ^ (paddedMessage m r).len := BitStr.append_lt hm (padding_lt _ _)

/-- len(P) = n · r (rule R205). -/
theorem blockCount_mul (m : BitStr) {r : Nat} (hr : 0 < r) :
    blockCount (paddedMessage m r) r * r = (paddedMessage m r).len := by
  have := padZeros_mod m.len hr
  rw [blockCount, paddedMessage_len]
  exact Nat.div_mul_cancel (Nat.dvd_of_mod_eq_zero (by rw [← this]; congr 1))

/-- Block i is the slice of bits i·r to (i+1)·r - 1 (rule R205). -/
theorem messageBlock_eq {p : BitStr} {r i : Nat} (hr : 0 < r) (h : (i + 1) * r ≤ p.len) :
    messageBlock p r i = (p.rightShift (i * r)).changeLength r := by
  have e : (i + 1) * r = i * r + r := by ring
  rw [messageBlock, BitStr.extract_of_range (by omega) (by omega) h, Option.getD_some]
  congr 1
  omega

/-- The sponge's permutation keeps every lane within 64 bits. -/
theorem grid_within_64 (a : Grid) : a.Within 64 := fun _ _ => BitVec.isLt _

@[simp] theorem absorbBlocks_zero (p : BitStr) (r i : Nat) (a : Grid) : absorbBlocks p r 0 i a = a := rfl
theorem absorbBlocks_succ (p : BitStr) (r n i : Nat) (a : Grid) :
    absorbBlocks p r (n + 1) i a =
      absorbBlocks p r n (i + 1) (keccakF (xorIn 64 a ((messageBlock p r i).changeLength 1600))) := rfl

/-- A turn of the squeeze loop while bits are missing. -/
theorem squeezeLoop_more {r d fuel : Nat} {z : BitStr} (h : z.len < d) (a : Grid) :
    squeezeLoop r d (fuel + 1) z a = squeezeLoop r d fuel (z.append (extractOut 64 (keccakF a) r)) (keccakF a) := by
  simp [squeezeLoop, h]

/-- The squeeze loop ends once enough bits are collected. -/
theorem squeezeLoop_done {r d fuel : Nat} {z : BitStr} (h : d ≤ z.len) (a : Grid) : squeezeLoop r d fuel z a = (z, a) := by
  cases fuel with
  | zero => rfl
  | succ n => simp [squeezeLoop, show ¬ z.len < d by omega]

@[simp] theorem squeeze_len (a : Grid) (r d : Nat) : (squeeze a r d).1.len = d := rfl

/-- A squeezed string is in canonical form (rules R26 and R207). -/
theorem squeeze_lt (a : Grid) (r d : Nat) : (squeeze a r d).1.val < 2 ^ (squeeze a r d).1.len :=
  BitStr.changeLength_lt _ _

/-- Bits of the padding: the first and the last are 1 (rule R203). -/
theorem padding_bit (m r i : Nat) : (padding m r).bit i = decide (i = 0 ∨ i = padZeros m r + 1) := by
  have e : (padding m r).val = 2 ^ 1 * 2 ^ (padZeros m r) + 1 := by rw [padding_val, Nat.pow_succ]; omega
  unfold BitStr.bit
  rw [e, Nat.testBit_two_pow_mul_add _ (by decide : 1 < 2 ^ 1)]
  split
  · next h =>
    obtain rfl : i = 0 := by omega
    simp
  · next h => rw [Nat.testBit_two_pow, decide_eq_decide]; omega

/-- Bits of the padded message (rule R205). -/
theorem paddedMessage_bit {m : BitStr} (hm : m.val < 2 ^ m.len) (r i : Nat) :
    (paddedMessage m r).bit i =
      if i < m.len then m.bit i else decide (i - m.len = 0 ∨ i - m.len = padZeros m.len r + 1) := by
  rw [paddedMessage, BitStr.append_bit hm, padding_bit]

/-- The last turn of the absorb loop (rule R206). -/
theorem absorbBlocks_last (p : BitStr) (r n i : Nat) (a : Grid) :
    absorbBlocks p r (n + 1) i a =
      keccakF (xorIn 64 (absorbBlocks p r n i a) ((messageBlock p r (i + n)).changeLength 1600)) := by
  induction n generalizing i a with
  | zero => rfl
  | succ n ih => rw [absorbBlocks_succ, ih, absorbBlocks_succ, show i + 1 + n = i + (n + 1) by omega]

end Sys2Proof.Machine
end

