-- ==== Sys2Proof/Laws/State.lean ====
section
/-! SUPPORT. One lemma per field per update of the state, each true by rfl. -/

namespace Sys2Proof.Machine

variable (s : State)

@[simp] theorem setV_opa (d : VReg) (x : BitStr) : (s.setV d x).opa = s.opa := rfl
@[simp] theorem setV_opb (d : VReg) (x : BitStr) : (s.setV d x).opb = s.opb := rfl
@[simp] theorem setV_result (d : VReg) (x : BitStr) : (s.setV d x).result = s.result := rfl
@[simp] theorem setV_v (d : VReg) (x : BitStr) : (s.setV d x).v = s.v.set d.val x d.isLt := rfl
@[simp] theorem setV_lanes (d : VReg) (x : BitStr) : (s.setV d x).lanes = s.lanes := rfl
@[simp] theorem setV_width (d : VReg) (x : BitStr) : (s.setV d x).width = s.width := rfl
@[simp] theorem setV_rounds (d : VReg) (x : BitStr) : (s.setV d x).rounds = s.rounds := rfl
@[simp] theorem setV_w (d : VReg) (x : BitStr) : (s.setV d x).w = s.w := rfl
@[simp] theorem setV_l (d : VReg) (x : BitStr) : (s.setV d x).l = s.l := rfl
@[simp] theorem setV_off (d : VReg) (x : BitStr) : (s.setV d x).off = s.off := rfl
@[simp] theorem setV_mb (d : VReg) (x : BitStr) : (s.setV d x).mb = s.mb := rfl
@[simp] theorem setV_sst (d : VReg) (x : BitStr) : (s.setV d x).sst = s.sst := rfl
@[simp] theorem setV_rate (d : VReg) (x : BitStr) : (s.setV d x).rate = s.rate := rfl
@[simp] theorem setV_pc (d : VReg) (x : BitStr) : (s.setV d x).pc = s.pc := rfl
@[simp] theorem setV_busy (d : VReg) (x : BitStr) : (s.setV d x).busy = s.busy := rfl
@[simp] theorem setV_errSeen (d : VReg) (x : BitStr) : (s.setV d x).errSeen = s.errSeen := rfl
@[simp] theorem setV_lastErr (d : VReg) (x : BitStr) : (s.setV d x).lastErr = s.lastErr := rfl
@[simp] theorem setV_params (d : VReg) (x : BitStr) : (s.setV d x).params = s.params := rfl
@[simp] theorem setV_queue (d : VReg) (x : BitStr) : (s.setV d x).queue = s.queue := rfl
@[simp] theorem setV_hostReads (d : VReg) (x : BitStr) : (s.setV d x).hostReads = s.hostReads := rfl
@[simp] theorem setV_freeCount (d : VReg) (x : BitStr) : (s.setV d x).freeCount = s.freeCount := rfl

@[simp] theorem setLaneAt_opa (i : Nat) (u : Word) : (s.setLaneAt i u).opa = s.opa := rfl
@[simp] theorem setLaneAt_opb (i : Nat) (u : Word) : (s.setLaneAt i u).opb = s.opb := rfl
@[simp] theorem setLaneAt_result (i : Nat) (u : Word) : (s.setLaneAt i u).result = s.result := rfl
@[simp] theorem setLaneAt_v (i : Nat) (u : Word) : (s.setLaneAt i u).v = s.v := rfl
@[simp] theorem setLaneAt_lanes (i : Nat) (u : Word) : (s.setLaneAt i u).lanes = s.lanes.setIfInBounds i u := rfl
@[simp] theorem setLaneAt_width (i : Nat) (u : Word) : (s.setLaneAt i u).width = s.width := rfl
@[simp] theorem setLaneAt_rounds (i : Nat) (u : Word) : (s.setLaneAt i u).rounds = s.rounds := rfl
@[simp] theorem setLaneAt_w (i : Nat) (u : Word) : (s.setLaneAt i u).w = s.w := rfl
@[simp] theorem setLaneAt_l (i : Nat) (u : Word) : (s.setLaneAt i u).l = s.l := rfl
@[simp] theorem setLaneAt_off (i : Nat) (u : Word) : (s.setLaneAt i u).off = s.off := rfl
@[simp] theorem setLaneAt_mb (i : Nat) (u : Word) : (s.setLaneAt i u).mb = s.mb := rfl
@[simp] theorem setLaneAt_sst (i : Nat) (u : Word) : (s.setLaneAt i u).sst = s.sst := rfl
@[simp] theorem setLaneAt_rate (i : Nat) (u : Word) : (s.setLaneAt i u).rate = s.rate := rfl
@[simp] theorem setLaneAt_pc (i : Nat) (u : Word) : (s.setLaneAt i u).pc = s.pc := rfl
@[simp] theorem setLaneAt_busy (i : Nat) (u : Word) : (s.setLaneAt i u).busy = s.busy := rfl
@[simp] theorem setLaneAt_errSeen (i : Nat) (u : Word) : (s.setLaneAt i u).errSeen = s.errSeen := rfl
@[simp] theorem setLaneAt_lastErr (i : Nat) (u : Word) : (s.setLaneAt i u).lastErr = s.lastErr := rfl
@[simp] theorem setLaneAt_params (i : Nat) (u : Word) : (s.setLaneAt i u).params = s.params := rfl
@[simp] theorem setLaneAt_queue (i : Nat) (u : Word) : (s.setLaneAt i u).queue = s.queue := rfl
@[simp] theorem setLaneAt_hostReads (i : Nat) (u : Word) : (s.setLaneAt i u).hostReads = s.hostReads := rfl
@[simp] theorem setLaneAt_freeCount (i : Nat) (u : Word) : (s.setLaneAt i u).freeCount = s.freeCount := rfl

@[simp] theorem setResult_opa (u : Word) : (s.setResult u).opa = s.opa := rfl
@[simp] theorem setResult_opb (u : Word) : (s.setResult u).opb = s.opb := rfl
@[simp] theorem setResult_result (u : Word) : (s.setResult u).result = u := rfl
@[simp] theorem setResult_v (u : Word) : (s.setResult u).v = s.v := rfl
@[simp] theorem setResult_lanes (u : Word) : (s.setResult u).lanes = s.lanes := rfl
@[simp] theorem setResult_width (u : Word) : (s.setResult u).width = s.width := rfl
@[simp] theorem setResult_rounds (u : Word) : (s.setResult u).rounds = s.rounds := rfl
@[simp] theorem setResult_w (u : Word) : (s.setResult u).w = s.w := rfl
@[simp] theorem setResult_l (u : Word) : (s.setResult u).l = s.l := rfl
@[simp] theorem setResult_off (u : Word) : (s.setResult u).off = s.off := rfl
@[simp] theorem setResult_mb (u : Word) : (s.setResult u).mb = s.mb := rfl
@[simp] theorem setResult_sst (u : Word) : (s.setResult u).sst = s.sst := rfl
@[simp] theorem setResult_rate (u : Word) : (s.setResult u).rate = s.rate := rfl
@[simp] theorem setResult_pc (u : Word) : (s.setResult u).pc = s.pc := rfl
@[simp] theorem setResult_busy (u : Word) : (s.setResult u).busy = s.busy := rfl
@[simp] theorem setResult_errSeen (u : Word) : (s.setResult u).errSeen = s.errSeen := rfl
@[simp] theorem setResult_lastErr (u : Word) : (s.setResult u).lastErr = s.lastErr := rfl
@[simp] theorem setResult_params (u : Word) : (s.setResult u).params = s.params := rfl
@[simp] theorem setResult_queue (u : Word) : (s.setResult u).queue = s.queue := rfl
@[simp] theorem setResult_hostReads (u : Word) : (s.setResult u).hostReads = s.hostReads := rfl
@[simp] theorem setResult_freeCount (u : Word) : (s.setResult u).freeCount = s.freeCount := rfl

@[simp] theorem setLanes_opa (a : Grid) : (s.setLanes a).opa = s.opa := rfl
@[simp] theorem setLanes_opb (a : Grid) : (s.setLanes a).opb = s.opb := rfl
@[simp] theorem setLanes_result (a : Grid) : (s.setLanes a).result = s.result := rfl
@[simp] theorem setLanes_v (a : Grid) : (s.setLanes a).v = s.v := rfl
@[simp] theorem setLanes_lanes (a : Grid) : (s.setLanes a).lanes = a := rfl
@[simp] theorem setLanes_width (a : Grid) : (s.setLanes a).width = s.width := rfl
@[simp] theorem setLanes_rounds (a : Grid) : (s.setLanes a).rounds = s.rounds := rfl
@[simp] theorem setLanes_w (a : Grid) : (s.setLanes a).w = s.w := rfl
@[simp] theorem setLanes_l (a : Grid) : (s.setLanes a).l = s.l := rfl
@[simp] theorem setLanes_off (a : Grid) : (s.setLanes a).off = s.off := rfl
@[simp] theorem setLanes_mb (a : Grid) : (s.setLanes a).mb = s.mb := rfl
@[simp] theorem setLanes_sst (a : Grid) : (s.setLanes a).sst = s.sst := rfl
@[simp] theorem setLanes_rate (a : Grid) : (s.setLanes a).rate = s.rate := rfl
@[simp] theorem setLanes_pc (a : Grid) : (s.setLanes a).pc = s.pc := rfl
@[simp] theorem setLanes_busy (a : Grid) : (s.setLanes a).busy = s.busy := rfl
@[simp] theorem setLanes_errSeen (a : Grid) : (s.setLanes a).errSeen = s.errSeen := rfl
@[simp] theorem setLanes_lastErr (a : Grid) : (s.setLanes a).lastErr = s.lastErr := rfl
@[simp] theorem setLanes_params (a : Grid) : (s.setLanes a).params = s.params := rfl
@[simp] theorem setLanes_queue (a : Grid) : (s.setLanes a).queue = s.queue := rfl
@[simp] theorem setLanes_hostReads (a : Grid) : (s.setLanes a).hostReads = s.hostReads := rfl
@[simp] theorem setLanes_freeCount (a : Grid) : (s.setLanes a).freeCount = s.freeCount := rfl

@[simp] theorem configure_opa (b nr : Nat) : (s.configure b nr).opa = s.opa := rfl
@[simp] theorem configure_opb (b nr : Nat) : (s.configure b nr).opb = s.opb := rfl
@[simp] theorem configure_result (b nr : Nat) : (s.configure b nr).result = s.result := rfl
@[simp] theorem configure_v (b nr : Nat) : (s.configure b nr).v = s.v := rfl
@[simp] theorem configure_lanes (b nr : Nat) : (s.configure b nr).lanes = Grid.zero := rfl
@[simp] theorem configure_width (b nr : Nat) : (s.configure b nr).width = BitVec.ofNat 11 b := rfl
@[simp] theorem configure_rounds (b nr : Nat) : (s.configure b nr).rounds = BitVec.ofNat 8 nr := rfl
@[simp] theorem configure_w (b nr : Nat) : (s.configure b nr).w = BitVec.ofNat 7 (b / 25) := rfl
@[simp] theorem configure_l (b nr : Nat) : (s.configure b nr).l = BitVec.ofNat 3 (Nat.log2 (b / 25)) := rfl
@[simp] theorem configure_off (b nr : Nat) : (s.configure b nr).off = offsets (b / 25) := rfl
@[simp] theorem configure_mb (b nr : Nat) : (s.configure b nr).mb = s.mb := rfl
@[simp] theorem configure_sst (b nr : Nat) : (s.configure b nr).sst = s.sst := rfl
@[simp] theorem configure_rate (b nr : Nat) : (s.configure b nr).rate = s.rate := rfl
@[simp] theorem configure_pc (b nr : Nat) : (s.configure b nr).pc = s.pc := rfl
@[simp] theorem configure_busy (b nr : Nat) : (s.configure b nr).busy = s.busy := rfl
@[simp] theorem configure_errSeen (b nr : Nat) : (s.configure b nr).errSeen = s.errSeen := rfl
@[simp] theorem configure_lastErr (b nr : Nat) : (s.configure b nr).lastErr = s.lastErr := rfl
@[simp] theorem configure_params (b nr : Nat) : (s.configure b nr).params = s.params := rfl
@[simp] theorem configure_queue (b nr : Nat) : (s.configure b nr).queue = s.queue := rfl
@[simp] theorem configure_hostReads (b nr : Nat) : (s.configure b nr).hostReads = s.hostReads := rfl
@[simp] theorem configure_freeCount (b nr : Nat) : (s.configure b nr).freeCount = s.freeCount := rfl

@[simp] theorem setMb_opa (x : BitStr) : (s.setMb x).opa = s.opa := rfl
@[simp] theorem setMb_opb (x : BitStr) : (s.setMb x).opb = s.opb := rfl
@[simp] theorem setMb_result (x : BitStr) : (s.setMb x).result = s.result := rfl
@[simp] theorem setMb_v (x : BitStr) : (s.setMb x).v = s.v := rfl
@[simp] theorem setMb_lanes (x : BitStr) : (s.setMb x).lanes = s.lanes := rfl
@[simp] theorem setMb_width (x : BitStr) : (s.setMb x).width = s.width := rfl
@[simp] theorem setMb_rounds (x : BitStr) : (s.setMb x).rounds = s.rounds := rfl
@[simp] theorem setMb_w (x : BitStr) : (s.setMb x).w = s.w := rfl
@[simp] theorem setMb_l (x : BitStr) : (s.setMb x).l = s.l := rfl
@[simp] theorem setMb_off (x : BitStr) : (s.setMb x).off = s.off := rfl
@[simp] theorem setMb_mb (x : BitStr) : (s.setMb x).mb = x := rfl
@[simp] theorem setMb_sst (x : BitStr) : (s.setMb x).sst = s.sst := rfl
@[simp] theorem setMb_rate (x : BitStr) : (s.setMb x).rate = s.rate := rfl
@[simp] theorem setMb_pc (x : BitStr) : (s.setMb x).pc = s.pc := rfl
@[simp] theorem setMb_busy (x : BitStr) : (s.setMb x).busy = s.busy := rfl
@[simp] theorem setMb_errSeen (x : BitStr) : (s.setMb x).errSeen = s.errSeen := rfl
@[simp] theorem setMb_lastErr (x : BitStr) : (s.setMb x).lastErr = s.lastErr := rfl
@[simp] theorem setMb_params (x : BitStr) : (s.setMb x).params = s.params := rfl
@[simp] theorem setMb_queue (x : BitStr) : (s.setMb x).queue = s.queue := rfl
@[simp] theorem setMb_hostReads (x : BitStr) : (s.setMb x).hostReads = s.hostReads := rfl
@[simp] theorem setMb_freeCount (x : BitStr) : (s.setMb x).freeCount = s.freeCount := rfl

@[simp] theorem setSst_opa (x : SpongeState) : (s.setSst x).opa = s.opa := rfl
@[simp] theorem setSst_opb (x : SpongeState) : (s.setSst x).opb = s.opb := rfl
@[simp] theorem setSst_result (x : SpongeState) : (s.setSst x).result = s.result := rfl
@[simp] theorem setSst_v (x : SpongeState) : (s.setSst x).v = s.v := rfl
@[simp] theorem setSst_lanes (x : SpongeState) : (s.setSst x).lanes = s.lanes := rfl
@[simp] theorem setSst_width (x : SpongeState) : (s.setSst x).width = s.width := rfl
@[simp] theorem setSst_rounds (x : SpongeState) : (s.setSst x).rounds = s.rounds := rfl
@[simp] theorem setSst_w (x : SpongeState) : (s.setSst x).w = s.w := rfl
@[simp] theorem setSst_l (x : SpongeState) : (s.setSst x).l = s.l := rfl
@[simp] theorem setSst_off (x : SpongeState) : (s.setSst x).off = s.off := rfl
@[simp] theorem setSst_mb (x : SpongeState) : (s.setSst x).mb = s.mb := rfl
@[simp] theorem setSst_sst (x : SpongeState) : (s.setSst x).sst = x := rfl
@[simp] theorem setSst_rate (x : SpongeState) : (s.setSst x).rate = s.rate := rfl
@[simp] theorem setSst_pc (x : SpongeState) : (s.setSst x).pc = s.pc := rfl
@[simp] theorem setSst_busy (x : SpongeState) : (s.setSst x).busy = s.busy := rfl
@[simp] theorem setSst_errSeen (x : SpongeState) : (s.setSst x).errSeen = s.errSeen := rfl
@[simp] theorem setSst_lastErr (x : SpongeState) : (s.setSst x).lastErr = s.lastErr := rfl
@[simp] theorem setSst_params (x : SpongeState) : (s.setSst x).params = s.params := rfl
@[simp] theorem setSst_queue (x : SpongeState) : (s.setSst x).queue = s.queue := rfl
@[simp] theorem setSst_hostReads (x : SpongeState) : (s.setSst x).hostReads = s.hostReads := rfl
@[simp] theorem setSst_freeCount (x : SpongeState) : (s.setSst x).freeCount = s.freeCount := rfl

@[simp] theorem setRate_opa (r : Nat) : (s.setRate r).opa = s.opa := rfl
@[simp] theorem setRate_opb (r : Nat) : (s.setRate r).opb = s.opb := rfl
@[simp] theorem setRate_result (r : Nat) : (s.setRate r).result = s.result := rfl
@[simp] theorem setRate_v (r : Nat) : (s.setRate r).v = s.v := rfl
@[simp] theorem setRate_lanes (r : Nat) : (s.setRate r).lanes = s.lanes := rfl
@[simp] theorem setRate_width (r : Nat) : (s.setRate r).width = s.width := rfl
@[simp] theorem setRate_rounds (r : Nat) : (s.setRate r).rounds = s.rounds := rfl
@[simp] theorem setRate_w (r : Nat) : (s.setRate r).w = s.w := rfl
@[simp] theorem setRate_l (r : Nat) : (s.setRate r).l = s.l := rfl
@[simp] theorem setRate_off (r : Nat) : (s.setRate r).off = s.off := rfl
@[simp] theorem setRate_mb (r : Nat) : (s.setRate r).mb = s.mb := rfl
@[simp] theorem setRate_sst (r : Nat) : (s.setRate r).sst = s.sst := rfl
@[simp] theorem setRate_rate (r : Nat) : (s.setRate r).rate = BitVec.ofNat 11 r := rfl
@[simp] theorem setRate_pc (r : Nat) : (s.setRate r).pc = s.pc := rfl
@[simp] theorem setRate_busy (r : Nat) : (s.setRate r).busy = s.busy := rfl
@[simp] theorem setRate_errSeen (r : Nat) : (s.setRate r).errSeen = s.errSeen := rfl
@[simp] theorem setRate_lastErr (r : Nat) : (s.setRate r).lastErr = s.lastErr := rfl
@[simp] theorem setRate_params (r : Nat) : (s.setRate r).params = s.params := rfl
@[simp] theorem setRate_queue (r : Nat) : (s.setRate r).queue = s.queue := rfl
@[simp] theorem setRate_hostReads (r : Nat) : (s.setRate r).hostReads = s.hostReads := rfl
@[simp] theorem setRate_freeCount (r : Nat) : (s.setRate r).freeCount = s.freeCount := rfl

@[simp] theorem complete_opa (e : ErrorCode) : (s.complete e).opa = s.opa := rfl
@[simp] theorem complete_opb (e : ErrorCode) : (s.complete e).opb = s.opb := rfl
@[simp] theorem complete_result (e : ErrorCode) : (s.complete e).result = s.result := rfl
@[simp] theorem complete_v (e : ErrorCode) : (s.complete e).v = s.v := rfl
@[simp] theorem complete_lanes (e : ErrorCode) : (s.complete e).lanes = s.lanes := rfl
@[simp] theorem complete_width (e : ErrorCode) : (s.complete e).width = s.width := rfl
@[simp] theorem complete_rounds (e : ErrorCode) : (s.complete e).rounds = s.rounds := rfl
@[simp] theorem complete_w (e : ErrorCode) : (s.complete e).w = s.w := rfl
@[simp] theorem complete_l (e : ErrorCode) : (s.complete e).l = s.l := rfl
@[simp] theorem complete_off (e : ErrorCode) : (s.complete e).off = s.off := rfl
@[simp] theorem complete_mb (e : ErrorCode) : (s.complete e).mb = s.mb := rfl
@[simp] theorem complete_sst (e : ErrorCode) : (s.complete e).sst = s.sst := rfl
@[simp] theorem complete_rate (e : ErrorCode) : (s.complete e).rate = s.rate := rfl
@[simp] theorem complete_pc (e : ErrorCode) : (s.complete e).pc = s.pc + 1 := rfl
@[simp] theorem complete_busy (e : ErrorCode) : (s.complete e).busy = false := rfl
@[simp] theorem complete_errSeen (e : ErrorCode) : (s.complete e).errSeen = (s.errSeen || decide (e ≠ .ok)) := rfl
@[simp] theorem complete_lastErr (e : ErrorCode) : (s.complete e).lastErr = e := rfl
@[simp] theorem complete_params (e : ErrorCode) : (s.complete e).params = s.params := rfl
@[simp] theorem complete_queue (e : ErrorCode) : (s.complete e).queue = s.queue := rfl
@[simp] theorem complete_hostReads (e : ErrorCode) : (s.complete e).hostReads = s.hostReads := rfl
@[simp] theorem complete_freeCount (e : ErrorCode) : (s.complete e).freeCount = s.freeCount := rfl

@[simp] theorem pushRead_opa (u : Word) : (s.pushRead u).opa = s.opa := rfl
@[simp] theorem pushRead_opb (u : Word) : (s.pushRead u).opb = s.opb := rfl
@[simp] theorem pushRead_result (u : Word) : (s.pushRead u).result = s.result := rfl
@[simp] theorem pushRead_v (u : Word) : (s.pushRead u).v = s.v := rfl
@[simp] theorem pushRead_lanes (u : Word) : (s.pushRead u).lanes = s.lanes := rfl
@[simp] theorem pushRead_width (u : Word) : (s.pushRead u).width = s.width := rfl
@[simp] theorem pushRead_rounds (u : Word) : (s.pushRead u).rounds = s.rounds := rfl
@[simp] theorem pushRead_w (u : Word) : (s.pushRead u).w = s.w := rfl
@[simp] theorem pushRead_l (u : Word) : (s.pushRead u).l = s.l := rfl
@[simp] theorem pushRead_off (u : Word) : (s.pushRead u).off = s.off := rfl
@[simp] theorem pushRead_mb (u : Word) : (s.pushRead u).mb = s.mb := rfl
@[simp] theorem pushRead_sst (u : Word) : (s.pushRead u).sst = s.sst := rfl
@[simp] theorem pushRead_rate (u : Word) : (s.pushRead u).rate = s.rate := rfl
@[simp] theorem pushRead_pc (u : Word) : (s.pushRead u).pc = s.pc := rfl
@[simp] theorem pushRead_busy (u : Word) : (s.pushRead u).busy = s.busy := rfl
@[simp] theorem pushRead_errSeen (u : Word) : (s.pushRead u).errSeen = s.errSeen := rfl
@[simp] theorem pushRead_lastErr (u : Word) : (s.pushRead u).lastErr = s.lastErr := rfl
@[simp] theorem pushRead_params (u : Word) : (s.pushRead u).params = s.params := rfl
@[simp] theorem pushRead_queue (u : Word) : (s.pushRead u).queue = s.queue := rfl
@[simp] theorem pushRead_hostReads (u : Word) : (s.pushRead u).hostReads = s.hostReads ++ [u] := rfl
@[simp] theorem pushRead_freeCount (u : Word) : (s.pushRead u).freeCount = s.freeCount := rfl

@[simp] theorem start_opa (q : List HostEvent) : (s.start q).opa = s.opa := rfl
@[simp] theorem start_opb (q : List HostEvent) : (s.start q).opb = s.opb := rfl
@[simp] theorem start_result (q : List HostEvent) : (s.start q).result = s.result := rfl
@[simp] theorem start_v (q : List HostEvent) : (s.start q).v = s.v := rfl
@[simp] theorem start_lanes (q : List HostEvent) : (s.start q).lanes = s.lanes := rfl
@[simp] theorem start_width (q : List HostEvent) : (s.start q).width = s.width := rfl
@[simp] theorem start_rounds (q : List HostEvent) : (s.start q).rounds = s.rounds := rfl
@[simp] theorem start_w (q : List HostEvent) : (s.start q).w = s.w := rfl
@[simp] theorem start_l (q : List HostEvent) : (s.start q).l = s.l := rfl
@[simp] theorem start_off (q : List HostEvent) : (s.start q).off = s.off := rfl
@[simp] theorem start_mb (q : List HostEvent) : (s.start q).mb = s.mb := rfl
@[simp] theorem start_sst (q : List HostEvent) : (s.start q).sst = s.sst := rfl
@[simp] theorem start_rate (q : List HostEvent) : (s.start q).rate = s.rate := rfl
@[simp] theorem start_pc (q : List HostEvent) : (s.start q).pc = s.pc := rfl
@[simp] theorem start_busy (q : List HostEvent) : (s.start q).busy = true := rfl
@[simp] theorem start_errSeen (q : List HostEvent) : (s.start q).errSeen = s.errSeen := rfl
@[simp] theorem start_lastErr (q : List HostEvent) : (s.start q).lastErr = s.lastErr := rfl
@[simp] theorem start_params (q : List HostEvent) : (s.start q).params = s.params := rfl
@[simp] theorem start_queue (q : List HostEvent) : (s.start q).queue = q := rfl
@[simp] theorem start_hostReads (q : List HostEvent) : (s.start q).hostReads = s.hostReads := rfl
@[simp] theorem start_freeCount (q : List HostEvent) : (s.start q).freeCount = s.freeCount := rfl

@[simp] theorem hardReset_opa : s.hardReset.opa = (State.resetWith s.params).opa := rfl
@[simp] theorem hardReset_opb : s.hardReset.opb = (State.resetWith s.params).opb := rfl
@[simp] theorem hardReset_result : s.hardReset.result = (State.resetWith s.params).result := rfl
@[simp] theorem hardReset_v : s.hardReset.v = (State.resetWith s.params).v := rfl
@[simp] theorem hardReset_lanes : s.hardReset.lanes = (State.resetWith s.params).lanes := rfl
@[simp] theorem hardReset_width : s.hardReset.width = (State.resetWith s.params).width := rfl
@[simp] theorem hardReset_rounds : s.hardReset.rounds = (State.resetWith s.params).rounds := rfl
@[simp] theorem hardReset_w : s.hardReset.w = (State.resetWith s.params).w := rfl
@[simp] theorem hardReset_l : s.hardReset.l = (State.resetWith s.params).l := rfl
@[simp] theorem hardReset_off : s.hardReset.off = (State.resetWith s.params).off := rfl
@[simp] theorem hardReset_mb : s.hardReset.mb = (State.resetWith s.params).mb := rfl
@[simp] theorem hardReset_sst : s.hardReset.sst = (State.resetWith s.params).sst := rfl
@[simp] theorem hardReset_rate : s.hardReset.rate = (State.resetWith s.params).rate := rfl
@[simp] theorem hardReset_pc : s.hardReset.pc = (State.resetWith s.params).pc := rfl
@[simp] theorem hardReset_busy : s.hardReset.busy = (State.resetWith s.params).busy := rfl
@[simp] theorem hardReset_errSeen : s.hardReset.errSeen = (State.resetWith s.params).errSeen := rfl
@[simp] theorem hardReset_lastErr : s.hardReset.lastErr = (State.resetWith s.params).lastErr := rfl
@[simp] theorem hardReset_params : s.hardReset.params = s.params := rfl
@[simp] theorem hardReset_queue : s.hardReset.queue = s.queue := rfl
@[simp] theorem hardReset_hostReads : s.hardReset.hostReads = s.hostReads := rfl
@[simp] theorem hardReset_freeCount : s.hardReset.freeCount = s.freeCount := rfl

@[simp] theorem windowWrite_result (off : Nat) (u : Word) : (s.windowWrite off u).result = s.result := by
  unfold State.windowWrite; split <;> [rfl; (split <;> rfl)]
@[simp] theorem windowWrite_v (off : Nat) (u : Word) : (s.windowWrite off u).v = s.v := by
  unfold State.windowWrite; split <;> [rfl; (split <;> rfl)]
@[simp] theorem windowWrite_lanes (off : Nat) (u : Word) : (s.windowWrite off u).lanes = s.lanes := by
  unfold State.windowWrite; split <;> [rfl; (split <;> rfl)]
@[simp] theorem windowWrite_width (off : Nat) (u : Word) : (s.windowWrite off u).width = s.width := by
  unfold State.windowWrite; split <;> [rfl; (split <;> rfl)]
@[simp] theorem windowWrite_rounds (off : Nat) (u : Word) : (s.windowWrite off u).rounds = s.rounds := by
  unfold State.windowWrite; split <;> [rfl; (split <;> rfl)]
@[simp] theorem windowWrite_w (off : Nat) (u : Word) : (s.windowWrite off u).w = s.w := by
  unfold State.windowWrite; split <;> [rfl; (split <;> rfl)]
@[simp] theorem windowWrite_l (off : Nat) (u : Word) : (s.windowWrite off u).l = s.l := by
  unfold State.windowWrite; split <;> [rfl; (split <;> rfl)]
@[simp] theorem windowWrite_off (off : Nat) (u : Word) : (s.windowWrite off u).off = s.off := by
  unfold State.windowWrite; split <;> [rfl; (split <;> rfl)]
@[simp] theorem windowWrite_mb (off : Nat) (u : Word) : (s.windowWrite off u).mb = s.mb := by
  unfold State.windowWrite; split <;> [rfl; (split <;> rfl)]
@[simp] theorem windowWrite_sst (off : Nat) (u : Word) : (s.windowWrite off u).sst = s.sst := by
  unfold State.windowWrite; split <;> [rfl; (split <;> rfl)]
@[simp] theorem windowWrite_rate (off : Nat) (u : Word) : (s.windowWrite off u).rate = s.rate := by
  unfold State.windowWrite; split <;> [rfl; (split <;> rfl)]
@[simp] theorem windowWrite_pc (off : Nat) (u : Word) : (s.windowWrite off u).pc = s.pc := by
  unfold State.windowWrite; split <;> [rfl; (split <;> rfl)]
@[simp] theorem windowWrite_busy (off : Nat) (u : Word) : (s.windowWrite off u).busy = s.busy := by
  unfold State.windowWrite; split <;> [rfl; (split <;> rfl)]
@[simp] theorem windowWrite_errSeen (off : Nat) (u : Word) : (s.windowWrite off u).errSeen = s.errSeen := by
  unfold State.windowWrite; split <;> [rfl; (split <;> rfl)]
@[simp] theorem windowWrite_lastErr (off : Nat) (u : Word) : (s.windowWrite off u).lastErr = s.lastErr := by
  unfold State.windowWrite; split <;> [rfl; (split <;> rfl)]
@[simp] theorem windowWrite_params (off : Nat) (u : Word) : (s.windowWrite off u).params = s.params := by
  unfold State.windowWrite; split <;> [rfl; (split <;> rfl)]
@[simp] theorem windowWrite_queue (off : Nat) (u : Word) : (s.windowWrite off u).queue = s.queue := by
  unfold State.windowWrite; split <;> [rfl; (split <;> rfl)]
@[simp] theorem windowWrite_hostReads (off : Nat) (u : Word) : (s.windowWrite off u).hostReads = s.hostReads := by
  unfold State.windowWrite; split <;> [rfl; (split <;> rfl)]
@[simp] theorem windowWrite_freeCount (off : Nat) (u : Word) : (s.windowWrite off u).freeCount = s.freeCount := by
  unfold State.windowWrite; split <;> [rfl; (split <;> rfl)]

@[simp] theorem afterSuccess_opa : s.afterSuccess.opa = s.opa := rfl
@[simp] theorem afterSuccess_opb : s.afterSuccess.opb = s.opb := rfl
@[simp] theorem afterSuccess_result : s.afterSuccess.result = s.result := rfl
@[simp] theorem afterSuccess_v : s.afterSuccess.v = s.v := rfl
@[simp] theorem afterSuccess_lanes : s.afterSuccess.lanes = s.lanes := rfl
@[simp] theorem afterSuccess_width : s.afterSuccess.width = s.width := rfl
@[simp] theorem afterSuccess_rounds : s.afterSuccess.rounds = s.rounds := rfl
@[simp] theorem afterSuccess_w : s.afterSuccess.w = s.w := rfl
@[simp] theorem afterSuccess_l : s.afterSuccess.l = s.l := rfl
@[simp] theorem afterSuccess_off : s.afterSuccess.off = s.off := rfl
@[simp] theorem afterSuccess_mb : s.afterSuccess.mb = s.mb := rfl
@[simp] theorem afterSuccess_sst : s.afterSuccess.sst = s.sst := rfl
@[simp] theorem afterSuccess_rate : s.afterSuccess.rate = s.rate := rfl
@[simp] theorem afterSuccess_pc : s.afterSuccess.pc = s.pc + 1 := rfl
@[simp] theorem afterSuccess_busy : s.afterSuccess.busy = false := rfl
@[simp] theorem afterSuccess_errSeen : s.afterSuccess.errSeen = s.errSeen := rfl
@[simp] theorem afterSuccess_lastErr : s.afterSuccess.lastErr = .ok := rfl
@[simp] theorem afterSuccess_params : s.afterSuccess.params = s.params := rfl
@[simp] theorem afterSuccess_queue : s.afterSuccess.queue = s.queue := rfl
@[simp] theorem afterSuccess_hostReads : s.afterSuccess.hostReads = s.hostReads := rfl
@[simp] theorem afterSuccess_freeCount : s.afterSuccess.freeCount = s.freeCount := rfl

@[simp] theorem afterError_opa (e : ErrorCode) : (s.afterError e).opa = s.opa := rfl
@[simp] theorem afterError_opb (e : ErrorCode) : (s.afterError e).opb = s.opb := rfl
@[simp] theorem afterError_result (e : ErrorCode) : (s.afterError e).result = s.result := rfl
@[simp] theorem afterError_v (e : ErrorCode) : (s.afterError e).v = s.v := rfl
@[simp] theorem afterError_lanes (e : ErrorCode) : (s.afterError e).lanes = s.lanes := rfl
@[simp] theorem afterError_width (e : ErrorCode) : (s.afterError e).width = s.width := rfl
@[simp] theorem afterError_rounds (e : ErrorCode) : (s.afterError e).rounds = s.rounds := rfl
@[simp] theorem afterError_w (e : ErrorCode) : (s.afterError e).w = s.w := rfl
@[simp] theorem afterError_l (e : ErrorCode) : (s.afterError e).l = s.l := rfl
@[simp] theorem afterError_off (e : ErrorCode) : (s.afterError e).off = s.off := rfl
@[simp] theorem afterError_mb (e : ErrorCode) : (s.afterError e).mb = s.mb := rfl
@[simp] theorem afterError_sst (e : ErrorCode) : (s.afterError e).sst = s.sst := rfl
@[simp] theorem afterError_rate (e : ErrorCode) : (s.afterError e).rate = s.rate := rfl
@[simp] theorem afterError_pc (e : ErrorCode) : (s.afterError e).pc = s.pc + 1 := rfl
@[simp] theorem afterError_busy (e : ErrorCode) : (s.afterError e).busy = false := rfl
@[simp] theorem afterError_errSeen (e : ErrorCode) : (s.afterError e).errSeen = true := rfl
@[simp] theorem afterError_lastErr (e : ErrorCode) : (s.afterError e).lastErr = e := rfl
@[simp] theorem afterError_params (e : ErrorCode) : (s.afterError e).params = s.params := rfl
@[simp] theorem afterError_queue (e : ErrorCode) : (s.afterError e).queue = s.queue := rfl
@[simp] theorem afterError_hostReads (e : ErrorCode) : (s.afterError e).hostReads = s.hostReads := rfl
@[simp] theorem afterError_freeCount (e : ErrorCode) : (s.afterError e).freeCount = s.freeCount := rfl

/-- Reading a V register after a write to it. -/
@[simp] theorem getV_setV_same (d : VReg) (x : BitStr) : (s.setV d x).getV d = x := by
  simp [State.getV, Vector.get_eq_getElem]

/-- A write to one V register leaves the others (rule R24). -/
theorem getV_setV_ne (d k : VReg) (x : BitStr) (h : k ≠ d) : (s.setV d x).getV k = s.getV k := by
  have : d.val ≠ k.val := fun e => h (Fin.ext e.symm)
  simp [State.getV, Vector.get_eq_getElem, Vector.getElem_set_ne, this]

/-- Reading a V register of a state whose V registers are those of another. -/
theorem getV_congr {s t : State} (h : t.v = s.v) (d : VReg) : t.getV d = s.getV d := by
  simp [State.getV, h]

/-- Reading a lane after a write by flat index (rule R173). -/
theorem laneAt_setLaneAt (i j : Nat) (u : Word) (hi : i < 25) :
    (s.setLaneAt i u).laneAt j = if j = i then u else s.laneAt j := by
  unfold State.laneAt
  simp only [setLaneAt_lanes]
  by_cases hj : j < 25
  · by_cases h : j = i
    · subst h; simp [Vector.getD, hi]
    · have : ¬ i = j := fun e => h e.symm
      simp [Vector.getD, hj, h, this]
  · have : ¬ j = i := by omega
    simp [Vector.getD, hj, this]

end Sys2Proof.Machine
end

