-- ==== Sys2Proof/Laws/Ops.lean ====
section
/-! SUPPORT. What the shared operations can do, and the two ways a command can end (rules R271 and R272): proofs about
commands cite these and do not unfold `succeed`, `fail` or `complete`. -/

namespace Sys2Proof.Machine

/-- A command that succeeds (rule R271). -/
theorem succeed_eq (s : State) : succeed s = .next s.afterSuccess := by
  simp [succeed, State.complete, State.afterSuccess]

/-- A command that raises an error (rules R271 and R272). -/
theorem fail_eq {e : ErrorCode} (he : e ≠ .ok) (s : State) : fail e s = .next (s.afterError e) := by
  simp [fail, State.complete, State.afterError, he]

/-- A length fits a V register exactly when it is at most BV_MAX_BITS (rule R27). -/
@[simp] theorem fitsV_iff (s : State) (n : Nat) : s.fitsV n = true ↔ n ≤ s.params.bvMaxBits := by
  simp [State.fitsV, Params.bvMaxBits]

@[simp] theorem fitsMb_iff (s : State) (n : Nat) : s.fitsMb n = true ↔ n ≤ s.params.mbMaxBits := by
  simp [State.fitsMb]

/-- The engine guard while the sponge owns the engine (rule R176). -/
theorem unlessAbsorbing_owned {s : State} (h : s.sst = .absorbing) (k : Result) :
    unlessAbsorbing s k = .next (s.afterError .estate) := by
  simp [unlessAbsorbing, h, fail_eq]

/-- The engine guard otherwise (rule R176). -/
theorem unlessAbsorbing_free {s : State} (h : s.sst ≠ .absorbing) (k : Result) : unlessAbsorbing s k = k := by
  simp [unlessAbsorbing, h]

/-- The sponge guard in ABSORBING (rule R265). -/
theorem whileAbsorbing_owned {s : State} (h : s.sst = .absorbing) (k : Result) : whileAbsorbing s k = k := by
  simp [whileAbsorbing, h]

/-- The sponge guard otherwise (rule R265). -/
theorem whileAbsorbing_free {s : State} (h : s.sst ≠ .absorbing) (k : Result) :
    whileAbsorbing s k = .next (s.afterError .estate) := by
  simp [whileAbsorbing, h, fail_eq]

/-- The errors a command that decodes can raise (rule R261). -/
def ErrorCode.IsCommandError (e : ErrorCode) : Prop := e = .einval ∨ e = .erange ∨ e = .estate ∨ e = .ecapacity

theorem ErrorCode.IsCommandError.ne_ok {e : ErrorCode} (h : e.IsCommandError) : e ≠ .ok := by
  rcases h with rfl | rfl | rfl | rfl <;> decide

theorem isCommandError_einval : ErrorCode.IsCommandError .einval := .inl rfl
theorem isCommandError_erange : ErrorCode.IsCommandError .erange := .inr (.inl rfl)
theorem isCommandError_estate : ErrorCode.IsCommandError .estate := .inr (.inr (.inl rfl))
theorem isCommandError_ecapacity : ErrorCode.IsCommandError .ecapacity := .inr (.inr (.inr rfl))

/-- What a successful command's effect leaves alone, whatever the command: the host's side, STATUS and pc. -/
structure EffectFrame (s u : State) : Prop where
  host : SameHostSide s u
  pc : u.pc = s.pc
  busy : u.busy = s.busy
  errSeen : u.errSeen = s.errSeen
  lastErr : u.lastErr = s.lastErr

/-- A command either raises an error and has no effect, or has an effect and completes. -/
inductive Ends (s : State) : Result → Prop where
  | error {e : ErrorCode} (he : e.IsCommandError) : Ends s (.next (s.afterError e))
  | success {u : State} (hu : EffectFrame s u) : Ends s (.next u.afterSuccess)

theorem Ends.fail {s : State} {e : ErrorCode} (he : e.IsCommandError) : Ends s (fail e s) := by
  rw [fail_eq he.ne_ok]; exact .error he

theorem Ends.succeed {s u : State} (hu : EffectFrame s u) : Ends s (succeed u) := by
  rw [succeed_eq]; exact .success hu

theorem Ends.ite {s : State} {c : Prop} [Decidable c] {a b : Result} (ha : Ends s a) (hb : Ends s b) :
    Ends s (if c then a else b) := by
  split
  · exact ha
  · exact hb

theorem Ends.unlessAbsorbing {s : State} {k : Result} (hk : Ends s k) : Ends s (unlessAbsorbing s k) :=
  .ite (.fail isCommandError_estate) hk

theorem Ends.whileAbsorbing {s : State} {k : Result} (hk : Ends s k) : Ends s (whileAbsorbing s k) :=
  .ite hk (.fail isCommandError_estate)

theorem effectFrame_setV (s : State) (d : VReg) (x : BitStr) : EffectFrame s (s.setV d x) := by
  constructor <;> simp [SameHostSide]

theorem effectFrame_setResult (s : State) (u : Word) : EffectFrame s (s.setResult u) := by
  constructor <;> simp [SameHostSide]

theorem effectFrame_setLanes (s : State) (a : Grid) : EffectFrame s (s.setLanes a) := by
  constructor <;> simp [SameHostSide]

theorem effectFrame_setLaneAt (s : State) (i : Nat) (u : Word) : EffectFrame s (s.setLaneAt i u) := by
  constructor <;> simp [SameHostSide]

theorem effectFrame_configure (s : State) (b nr : Nat) : EffectFrame s (s.configure b nr) := by
  constructor <;> simp [SameHostSide]

theorem effectFrame_setMb (s : State) (x : BitStr) : EffectFrame s (s.setMb x) := by
  constructor <;> simp [SameHostSide]

/-- The two ways any command can end. -/
theorem exec_ends (i : Instr) (s : State) : Ends s (exec i s) := by
  have cap := isCommandError_ecapacity
  cases i with
  | bvZero vd =>
    change Ends s (execBvZero vd s)
    unfold execBvZero
    exact .ite (.succeed (effectFrame_setV ..)) (.fail cap)
  | bvPush vd imm8 =>
    change Ends s (execBvPush vd imm8 s)
    unfold execBvPush
    exact .ite (.fail isCommandError_einval) (.ite (.succeed (effectFrame_setV ..)) (.fail cap))
  | bvChlen vd =>
    change Ends s (execBvChlen vd s)
    unfold execBvChlen
    exact .ite (.succeed (effectFrame_setV ..)) (.fail cap)
  | bvAppend vd vs =>
    change Ends s (execBvAppend vd vs s)
    unfold execBvAppend
    exact .ite (.succeed (effectFrame_setV ..)) (.fail cap)
  | bvShl vd =>
    change Ends s (execBvShl vd s)
    unfold execBvShl
    exact .ite (.succeed (effectFrame_setV ..)) (.fail cap)
  | bvShr vd =>
    change Ends s (execBvShr vd s)
    unfold execBvShr
    exact .succeed (effectFrame_setV ..)
  | bvExtract vd vs =>
    change Ends s (execBvExtract vd vs s)
    unfold execBvExtract
    split
    · exact .succeed (effectFrame_setV ..)
    · exact .fail isCommandError_erange
  | bvCopy vd vs =>
    change Ends s (execBvCopy vd vs s)
    unfold execBvCopy
    exact .succeed (effectFrame_setV ..)
  | bvLen vs =>
    change Ends s (execBvLen vs s)
    unfold execBvLen
    exact .succeed (effectFrame_setResult ..)
  | bvReadw vs =>
    change Ends s (execBvReadw vs s)
    unfold execBvReadw
    exact .ite (.fail isCommandError_erange) (.succeed (effectFrame_setResult ..))
  | pInit =>
    change Ends s (execPInit s)
    unfold execPInit
    exact .unlessAbsorbing (.ite (.fail isCommandError_einval)
      (.ite (.fail isCommandError_einval) (.succeed (effectFrame_configure ..))))
  | pPermute =>
    change Ends s (execPPermute s)
    unfold execPPermute
    exact .unlessAbsorbing (.succeed (effectFrame_setLanes ..))
  | pRdlane =>
    change Ends s (execPRdlane s)
    unfold execPRdlane
    exact .unlessAbsorbing (.ite (.fail isCommandError_erange) (.succeed (effectFrame_setResult ..)))
  | pWrlane =>
    change Ends s (execPWrlane s)
    unfold execPWrlane
    exact .unlessAbsorbing (.ite (.fail isCommandError_einval)
      (.ite (.fail isCommandError_erange) (.succeed (effectFrame_setLaneAt ..))))
  | pXorin vs =>
    change Ends s (execPXorin vs s)
    unfold execPXorin
    exact .unlessAbsorbing (.ite (.fail isCommandError_erange) (.succeed (effectFrame_setLanes ..)))
  | pExtract vd =>
    change Ends s (execPExtract vd s)
    unfold execPExtract
    exact .unlessAbsorbing (.ite (.fail isCommandError_erange) (.succeed (effectFrame_setV ..)))
  | sInit =>
    change Ends s (execSInit s)
    unfold execSInit
    refine .ite (.fail isCommandError_einval) (.succeed ?_)
    constructor <;> simp [SameHostSide]
  | sAbsorb vs =>
    change Ends s (execSAbsorb vs s)
    unfold execSAbsorb
    exact .whileAbsorbing (.ite (.succeed (effectFrame_setMb ..)) (.fail cap))
  | sFinal vd =>
    change Ends s (execSFinal vd s)
    unfold execSFinal
    refine .whileAbsorbing (.ite (.succeed ?_) (.fail cap))
    constructor <;> simp [SameHostSide]

end Sys2Proof.Machine
end

