-- ==== Sys2Proof/Laws/HostPort.lean ====
section
/-! SUPPORT. The host port: which part of the queue overlaps a command, and what the accesses performed while a command
runs can change. -/

namespace Sys2Proof.Machine

/-- With nothing arriving while the command runs, nothing overlaps it. -/
theorem overlap_of_nothing {q : List HostEvent} (h : NothingOverlaps q) : overlap q = ⟨[], false, q⟩ := by
  cases q with
  | nil => rfl
  | cons e q =>
    have : e.arrival = .idle := h e rfl
    simp [overlap, this]

/-- Supported accesses marked `busy` all overlap the command before them, and what follows them is split in turn. -/
theorem overlap_of_busy_append {ops : List HostOp} (h : ∀ op ∈ ops, op.isSupported = true ∧ op.isCmdWrite = false)
    (q : List HostEvent) :
    overlap ((ops.map fun op => ⟨op, .busy⟩) ++ q) =
      ⟨ops ++ (overlap q).ops, (overlap q).abandoned, (overlap q).rest⟩ := by
  induction ops with
  | nil => rfl
  | cons op ops ih =>
    have hop := h op (by simp)
    have hr : op ≠ .reset := by rintro rfl; simp [HostOp.isSupported] at hop
    simp only [List.map_cons, List.cons_append, overlap]
    rw [ih fun o ho => h o (by simp [ho])]
    simp [hop, hr]

/-- A CMD write whose command nothing overlaps is the command and nothing else. -/
theorem cmdWrite_alone {s : State} (h : NothingOverlaps s.queue) (u : Word) :
    cmdWrite u s = execCmd u (s.start s.queue) := by
  simp only [cmdWrite, overlap_of_nothing h, runToCompletion, busyAccesses]
  simp only [Bool.false_eq_true, ite_false]
  cases execCmd u (s.start s.queue) <;> rfl

/-- An illegal CMD value changes STATUS and pc only (rules R262 and R272). -/
theorem execCmd_of_error {u : Word} {e : DecodeError} (h : decode u = .error e) (s : State) :
    execCmd u s = .next (s.afterError .eillegal) := by
  simp [execCmd, h, illegalCommand, fail_eq]

theorem execCmd_of_ok {u : Word} {i : Instr} (h : decode u = .ok i) (s : State) : execCmd u s = exec i s := by
  simp [execCmd, h]

/-- Every CMD value ends as a command ends, EILLEGAL included (rules R271 and R272). -/
theorem execCmd_ends (u : Word) (s : State) :
    execCmd u s = .next (s.afterError .eillegal) ∨ Ends s (execCmd u s) := by
  cases h : decode u with
  | error e => exact .inl (execCmd_of_error h s)
  | ok i => rw [execCmd_of_ok h]; exact .inr (exec_ends i s)

/-- The two ways a command can end, as the next state it leaves. -/
theorem Ends.cases {s : State} {r : Result} (h : Ends s r) :
    (∃ e : ErrorCode, e.IsCommandError ∧ r = .next (s.afterError e)) ∨
      ∃ u, EffectFrame s u ∧ r = .next u.afterSuccess := by
  cases h with
  | error he => exact .inl ⟨_, he, rfl⟩
  | success hu => exact .inr ⟨_, hu, rfl⟩

/-- A step on a non-empty queue. -/
theorem step_cons {s : State} {e : HostEvent} {q : List HostEvent} (h : s.queue = e :: q) :
    step s = hostStep e.op { s with queue := q } := by
  simp [step, stepQueue, h]

/-- A CMD write of 8 bytes at offset 0x10. -/
theorem step_cmdWrite {s : State} {u : Word} {a : Arrival} {q : List HostEvent}
    (h : s.queue = ⟨.write 0x10 8 u, a⟩ :: q) : step s = cmdWrite u { s with queue := q } := by
  rw [step_cons h]; simp [hostStep, supported]

/-- Which fields an access performed while a command runs may change (rule R311). -/
structure SameBut (s t : State) : Prop where
  result : t.result = s.result
  v : t.v = s.v
  lanes : t.lanes = s.lanes
  width : t.width = s.width
  rounds : t.rounds = s.rounds
  w : t.w = s.w
  l : t.l = s.l
  off : t.off = s.off
  mb : t.mb = s.mb
  sst : t.sst = s.sst
  rate : t.rate = s.rate
  pc : t.pc = s.pc
  busy : t.busy = s.busy
  errSeen : t.errSeen = s.errSeen
  lastErr : t.lastErr = s.lastErr
  params : t.params = s.params
  queue : t.queue = s.queue

theorem SameBut.refl (s : State) : SameBut s s := by constructor <;> rfl

theorem SameBut.trans {s t u : State} (h : SameBut s t) (k : SameBut t u) : SameBut s u := by
  constructor
  all_goals first
    | exact k.result.trans h.result | exact k.v.trans h.v | exact k.lanes.trans h.lanes
    | exact k.width.trans h.width | exact k.rounds.trans h.rounds | exact k.w.trans h.w | exact k.l.trans h.l
    | exact k.off.trans h.off | exact k.mb.trans h.mb | exact k.sst.trans h.sst | exact k.rate.trans h.rate
    | exact k.pc.trans h.pc | exact k.busy.trans h.busy | exact k.errSeen.trans h.errSeen
    | exact k.lastErr.trans h.lastErr | exact k.params.trans h.params | exact k.queue.trans h.queue

theorem sameBut_pushRead (s : State) (u : Word) : SameBut s (s.pushRead u) := by constructor <;> rfl

theorem sameBut_freeRead (s : State) (n : Nat) (u : Word) : SameBut s ({ s with freeCount := n }.pushRead u) := by
  constructor <;> rfl

theorem sameBut_windowWrite (s : State) (off : Nat) (u : Word) : SameBut s (s.windowWrite off u) := by
  constructor <;> simp

theorem idleRead_next {off : Nat} {s t : State} (h : idleRead off s = .next t) : SameBut s t := by
  unfold idleRead at h
  split at h
  · cases h; exact sameBut_pushRead _ _
  · cases h

/-- Reads are never refused. -/
theorem idleRead_not_refused (off : Nat) (s : State) (r : Refusal) : idleRead off s ≠ .refused r := by
  unfold idleRead
  split <;> simp

theorem busyRead_next {b : State} {off : Nat} {s t : State} (h : busyRead b off s = .next t) : SameBut s t := by
  unfold busyRead at h
  split at h
  · cases h; exact sameBut_freeRead _ _ _
  · split at h
    · split at h
      · cases h; exact sameBut_pushRead _ _
      · cases h
    · exact idleRead_next h

theorem busyAccess_next {b : State} {op : HostOp} {s t : State} (h : busyAccess b op s = .next t) : SameBut s t := by
  unfold busyAccess at h
  cases op with
  | read off size => exact busyRead_next h
  | write off size u => cases h; exact sameBut_windowWrite _ _ _
  | reset => cases h; exact .refl _

/-- What the accesses performed while a command runs can change: OPA, OPB and what the host has read (rule R311). -/
theorem busyAccesses_next {b : State} {ops : List HostOp} {s t : State} (h : busyAccesses b ops s = .next t) :
    SameBut s t := by
  induction ops generalizing s with
  | nil => cases h; exact .refl _
  | cons op ops ih =>
    rw [busyAccesses] at h
    split at h
    · next u hu => exact (busyAccess_next hu).trans (ih h)
    · cases h
    · cases h

/-- The last of the accesses performed while a command runs sees what those before it left. -/
theorem busyAccesses_append_single (b : State) (ops : List HostOp) (op : HostOp) (s : State) :
    busyAccesses b (ops ++ [op]) s =
      match busyAccesses b ops s with
      | .next t => busyAccess b op t
      | .fault f => .fault f
      | .refused r => .refused r := by
  induction ops generalizing s with
  | nil => simp only [List.nil_append, busyAccesses]; cases busyAccess b op s <;> rfl
  | cons o ops ih => simp only [List.cons_append, busyAccesses]; cases busyAccess b o s <;> simp [ih]

/-- A step whose CMD write is followed by supported accesses marked `busy` and then by nothing that overlaps. -/
theorem step_of_busy {s : State} {u : Word} {a : Arrival} {ops : List HostOp} {q : List HostEvent}
    (h : ∀ op ∈ ops, op.isSupported = true ∧ op.isCmdWrite = false) (hn : NothingOverlaps q)
    (hq : s.queue = ⟨.write 0x10 8 u, a⟩ :: ((ops.map fun op => ⟨op, .busy⟩) ++ q)) :
    step s = runToCompletion u ops { s with queue := q, busy := true } := by
  rw [step_cmdWrite hq]
  simp [cmdWrite, overlap_of_busy_append h, overlap_of_nothing hn, State.start]

/-- A window read faults only where STATUS would show EINTERNAL (rule R267). -/
theorem windowRead_ok {s : State} (h : s.lastErr ≠ .einternal) (off : Nat) : ∃ u, s.windowRead off = .ok u := by
  unfold State.windowRead
  simp only [h, ite_false]
  split_ifs <;> exact ⟨_, rfl⟩

theorem idleRead_ok {s : State} (h : s.lastErr ≠ .einternal) (off : Nat) : ∃ t, idleRead off s = .next t := by
  obtain ⟨u, hu⟩ := windowRead_ok h off
  exact ⟨s.pushRead u, by simp [idleRead, hu]⟩

theorem busyAccess_ok {b s : State} (hb : b.lastErr ≠ .einternal) (h : s.lastErr ≠ .einternal) (op : HostOp) :
    ∃ t, busyAccess b op s = .next t := by
  cases op with
  | read off size =>
    obtain ⟨u, hu⟩ := windowRead_ok hb off
    obtain ⟨t, ht⟩ := idleRead_ok h off
    simp only [busyAccess, busyRead, hu]
    split_ifs
    · exact ⟨_, rfl⟩
    · exact ⟨_, rfl⟩
    · exact ⟨t, ht⟩
  | write off size u => exact ⟨_, rfl⟩
  | reset => exact ⟨_, rfl⟩

/-- The accesses performed while a command runs complete. -/
theorem busyAccesses_ok {b s : State} (hb : b.lastErr ≠ .einternal) (h : s.lastErr ≠ .einternal) (ops : List HostOp) :
    ∃ t, busyAccesses b ops s = .next t := by
  induction ops generalizing s with
  | nil => exact ⟨s, rfl⟩
  | cons op ops ih =>
    obtain ⟨u, hu⟩ := busyAccess_ok hb h op
    obtain ⟨t, ht⟩ := ih (s := u) (by rw [(busyAccess_next hu).lastErr]; exact h)
    exact ⟨t, by rw [busyAccesses, hu]; exact ht⟩

end Sys2Proof.Machine
end

