-- ==== Sys2Proof/Laws/PerInstr.lean ====
section
/-! SUPPORT. Statements made of every command as syntax, one lemma per constructor. -/

namespace Sys2Proof.Laws.EncodeKeepsFormat

/-- The word of a well-formed command has zeros under its format's mask but for its opcode (rule R82). -/
def Statement (i : Instr) : Prop :=
  i.wf = true → encode i &&& (formatOf i).mask = ((opcField (encode i)).setWidth 32 : CmdWord)

theorem bvZero (vd : VReg) : Statement (.bvZero vd) := by intro _; revert vd; decide
theorem bvChlen (vd : VReg) : Statement (.bvChlen vd) := by intro _; revert vd; decide
theorem bvAppend (vd vs : VReg) : Statement (.bvAppend vd vs) := by intro _; revert vd vs; decide
theorem bvShl (vd : VReg) : Statement (.bvShl vd) := by intro _; revert vd; decide
theorem bvShr (vd : VReg) : Statement (.bvShr vd) := by intro _; revert vd; decide
theorem bvExtract (vd vs : VReg) : Statement (.bvExtract vd vs) := by intro _; revert vd vs; decide
theorem bvCopy (vd vs : VReg) : Statement (.bvCopy vd vs) := by intro _; revert vd vs; decide
theorem bvLen (vs : VReg) : Statement (.bvLen vs) := by intro _; revert vs; decide
theorem bvReadw (vs : VReg) : Statement (.bvReadw vs) := by intro _; revert vs; decide
theorem pInit : Statement .pInit := by intro _; decide
theorem pPermute : Statement .pPermute := by intro _; decide
theorem pRdlane : Statement .pRdlane := by intro _; decide
theorem pWrlane : Statement .pWrlane := by intro _; decide
theorem pXorin (vs : VReg) : Statement (.pXorin vs) := by intro _; revert vs; decide
theorem pExtract (vd : VReg) : Statement (.pExtract vd) := by intro _; revert vd; decide
theorem sInit : Statement .sInit := by intro _; decide
theorem sAbsorb (vs : VReg) : Statement (.sAbsorb vs) := by intro _; revert vs; decide
theorem sFinal (vd : VReg) : Statement (.sFinal vd) := by intro _; revert vd; decide

theorem bvPush (vd : VReg) (imm8 : Nat) : Statement (.bvPush vd imm8) := by
  intro h
  have hlt : imm8 < 256 := by simpa [Instr.wf] using h
  have key : ∀ (d : VReg) (n : Fin 256), encode (.bvPush d n.val) &&& (formatOf (.bvPush d n.val)).mask =
      ((opcField (encode (.bvPush d n.val))).setWidth 32 : CmdWord) := by
    decide +kernel
  exact key vd ⟨imm8, hlt⟩

end Sys2Proof.Laws.EncodeKeepsFormat
end

