-- ==== Sys2Proof/Machine/Assembler.lean ====
section
/-! DEFINITION. The lines of the assembler syntax as host accesses (rule R90) and the pseudo-instructions as lists of
lines (rule R91). The spelling of a line as text is the host's (assumption log 16). -/

namespace Sys2Proof.Machine

/-- A line of rule R90. -/
inductive AsmLine where
  | opa (value : Word)
  | opb (value : Word)
  | cmd (i : Instr)
  | rdResult
  | rdStatus
  | rdConfig
  deriving DecidableEq, Repr

/-- The host access a line is (rule R90). -/
def AsmLine.access (p : Params) : AsmLine → BusAccess
  | .opa u => .write (p.coreBase + 0x00) 8 u
  | .opb u => .write (p.coreBase + 0x08) 8 u
  | .cmd i => .write (p.coreBase + 0x10) 8 (encodeCmd i)
  | .rdResult => .read (p.coreBase + 0x18) 8
  | .rdStatus => .read (p.coreBase + 0x20) 8
  | .rdConfig => .read (p.coreBase + 0x28) 8

/-- The host issues lines, each performed when no command runs. -/
def State.issueLines (s : State) (lines : List AsmLine) : State := s.issue (lines.map (AsmLine.access s.params))

/-- BV.CLEAR vd (rule R91). -/
def asmClear (vd : VReg) : List AsmLine := [.opa 0#64, .cmd (.bvZero vd)]

/-- The pushes of BV.LOADBYTES, up to 8 bytes a chunk; `fuel` bounds the number of chunks. -/
def asmPushBytes (vd : VReg) : Nat → List Byte → List AsmLine
  | 0, _ => []
  | _ + 1, [] => []
  | fuel + 1, b :: bs =>
    [.opa (BitVec.ofNat 64 (bytesVal ((b :: bs).take 8))), .cmd (.bvPush vd (8 * ((b :: bs).take 8).length))]
      ++ asmPushBytes vd fuel ((b :: bs).drop 8)

/-- BV.LOADBYTES vd, b0, b1, ... (rule R91). -/
def asmLoadBytes (vd : VReg) (bs : List Byte) : List AsmLine := asmClear vd ++ asmPushBytes vd bs.length bs

/-- The pushes of BV.LOADBITS, up to 64 bits a chunk; `fuel` bounds the number of chunks. -/
def asmPushBits (vd : VReg) : Nat → Nat → Nat → List AsmLine
  | 0, _, _ => []
  | fuel + 1, n, val =>
    if n = 0 then []
    else [.opa (BitVec.ofNat 64 val), .cmd (.bvPush vd (min 64 n))] ++ asmPushBits vd fuel (n - 64) (val / 2 ^ 64)

/-- BV.LOADBITS vd, L, v (rule R91). -/
def asmLoadBits (vd : VReg) (n val : Nat) : List AsmLine := asmClear vd ++ asmPushBits vd n n val

/-- wait (rule R91): a line is performed when no command runs, so the first read shows BUSY = 0 (assumption log 16). -/
def asmWait : List AsmLine := [.rdStatus]

/-- HASH vd, vs, c, d (rule R91). -/
def asmHash (vd vs : VReg) (c d : Word) : List AsmLine :=
  [.opa c, .cmd .sInit, .cmd (.sAbsorb vs), .opa d, .cmd (.sFinal vd)]

end Sys2Proof.Machine
end

