-- ==== Sys2Proof/Tests/Slice0.lean ====
section
/-! SUPPORT. Small tests with expected values from spec/95_test_vectors.md (rows named B, E, S and V-SRC there) and from
the encodings of 30_encoding.md, and one witness theorem for each obligation that has hypotheses. -/

namespace Sys2Proof.Tests

open Sys2Proof Sys2Proof.Machine

/-! ### Helpers -/

/-- The example parameters of 95_test_vectors.md: BV_MAX_BITS = 4096, MB_MAX_BITS = 2^20. -/
def params : Params := ⟨2496, 2 ^ 20, 7⟩

/-- The state after reset with the given operands and V registers. -/
def start (opa opb : Word) (v : Vector BitStr 4) : State := { State.resetWith params with opa := opa, opb := opb, v := v }

/-- Four V registers with one of them set. -/
def only (d : VReg) (x : BitStr) : Vector BitStr 4 := (Vector.replicate 4 BitStr.empty).set d.val x d.isLt

/-- What a function says of the next state. -/
def after {α : Type} (r : Result) (f : State → α) : Option α :=
  match r with
  | .next t => some (f t)
  | .fault _ => none
  | .refused _ => none

/-- The code and one register after a command. -/
def codeAndV (d : VReg) (r : Result) : Option (ErrorCode × BitStr) := after r fun t => (t.lastErr, t.getV d)

/-- The code and RESULT after a command. -/
def codeAndResult (r : Result) : Option (ErrorCode × Word) := after r fun t => (t.lastErr, t.result)

/-! ### Well-formedness and decoding -/

theorem test_wf_push_256_refused : (Instr.bvPush 0 256).wf = false := by decide
theorem test_wf_push_255_accepted : (Instr.bvPush 3 255).wf = true := by decide

/-- Words written from rule R81: RSV1, IMM8, RSV0, VS, VD, OPC from bit 31 down. -/
theorem test_decode_fields_push : decodeWord (0#8 ++ 64#8 ++ 0#4 ++ 0#2 ++ 1#2 ++ 0x11#8) = .ok (.bvPush 1 64) := by decide
theorem test_decode_fields_append : decodeWord (0#8 ++ 0#8 ++ 0#4 ++ 2#2 ++ 1#2 ++ 0x13#8) = .ok (.bvAppend 1 2) := by decide
theorem test_decode_fields_xorin : decodeWord (0#8 ++ 0#8 ++ 0#4 ++ 3#2 ++ 0#2 ++ 0x24#8) = .ok (.pXorin 3) := by decide
theorem test_decode_fields_pinit : decodeWord (0#8 ++ 0#8 ++ 0#4 ++ 0#2 ++ 0#2 ++ 0x20#8) = .ok .pInit := by decide
theorem test_decode_fields_final : decodeWord (0#8 ++ 0#8 ++ 0#4 ++ 0#2 ++ 1#2 ++ 0x32#8) = .ok (.sFinal 1) := by decide

/-- The sample words of 95_test_vectors.md section 2.1, one for each constructor. -/
theorem test_decode_bitvector :
    decode 0x310#64 = .ok (.bvZero 3) ∧ decode 0x00FF0311#64 = .ok (.bvPush 3 255) ∧ decode 0x212#64 = .ok (.bvChlen 2) ∧
    decode 0xF13#64 = .ok (.bvAppend 3 3) ∧ decode 0x114#64 = .ok (.bvShl 1) ∧ decode 0x215#64 = .ok (.bvShr 2) ∧
    decode 0xE16#64 = .ok (.bvExtract 2 3) ∧ decode 0xC17#64 = .ok (.bvCopy 0 3) ∧ decode 0xC18#64 = .ok (.bvLen 3) ∧
    decode 0x819#64 = .ok (.bvReadw 2) := by decide
theorem test_decode_permutation :
    decode 0x20#64 = .ok .pInit ∧ decode 0x21#64 = .ok .pPermute ∧ decode 0x22#64 = .ok .pRdlane ∧
    decode 0x23#64 = .ok .pWrlane ∧ decode 0xC24#64 = .ok (.pXorin 3) ∧ decode 0x225#64 = .ok (.pExtract 2) := by decide
theorem test_decode_sponge :
    decode 0x30#64 = .ok .sInit ∧ decode 0x831#64 = .ok (.sAbsorb 2) ∧ decode 0x332#64 = .ok (.sFinal 3) := by decide
theorem test_decode_illegal :
    [0x121, 0x0, 0x1A, 0x426, 0xFF, 0x33, 0x10010, 0x410, 0xF010, 0x1000011, 0x10021, 0x100000021,
      0x8000000000000021].all (fun n => match decode (BitVec.ofNat 64 n) with
        | .ok _ => false
        | .error _ => true) = true := by decide
theorem test_decode_table_word :
    decodeTableWord 32 0x00400111 = some (.bvPush 1 64) ∧ decodeTableWord 32 0x121 = none ∧
    decodeBytes [0x16#8, 0x03#8, 0#8, 0#8, 0#8, 0#8, 0#8, 0#8] = .ok (.bvExtract 3 0) ∧
    decodeBytes [0x21#8, 0#8, 0#8, 0#8] = .error .wrongLength := by decide

/-! ### STATUS, CONFIG and the host port (95_test_vectors.md section 2.1 and 10_state.md R35) -/

theorem test_status_ok : after (step ((start 0 0 (only 0 ⟨0, 0⟩)).withFetchWord 32 0xF17)) State.statusWord
    = some 0x0000000100000000#64 := by decide
theorem test_status_illegal : after (step ((start 0 0 (only 0 ⟨0, 0⟩)).withFetchWord 32 0x121)) State.statusWord
    = some 0x0000000100000012#64 := by decide
theorem test_status_estate : after (step ((start 0 0 (only 0 ⟨0, 0⟩)).withFetchWord 32 0xC31)) State.statusWord
    = some 0x0000000100000042#64 := by decide
theorem test_config_reset : State.reset.configWord = 0x0000000640180640#64 := by decide
theorem test_read_partial_refused :
    step { State.reset with queue := [⟨.read 0x18 4, .idle⟩] } = .refused .unsupportedAccess := by rfl

/-! ### BitVector commands (95_test_vectors.md section 2.2) -/

theorem test_bvZero_B1 : codeAndV 1 (exec (.bvZero 1) (start 70 0 (only 0 ⟨0, 0⟩))) = some (.ok, ⟨70, 0⟩) := by
  decide +kernel
theorem test_bvZero_B4 : codeAndV 1 (exec (.bvZero 1) (start 4097 0 (only 0 ⟨0, 0⟩))) = some (.ecapacity, ⟨0, 0⟩) := by
  decide +kernel
theorem test_bvPush_B7 :
    after (exec (.bvPush 2 64) (start 0xFEDCBA9876543210#64 0 (only 2 ⟨60, 0⟩))) (fun t => ((t.getV 2).len, (t.getV 2).words))
      = some (124, [0x0#64, 0xFEDCBA987654321#64]) := by decide +kernel
theorem test_bvPush_B8 : codeAndV 2 (exec (.bvPush 2 65) (start 255 0 (only 2 ⟨3, 5⟩))) = some (.einval, ⟨3, 5⟩) := by
  decide +kernel
theorem test_bvChlen_B10 : codeAndV 0 (exec (.bvChlen 0) (start 3 0 (only 0 ⟨5, 0x1D⟩))) = some (.ok, ⟨3, 5⟩) := by
  decide +kernel
theorem test_bvChlen_B11 : codeAndV 0 (exec (.bvChlen 0) (start 70 0 (only 0 ⟨3, 5⟩))) = some (.ok, ⟨70, 5⟩) := by
  decide +kernel
theorem test_bvAppend_B14 :
    after (exec (.bvAppend 0 1) (start 0 0 #v[⟨60, 2 ^ 60 - 1⟩, ⟨8, 0xFF⟩, ⟨0, 0⟩, ⟨0, 0⟩])) (fun t => (t.getV 0).words)
      = some [0xFFFFFFFFFFFFFFFF#64, 0xF#64] := by decide +kernel
theorem test_bvAppend_B15 : codeAndV 0 (exec (.bvAppend 0 0) (start 0 0 (only 0 ⟨3, 5⟩))) = some (.ok, ⟨6, 0x2D⟩) := by
  decide +kernel
theorem test_bvShl_B19 :
    after (exec (.bvShl 3) (start 60 0 (only 3 ⟨70, 2 ^ 69 + 3⟩))) (fun t => (t.getV 3).words)
      = some [0x3000000000000000#64, 0x0#64, 0x2#64] := by decide +kernel
theorem test_bvShl_B23 : codeAndV 3 (exec (.bvShl 3) (start 97 0 (only 3 ⟨4000, 1⟩))) = some (.ecapacity, ⟨4000, 1⟩) := by
  decide +kernel
theorem test_bvShr_B24 :
    after (exec (.bvShr 0) (start 64 0 (only 0 ⟨130, 2 ^ 129 + 1⟩))) (fun t => ((t.getV 0).len, (t.getV 0).words))
      = some (66, [0x0#64, 0x2#64]) := by decide +kernel
theorem test_bvShr_B27 :
    codeAndV 0 (exec (.bvShr 0) (start 0xFFFFFFFFFFFFFFFF#64 0 (only 0 ⟨8, 0xAB⟩))) = some (.ok, ⟨0, 0⟩) := by
  decide +kernel
theorem test_bvExtract_B30 :
    codeAndV 1 (exec (.bvExtract 1 0) (start 5 12 (only 0 ⟨24, 0x030201⟩))) = some (.ok, ⟨8, 0x20⟩) := by decide +kernel
theorem test_bvExtract_B38 :
    codeAndV 1 (exec (.bvExtract 1 0) (start 13 12 (only 0 ⟨24, 0x030201⟩))) = some (.erange, ⟨0, 0⟩) := by
  decide +kernel
theorem test_bvCopy_B42 : codeAndV 0 (exec (.bvCopy 0 2) (start 0 0 (only 2 ⟨5, 0x1D⟩))) = some (.ok, ⟨5, 0x1D⟩) := by
  decide +kernel
theorem test_bvLen_B45 : codeAndResult (exec (.bvLen 1) (start 0 0 (only 1 ⟨70, 0⟩))) = some (.ok, 0x46#64) := by
  decide +kernel
theorem test_bvReadw_B48 :
    codeAndResult (exec (.bvReadw 0) (start 1 0 (only 0 ⟨68, 2 ^ 68 - 1⟩))) = some (.ok, 0xF#64) := by decide +kernel
theorem test_bvReadw_B49 :
    codeAndResult (exec (.bvReadw 0) (start 2 0 (only 0 ⟨68, 2 ^ 68 - 1⟩))) = some (.erange, 0#64) := by decide +kernel

/-! ### The permutation steps (95_test_vectors.md section 2.3) -/

theorem test_rotl :
    rotl 8 0x81#64 9 = 0x3#64 ∧ rotl 64 0x8000000000000001#64 1 = 0x3#64 ∧
    rotl 64 0x0123456789ABCDEF#64 62 = 0xC048D159E26AF37B#64 ∧ rotl 1 0x1#64 1 = 0x1#64 := by decide
/-- θ at w = 8 of A[0] = 0x80. -/
theorem test_theta : (theta 8 (Grid.zero.set 0 0x80#64)).toList =
    [0x80#64, 0x80#64, 0#64, 0#64, 1#64, 0#64, 0x80#64, 0#64, 0#64, 1#64, 0#64, 0x80#64, 0#64, 0#64, 1#64,
      0#64, 0x80#64, 0#64, 0#64, 1#64, 0#64, 0x80#64, 0#64, 0#64, 1#64] := by decide +kernel
/-- ρ at w = 8 of every lane 1. -/
theorem test_rho : (rho 8 (offsets 8) (Vector.replicate 25 1#64)).toList =
    [0x1#64, 0x2#64, 0x40#64, 0x10#64, 0x8#64, 0x10#64, 0x10#64, 0x40#64, 0x80#64, 0x10#64, 0x8#64, 0x4#64, 0x8#64,
      0x2#64, 0x80#64, 0x2#64, 0x20#64, 0x80#64, 0x20#64, 0x1#64, 0x4#64, 0x4#64, 0x20#64, 0x1#64, 0x40#64] := by
  decide +kernel
/-- π with lane i holding i. -/
theorem test_pi : (piStep (Vector.ofFn fun i : Fin 25 => BitVec.ofNat 64 i.val)).toList.map BitVec.toNat =
    [0, 6, 12, 18, 24, 3, 9, 10, 16, 22, 1, 7, 13, 19, 20, 4, 5, 11, 17, 23, 2, 8, 14, 15, 21] := by decide +kernel
theorem test_chi : (chi 64 ((Grid.zero.set 0 0xFF#64).set 2 0xF0F0#64)).toList.take 5 =
    [0xF00F#64, 0#64, 0xF0F0#64, 0xFF#64, 0#64] := by decide +kernel
theorem test_rc : (List.range 31).map (fun n => (rc n).toNat) =
    [1, 0, 0, 0, 0, 0, 0, 0, 1, 0, 1, 1, 0, 0, 0, 1, 1, 1, 1, 0, 1, 0, 0, 0, 0, 1, 1, 1, 1, 1, 1] := by decide +kernel
theorem test_roundConstant :
    roundConstant 6 0 = 0x1#64 ∧ roundConstant 6 3 = 0x8000000080008000#64 ∧ roundConstant 6 23 = 0x8000000080008008#64 ∧
    roundConstant 6 (-1) = 0x8A#64 ∧ roundConstant 6 (-6) = 0x80008081#64 ∧ roundConstant 3 4 = 0x8B#64 := by decide +kernel
/-- The walk that generates ROTTAB (rule R142): step t = 0 to 23 sets (x,y) to (t+1)(t+2)/2, and (x,y) moves to
(y, 2x + 3y). -/
theorem test_rotTab_walk :
    ((List.range 24).foldl (fun (p : Nat × Nat × Bool) t =>
      (p.2.1, (2 * p.1 + 3 * p.2.1) % 5, p.2.2 && rotTab.getD (5 * p.2.1 + p.1) 0 == (t + 1) * (t + 2) / 2))
      (1, 0, true)).2.2 = true := by decide +kernel

/-! ### The engine commands (95_test_vectors.md sections 2.4 to 2.6) -/

/-- The engine configured as P.INIT leaves it. -/
def engine (b nr : Nat) (s : State) : State := s.configure b nr

theorem test_pInit_E1 : after (exec .pInit (start 200 18 (only 0 ⟨0, 0⟩))) State.configWord = some 0x00000003081200C8#64 := by
  decide +kernel
theorem test_pInit_E6 :
    after (exec .pInit (start 1600 0x100 (only 0 ⟨0, 0⟩))) (fun t => (t.lastErr, t.configWord))
      = some (.einval, 0x0000000640180640#64) := by decide +kernel
theorem test_pPermute_p1600_1 :
    after (exec .pPermute (engine 1600 1 (start 0 0 (only 0 ⟨0, 0⟩)))) (fun t => (t.laneAt 0, t.laneAt 24)) =
      some (0x8000000080008008#64, 0#64) := by decide +kernel
theorem test_pRdlane_E9 : codeAndResult (exec .pRdlane (start 24 0 (only 0 ⟨0, 0⟩))) = some (.ok, 0#64) := by decide +kernel
theorem test_pRdlane_E10 : codeAndResult (exec .pRdlane (start 25 0 (only 0 ⟨0, 0⟩))) = some (.erange, 0#64) := by
  decide +kernel
theorem test_pWrlane_E11 :
    after (exec .pWrlane (engine 200 18 (start 3 165 (only 0 ⟨0, 0⟩)))) (fun t => (t.lastErr, t.laneAt 3, t.laneAt 15))
      = some (.ok, 0xA5#64, 0#64) := by decide +kernel
theorem test_pWrlane_E13 :
    after (exec .pWrlane (engine 200 18 (start 25 0x100 (only 0 ⟨0, 0⟩)))) (fun t => t.lastErr) = some .einval := by
  decide +kernel
theorem test_pXorin_200 :
    after (exec (.pXorin 1) (engine 200 18 (start 0 0 (only 1 ⟨200, 1 + 2 ^ 199⟩)))) (fun t => (t.laneAt 0, t.laneAt 24))
      = some (0x1#64, 0x80#64) := by decide +kernel
theorem test_pXorin_E16 :
    after (exec (.pXorin 1) (engine 200 18 (start 0 0 (only 1 ⟨201, 0⟩)))) (fun t => t.lastErr) = some .erange := by
  decide +kernel
theorem test_pExtract_12 :
    codeAndV 1 (exec (.pExtract 1) ((engine 200 18 (start 12 0 (only 0 ⟨0, 0⟩))).setLanes
      ((Grid.zero.set 0 0x3C#64).set 1 0x28#64))) = some (.ok, ⟨12, 0x83C⟩) := by decide +kernel
theorem test_pExtract_E18 :
    codeAndV 1 (exec (.pExtract 1) (engine 200 18 (start 201 0 (only 0 ⟨0, 0⟩)))) = some (.erange, ⟨0, 0⟩) := by
  decide +kernel

/-! ### The sponge (95_test_vectors.md sections 1 and 2.8, and the examples of 42_sponge.md) -/

/-- A block in ABSORBING with rate 1600 - c. -/
def absorbing (c : Nat) (mb : BitStr) (s : State) : State :=
  (((s.configure 1600 24).setRate (1600 - c)).setMb mb).setSst .absorbing

theorem test_padZeros_V_SRC_10 :
    padZeros 0 1088 = 1086 ∧ padZeros 1086 1088 = 0 ∧ padZeros 1087 1088 = 1087 ∧ padZeros 1602 1088 = 572 ∧
    padZeros 5 1 = 0 ∧ padZeros 1 2 = 1 ∧ padZeros 1598 1599 = 1598 ∧ padding 5 1 = ⟨2, 3⟩ := by decide +kernel
theorem test_sInit_512 :
    after (exec .sInit (start 512 0 (only 0 ⟨0, 0⟩))) (fun t => (t.sst, t.rate.toNat)) = some (.absorbing, 1088) := by
  decide +kernel
theorem test_sInit_1600 :
    after (exec .sInit (start 1600 0 (only 0 ⟨0, 0⟩))) (fun t => (t.lastErr, t.sst, t.rate.toNat))
      = some (.einval, .idle, 0) := by decide +kernel
theorem test_sAbsorb_twice :
    after (exec (.sAbsorb 0) (absorbing 512 ⟨8, 0x61⟩ (start 0 0 (only 0 ⟨2, 2⟩)))) (fun t => (t.lastErr, t.mb))
      = some (.ok, ⟨10, 0x261⟩) := by decide +kernel
theorem test_sAbsorb_idle :
    after (exec (.sAbsorb 0) (start 0 0 (only 0 ⟨2, 2⟩))) (fun t => (t.lastErr, t.mb)) = some (.estate, ⟨0, 0⟩) := by
  decide +kernel
/-! ### The pseudo-instructions (rule R91 and its examples) -/

/-- Ten bytes are pushed as a chunk of 8 and a chunk of 2, after a clear. -/
theorem test_loadBytes : asmLoadBytes 0 [1#8, 2#8, 3#8, 4#8, 5#8, 6#8, 7#8, 8#8, 9#8, 10#8] =
    [.opa 0#64, .cmd (.bvZero 0), .opa 0x0807060504030201#64, .cmd (.bvPush 0 64), .opa 0x0A09#64, .cmd (.bvPush 0 16)] := by
  decide +kernel
theorem test_loadBits : asmLoadBits 1 2 2 = [.opa 0#64, .cmd (.bvZero 1), .opa 2#64, .cmd (.bvPush 1 2)] := by
  decide +kernel
/-- A line is a write of the command word to CORE_BASE + 0x10. -/
theorem test_issue_line :
    ((start 0 0 (only 0 ⟨0, 0⟩)).issueLines [.cmd (.sFinal 1)]).queue = [⟨.write 0x10 8 0x132#64, .idle⟩] := by decide +kernel

/-! ### Witnesses: states and operands that meet the hypotheses of the obligations -/

/-- IDLE, with registers of several lengths; V2 is full. -/
def idle (opa opb : Word) : State := start opa opb #v[⟨8, 0xAB⟩, ⟨70, 2 ^ 69 + 3⟩, ⟨4096, 1⟩, ⟨0, 0⟩]

/-- ABSORBING with c = 512 and a short message. -/
def owned (opa opb : Word) : State := absorbing 512 ⟨2, 2⟩ (idle opa opb)

/-- ABSORBING with a full message buffer. -/
def full (opa opb : Word) : State := absorbing 1599 ⟨2 ^ 20, 1⟩ (idle opa opb)

/-- USED. -/
def used (opa opb : Word) : State := ((owned opa opb).setMb ⟨0, 0⟩).setSst .used

/-- The next host operations: a CMD write of `u`, the accesses that arrive while it runs, and one that does not. -/
def issuing (u : Word) (busy : List HostOp) (s : State) : State :=
  { s with queue := ⟨.write 0x10 8 u, .idle⟩ :: (busy.map fun op => ⟨op, .busy⟩) ++ [⟨.read 0x18 8, .idle⟩] }

theorem nothingOverlaps_idle (op : HostOp) : NothingOverlaps [⟨op, .idle⟩] := by
  intro e h
  cases h
  rfl

theorem idle_inv : Inv (idle 5 7) :=
  ⟨⟨by decide +kernel, by decide +kernel, by decide +kernel, by decide +kernel⟩,
    ⟨by decide +kernel, by decide +kernel, by decide +kernel, by decide +kernel⟩,
    by unfold LanesWithinWidth; decide +kernel,
    ⟨by decide +kernel, by decide +kernel, by decide +kernel, by decide +kernel⟩,
    ⟨by decide +kernel, by decide +kernel, by decide +kernel⟩⟩

theorem owned_inv : Inv (owned 256 0) :=
  ⟨⟨by decide +kernel, by decide +kernel, by decide +kernel, by decide +kernel⟩,
    ⟨by decide +kernel, by decide +kernel, by decide +kernel, by decide +kernel⟩,
    by unfold LanesWithinWidth; decide +kernel,
    ⟨by decide +kernel, by decide +kernel, by decide +kernel, by decide +kernel⟩,
    ⟨by decide +kernel, by decide +kernel, by decide +kernel⟩⟩

/-- USED, with an engine of width 200 and lanes that are not zero. -/
def reused (opa opb : Word) : State :=
  ((used opa opb).configure 200 18).setLanes ((Grid.zero.set 0 0xFF#64).set 24 0x80#64)

theorem reused_inv : Inv (reused 24 255) :=
  ⟨⟨by decide +kernel, by decide +kernel, by decide +kernel, by decide +kernel⟩,
    ⟨by decide +kernel, by decide +kernel, by decide +kernel, by decide +kernel⟩,
    by unfold LanesWithinWidth; decide +kernel,
    ⟨by decide +kernel, by decide +kernel, by decide +kernel, by decide +kernel⟩,
    ⟨by decide +kernel, by decide +kernel, by decide +kernel⟩⟩

theorem witness_DecodeOfEncode : (Instr.bvPush 3 255).wf = true := by decide

theorem witness_EncodeOfDecode : decode 0x00FF0311#64 = .ok (.bvPush 3 255) := by decide

/-- One value for each clause of `IllegalCmd`, at the ends of the opcode ranges, and values that are no illegal command. -/
theorem witness_IllegalCommandValues :
    (∀ n ∈ [0x100000021, 0x0, 0x0F, 0x1A, 0x1F, 0x26, 0x2F, 0x33, 0xFF, 0x1010, 0x1000010, 0x10010, 0x118, 0x410],
      IllegalCmd (BitVec.ofNat 64 n)) ∧
    ∀ n ∈ [0x310, 0xFF0311, 0xC19, 0x20, 0x325, 0x30, 0x332], ¬ IllegalCmd (BitVec.ofNat 64 n) := by
  unfold IllegalCmd
  decide +kernel

theorem witness_LittleEndianRegisters :
    0xF8 % 8 = 0 ∧ 7 < 8 ∧ (idle 5 7).windowRead 0xF8 = .ok 0#64 ∧ (idle 5 7).windowRead 0x08 = .ok 7#64 :=
  ⟨rfl, by decide, rfl, rfl⟩

theorem witness_StepRunsTheDecodedCommand :
    (issuing 0x00FF0311#64 [] (idle 5 7)).queue = ⟨.write 0x10 8 0x00FF0311#64, .idle⟩ :: [⟨.read 0x18 8, .idle⟩] ∧
    NothingOverlaps [⟨.read 0x18 8, .idle⟩] ∧ decode 0x00FF0311#64 = .ok (.bvPush 3 255) :=
  ⟨rfl, nothingOverlaps_idle _, by decide⟩

theorem witness_IllegalCommandChangesStatusAndPcOnly :
    (issuing 0x121#64 [] (idle 5 7)).queue = ⟨.write 0x10 8 0x121#64, .idle⟩ :: [⟨.read 0x18 8, .idle⟩] ∧
    NothingOverlaps [⟨.read 0x18 8, .idle⟩] ∧ IllegalCmd 0x121#64 :=
  ⟨rfl, nothingOverlaps_idle _, by unfold IllegalCmd; decide +kernel⟩

theorem witness_OperandWritesDuringACommand : ∃ t,
    NothingOverlaps [⟨.read 0x18 8, .idle⟩] ∧
    execCmd 0x18#64 { idle 5 7 with queue := [⟨.read 0x18 8, .idle⟩], busy := true } = .next t ∧
    (issuing 0x18#64 [.write 0x00 8 1#64, .write 0x08 8 2#64] (idle 5 7)).queue =
      ⟨.write 0x10 8 0x18#64, .idle⟩ :: ⟨.write 0x00 8 1#64, .busy⟩ :: ⟨.write 0x08 8 2#64, .busy⟩ ::
        [⟨.read 0x18 8, .idle⟩] ∧
    (issuing 0x18#64 [.write 0x00 8 1#64, .write 0x08 8 2#64, .read 0x00 8, .read 0x08 8] (idle 5 7)).queue =
      ⟨.write 0x10 8 0x18#64, .idle⟩ :: ⟨.write 0x00 8 1#64, .busy⟩ :: ⟨.write 0x08 8 2#64, .busy⟩ ::
        ⟨.read 0x00 8, .busy⟩ :: ⟨.read 0x08 8, .busy⟩ :: [⟨.read 0x18 8, .idle⟩] :=
  ⟨_, nothingOverlaps_idle _, rfl, rfl, rfl⟩

theorem witness_ReadsDuringACommand : ∃ t,
    (idle 5 7).busy = false ∧ (idle 5 7).lastErr ≠ .einternal ∧
    (issuing 0x18#64 [.read 0x20 8, .read 0x18 8, .read 0x28 8, .read 0x00 8, .read 0x10 8, .read 0x30 8] (idle 5 7)).queue =
      ⟨.write 0x10 8 0x18#64, .idle⟩ :: ⟨.read 0x20 8, .busy⟩ :: ⟨.read 0x18 8, .busy⟩ :: ⟨.read 0x28 8, .busy⟩ ::
        ⟨.read 0x00 8, .busy⟩ :: ⟨.read 0x10 8, .busy⟩ :: ⟨.read 0x30 8, .busy⟩ :: [⟨.read 0x18 8, .idle⟩] ∧
    NothingOverlaps [⟨.read 0x18 8, .idle⟩] ∧
    execCmd 0x18#64 { idle 5 7 with queue := [⟨.read 0x18 8, .idle⟩], busy := true } = .next t :=
  ⟨_, rfl, by decide, rfl, nothingOverlaps_idle _, rfl⟩

/-- The second part: accesses behind a write to OPB and a read of RESULT, at the first and the last offset of each
clause. -/
theorem witness_ReadsDuringACommand_behind_others : ∃ t,
    (∀ op ∈ [HostOp.write 0x08 8 2#64, .read 0x18 8], op.isSupported = true ∧ op.isCmdWrite = false) ∧
    (idle 5 7).lastErr ≠ .einternal ∧ NothingOverlaps [⟨.read 0x18 8, .idle⟩] ∧
    (∀ off ∈ [0x00, 0x08, 0x10, 0x18, 0x20, 0x28, 0x30, 0xF8], off % 8 = 0 ∧ off < 256) ∧
    step { idle 5 7 with
      queue := ⟨.write 0x10 8 0x18#64, .idle⟩ ::
        (([.write 0x08 8 2#64, .read 0x18 8].map fun op => ⟨op, .busy⟩) ++ [⟨.read 0x18 8, .idle⟩]) } = .next t ∧
    t.opb = 2#64 :=
  ⟨_, by decide, by decide, nothingOverlaps_idle _, by decide, rfl, rfl⟩

/-- A state for each error code and for each sponge state. -/
theorem witness_StatusAndConfigFields :
    (∀ e : ErrorCode, { idle 5 7 with lastErr := e }.lastErr = e) ∧
    (idle 5 7).sst = .idle ∧ (owned 5 7).sst = .absorbing ∧ (used 5 7).sst = .used :=
  ⟨fun _ => rfl, rfl, rfl, rfl⟩

theorem witness_HeldCommandRunsNext : ∃ t,
    (issuing 0x18#64 [.write 0x00 8 1#64, .write 0x10 8 0x15#64] (idle 5 7)).queue =
      ⟨.write 0x10 8 0x18#64, .idle⟩ :: ⟨.write 0x00 8 1#64, .busy⟩ :: ⟨.write 0x10 8 0x15#64, .busy⟩ ::
        [⟨.read 0x18 8, .idle⟩] ∧
    NothingOverlaps [⟨.read 0x18 8, .idle⟩] ∧
    execCmd 0x18#64 { idle 5 7 with
      queue := ⟨.write 0x10 8 0x15#64, .busy⟩ :: [⟨.read 0x18 8, .idle⟩], busy := true } = .next t :=
  ⟨_, rfl, nothingOverlaps_idle _, rfl⟩

theorem witness_ResetAbandonsTheCommand :
    (∀ op ∈ [HostOp.write 0x00 8 1#64, .read 0xF8 8], op.isSupported = true ∧ op.isCmdWrite = false) ∧
    (idle 5 7).lastErr ≠ .einternal ∧
    (issuing 0x21#64 [.write 0x00 8 1#64, .read 0xF8 8, .reset] (idle 5 7)).queue =
      ⟨.write 0x10 8 0x21#64, .idle⟩ :: (([.write 0x00 8 1#64, .read 0xF8 8].map fun op => ⟨op, .busy⟩) ++
        ⟨.reset, .busy⟩ :: [⟨.read 0x18 8, .idle⟩]) ∧
    { idle 5 7 with queue := [⟨.write 0x10 8 0x21#64, .idle⟩, ⟨.write 0x10 8 0x18#64, .busy⟩, ⟨.reset, .held⟩] }.queue =
      ⟨.write 0x10 8 0x21#64, .idle⟩ :: ((([] : List HostOp).map fun op => ⟨op, .busy⟩) ++
        ⟨.write 0x10 8 0x18#64, .busy⟩ :: ⟨.reset, .held⟩ :: []) :=
  ⟨by decide, by decide, rfl, rfl⟩

/-- The first and the last offset of each clause. -/
theorem witness_AccessesBetweenCommands :
    (∀ off ∈ [0x00, 0x08, 0x10, 0x18, 0x20, 0x28, 0x30, 0xF8], off % 8 = 0 ∧ off < 256) ∧
    { idle 5 7 with queue := [⟨.read 0xF8 8, .idle⟩] }.queue = ⟨.read 0xF8 8, .idle⟩ :: [] ∧
    (idle 5 7).lastErr ≠ .einternal ∧
    { idle 5 7 with queue := [⟨.write 0x18 8 9#64, .idle⟩] }.queue = ⟨.write 0x18 8 9#64, .idle⟩ :: [] :=
  ⟨by decide, rfl, by decide, rfl⟩

theorem witness_UnsupportedAccessesAreRefused :
    (255 < 256 ∧ (8 ≠ 8 ∨ 255 % 8 ≠ 0)) ∧ (0 < 256 ∧ (4 ≠ 8 ∨ 0 % 8 ≠ 0)) ∧
    { idle 5 7 with queue := [⟨.read 255 8, .idle⟩] }.queue = ⟨.read 255 8, .idle⟩ :: [] ∧
    { idle 5 7 with queue := [⟨.write 0 4 1#64, .idle⟩] }.queue = ⟨.write 0 4 1#64, .idle⟩ :: [] :=
  ⟨by decide, by decide, rfl, rfl⟩

/-- CORE_BASE is 1792 for the parameters of the tests; the addresses are the ends of the window and their neighbours. -/
theorem witness_WindowIsAtCoreBase :
    (0 < 256 ∧ 1792 = params.coreBase + 0) ∧ (255 < 256 ∧ 2047 = params.coreBase + 255) ∧
    1791 < params.coreBase ∧ params.coreBase + 256 ≤ 2048 := by decide

theorem witness_ResetValues : ∃ t,
    { owned 5 7 with queue := [⟨.reset, .idle⟩] }.queue = ⟨.reset, .idle⟩ :: [] ∧
    step { owned 5 7 with queue := [⟨.reset, .idle⟩] } = .next t := ⟨_, rfl, rfl⟩

theorem witness_StepKeepsTheInvariant : ∃ t,
    Inv (idle 5 7) ∧ Inv (owned 256 0) ∧ Inv (reused 24 255) ∧ step (idle 5 7) = .next t :=
  ⟨_, idle_inv, owned_inv, reused_inv, rfl⟩

theorem witness_StepsComplete :
    Inv { idle 5 7 with queue := [⟨.write 0x10 8 0x30#64, .idle⟩] } ∧
    HostOp.isSupported (.write 0x10 8 0x30#64) = true ∧ HostOp.isSupported (.read 0xF8 8) = true ∧ HostOp.reset = .reset :=
  ⟨⟨⟨idle_inv.strings.1, idle_inv.strings.2, idle_inv.strings.3, idle_inv.strings.4⟩,
    ⟨idle_inv.config.1, idle_inv.config.2, idle_inv.config.3, idle_inv.config.4⟩, idle_inv.lanes,
    ⟨idle_inv.sponge.1, idle_inv.sponge.2, idle_inv.sponge.3, idle_inv.sponge.4⟩,
    ⟨idle_inv.status.1, idle_inv.status.2, idle_inv.status.3⟩⟩, by decide, by decide, rfl⟩

/-- The next state of a command. -/
theorem exec_next {r : Result} {α : Type} {f : State → α} {x : α} (h : after r f = some x) : ∃ t, r = .next t ∧ f t = x := by
  cases r with
  | next t => exact ⟨t, rfl, by simpa [after] using h⟩
  | fault e => simp [after] at h
  | refused e => simp [after] at h

/-- A failing command, once for each code. -/
theorem witness_FailedCommandsChangeNothingElse :
    (∃ t, exec .pInit (idle 5 7) = .next t ∧ t.lastErr = .einval) ∧
    (∃ t, exec .pRdlane (idle 25 0) = .next t ∧ t.lastErr = .erange) ∧
    (∃ t, exec .pPermute (owned 5 7) = .next t ∧ t.lastErr = .estate) ∧
    (∃ t, exec (.bvShl 2) (idle 1 0) = .next t ∧ t.lastErr = .ecapacity) ∧
    (∃ t, execCmd 0x121#64 (idle 1 0) = .next t ∧ t.lastErr = .eillegal) :=
  ⟨exec_next (f := State.lastErr) (by decide +kernel), exec_next (f := State.lastErr) (by decide +kernel),
    exec_next (f := State.lastErr) (by decide +kernel), exec_next (f := State.lastErr) (by decide +kernel),
    exec_next (f := State.lastErr) (by decide +kernel)⟩

/-- One command for each clause: BV.COPY v0, v1 writes no lane, no RESULT, no configuration, no RATE, no MB and no V2. -/
theorem witness_OnlyTheseCommandsWrite : ∃ t, exec (.bvCopy 0 1) (idle 5 7) = .next t ∧
    ((∀ vs, Instr.bvCopy 0 1 ≠ .bvLen vs) ∧ (∀ vs, Instr.bvCopy 0 1 ≠ .bvReadw vs) ∧ Instr.bvCopy 0 1 ≠ .pRdlane) ∧
    (Instr.bvCopy 0 1 ≠ .pInit ∧ Instr.bvCopy 0 1 ≠ .sInit) ∧
    ((∀ vs, Instr.bvCopy 0 1 ≠ .sAbsorb vs) ∧ ∀ vd, Instr.bvCopy 0 1 ≠ .sFinal vd) ∧
    (Instr.bvCopy 0 1 ∉ [.pInit, .pPermute, .pWrlane, .sInit] ∧ ∀ vs, Instr.bvCopy 0 1 ≠ .pXorin vs) ∧
    (Instr.bvCopy 0 1 ∉ [.bvZero 2, .bvChlen 2, .bvShl 2, .bvShr 2, .pExtract 2, .sFinal 2] ∧
      (∀ n, Instr.bvCopy 0 1 ≠ .bvPush 2 n) ∧
      ∀ vs, Instr.bvCopy 0 1 ∉ [.bvAppend 2 vs, .bvExtract 2 vs, .bvCopy 2 vs]) := by
  refine ⟨_, rfl, ?_⟩
  simp

/-- Each case of the state machine: c = 1, c = 1599, c = 0 and c = 1600; ABSORBING and not; with and without room. -/
theorem witness_SpongeStateTransitions :
    (1 ≤ (idle 1 0).opa.toNat ∧ (idle 1599 0).opa.toNat < 1600 ∧ (idle 0 0).opa.toNat < 1 ∧ 1600 ≤ (idle 1600 0).opa.toNat) ∧
    (owned 5 7).sst = .absorbing ∧ (used 5 7).sst ≠ .absorbing ∧ (idle 5 7).sst ≠ .absorbing ∧
    (Instr.pInit ∈ [.pInit, .pPermute, .pRdlane, .pWrlane]) ∧
    (Instr.bvLen 0 ∉ [.pInit, .pPermute, .pRdlane, .pWrlane, .sInit] ∧
      ∀ r, Instr.bvLen 0 ∉ [.pXorin r, .pExtract r, .sAbsorb r, .sFinal r]) :=
  ⟨by decide, rfl, by decide, by decide, by decide, by decide, by simp⟩

/-- Every case of rule R263, at the ends of its ranges. -/
theorem witness_WhenEinvalIsRaised :
    (∃ t, exec .pInit (idle 1601 255) = .next t ∧ t.lastErr = .einval) ∧
    (∃ t, exec .pInit (idle 25 256) = .next t ∧ t.lastErr = .einval) ∧
    (∃ t, exec .sInit (idle 0 0) = .next t ∧ t.lastErr = .einval) ∧
    (∃ t, exec .sInit (owned 1600 0) = .next t ∧ t.lastErr = .einval) ∧
    (∃ t, exec (.bvPush 2 65) (idle 0 0) = .next t ∧ t.lastErr = .einval) ∧
    (∃ t, exec .pWrlane (reused 25 256) = .next t ∧ t.lastErr = .einval) :=
  ⟨exec_next (f := State.lastErr) (by decide +kernel), exec_next (f := State.lastErr) (by decide +kernel),
    exec_next (f := State.lastErr) (by decide +kernel), exec_next (f := State.lastErr) (by decide +kernel),
    exec_next (f := State.lastErr) (by decide +kernel), exec_next (f := State.lastErr) (by decide +kernel)⟩

/-- Every case of rule R264, at the ends of its ranges. -/
theorem witness_WhenErangeIsRaised :
    (∃ t, exec (.bvExtract 0 1) (idle 0 1) = .next t ∧ t.lastErr = .erange) ∧
    (∃ t, exec (.bvExtract 0 1) (idle 13 12) = .next t ∧ t.lastErr = .erange) ∧
    (∃ t, exec (.bvExtract 0 1) (idle 1 71) = .next t ∧ t.lastErr = .erange) ∧
    (∃ t, exec (.bvExtract 0 1) (idle 71 71) = .next t ∧ t.lastErr = .erange) ∧
    (∃ t, exec (.bvReadw 1) (idle 2 0) = .next t ∧ t.lastErr = .erange) ∧
    (∃ t, exec .pRdlane (idle 25 0) = .next t ∧ t.lastErr = .erange) ∧
    (∃ t, exec .pWrlane (reused 25 255) = .next t ∧ t.lastErr = .erange) ∧
    (∃ t, exec (.pXorin 2) (idle 0 0) = .next t ∧ t.lastErr = .erange) ∧
    (∃ t, exec (.pExtract 2) (reused 201 0) = .next t ∧ t.lastErr = .erange) :=
  ⟨exec_next (f := State.lastErr) (by decide +kernel), exec_next (f := State.lastErr) (by decide +kernel),
    exec_next (f := State.lastErr) (by decide +kernel), exec_next (f := State.lastErr) (by decide +kernel),
    exec_next (f := State.lastErr) (by decide +kernel), exec_next (f := State.lastErr) (by decide +kernel),
    exec_next (f := State.lastErr) (by decide +kernel), exec_next (f := State.lastErr) (by decide +kernel),
    exec_next (f := State.lastErr) (by decide +kernel)⟩

theorem witness_WhenEstateIsRaised :
    (∃ t, exec (.sAbsorb 0) (idle 0 0) = .next t ∧ t.lastErr = .estate) ∧
    (∃ t, exec (.sFinal 0) (used 8 0) = .next t ∧ t.lastErr = .estate) ∧
    (∃ t, exec .pRdlane (owned 25 0) = .next t ∧ t.lastErr = .estate) ∧
    (∃ t, exec (.pExtract 3) (owned 0 0) = .next t ∧ t.lastErr = .estate) :=
  ⟨exec_next (f := State.lastErr) (by decide +kernel), exec_next (f := State.lastErr) (by decide +kernel),
    exec_next (f := State.lastErr) (by decide +kernel), exec_next (f := State.lastErr) (by decide +kernel)⟩

/-- Every case of rule R266, one bit above its bound. -/
theorem witness_WhenEcapacityIsRaised :
    (∃ t, exec (.bvZero 0) (idle 4097 0) = .next t ∧ t.lastErr = .ecapacity) ∧
    (∃ t, exec (.bvChlen 0) (idle 4097 0) = .next t ∧ t.lastErr = .ecapacity) ∧
    (∃ t, exec (.bvPush 2 1) (idle 0 0) = .next t ∧ t.lastErr = .ecapacity) ∧
    (∃ t, exec (.bvShl 2) (idle 1 0) = .next t ∧ t.lastErr = .ecapacity) ∧
    (∃ t, exec (.bvAppend 2 0) (idle 0 0) = .next t ∧ t.lastErr = .ecapacity) ∧
    (∃ t, exec (.sFinal 0) (owned 4097 0) = .next t ∧ t.lastErr = .ecapacity) ∧
    (∃ t, exec (.sAbsorb 0) (full 0 0) = .next t ∧ t.lastErr = .ecapacity) :=
  ⟨exec_next (f := State.lastErr) (by decide +kernel), exec_next (f := State.lastErr) (by decide +kernel),
    exec_next (f := State.lastErr) (by decide +kernel), exec_next (f := State.lastErr) (by decide +kernel),
    exec_next (f := State.lastErr) (by decide +kernel), exec_next (f := State.lastErr) (by decide +kernel),
    exec_next (f := State.lastErr) (by decide +kernel)⟩

theorem witness_NoCommandReadsStatus : ∃ t, exec .sInit (used 1 0) = .next t ∧ t.lastErr = .ok :=
  exec_next (f := State.lastErr) (by decide +kernel)

theorem witness_UnusedOperandsAreIgnored :
    (∃ t, exec (.pXorin 0) (reused 0 0) = .next t ∧ t.lastErr = .ok) ∧
    (Instr.pXorin 0 ≠ .pInit ∧ Instr.pXorin 0 ≠ .pWrlane ∧ ∀ vd vs, Instr.pXorin 0 ≠ .bvExtract vd vs) ∧
    (Instr.pXorin 0 = .pPermute ∨
      ∃ vd vs, Instr.pXorin 0 ∈ [.bvAppend vd vs, .bvCopy vd vs, .bvLen vs, .pXorin vs, .sAbsorb vs]) :=
  ⟨exec_next (f := State.lastErr) (by decide +kernel), by simp, .inr ⟨0, 0, by simp⟩⟩

theorem witness_LanesAreUnobservableWhileAbsorbing :
    (owned 0 0).sst = .absorbing ∧ Instr.pExtract 0 ≠ .sInit ∧ (∀ vd, Instr.pExtract 0 ≠ .sFinal vd) ∧
    (∃ t, exec (.pExtract 0) (owned 0 0) = .next t ∧ t.lastErr = .estate) ∧
    ∃ t, exec (.sAbsorb 0) (owned 0 0) = .next t ∧ t.lastErr = .ok :=
  ⟨rfl, by decide, by simp, exec_next (f := State.lastErr) (by decide +kernel), exec_next (f := State.lastErr) (by decide +kernel)⟩

theorem witness_BvZeroAndCopyResults :
    (idle 4096 0).opa.toNat ≤ (idle 4096 0).params.bvMaxBits ∧ (idle 4097 0).params.bvMaxBits < (idle 4097 0).opa.toNat := by
  decide +kernel

/-- Counts 64 and 65; 4032 + 64 = BV_MAX_BITS bits, and one bit more than BV_MAX_BITS. -/
theorem witness_BvPushResult :
    ((only 2 ⟨4032, 1⟩).get 2).val < 2 ^ ((only 2 ⟨4032, 1⟩).get 2).len ∧
    (255 < 256 ∧ 64 ≤ 64 ∧ ((start 0 0 (only 2 ⟨4032, 1⟩)).getV 2).len + 64 ≤ (start 0 0 (only 2 ⟨4032, 1⟩)).params.bvMaxBits) ∧
    64 < 65 ∧
    (((idle 0 0).getV 2).val < 2 ^ ((idle 0 0).getV 2).len ∧ 1 ≤ 64 ∧
      (idle 0 0).params.bvMaxBits < ((idle 0 0).getV 2).len + 1) := by
  decide +kernel

theorem witness_BvChlenResult :
    ((idle 0 0).getV 0).val < 2 ^ ((idle 0 0).getV 0).len ∧ (idle 0 0).opa.toNat ≤ (idle 0 0).params.bvMaxBits ∧
    (idle 4096 0).opa.toNat ≤ (idle 4096 0).params.bvMaxBits ∧ (idle 4097 0).params.bvMaxBits < (idle 4097 0).opa.toNat := by
  decide +kernel

/-- 2048 + 2048 bits with VD = VS, and 4096 + 8 bits. -/
theorem witness_BvAppendResult :
    (((start 0 0 (only 1 ⟨2048, 1⟩)).getV 1).val < 2 ^ ((start 0 0 (only 1 ⟨2048, 1⟩)).getV 1).len ∧
      ((start 0 0 (only 1 ⟨2048, 1⟩)).getV 1).len + ((start 0 0 (only 1 ⟨2048, 1⟩)).getV 1).len ≤ params.bvMaxBits) ∧
    (((idle 0 0).getV 2).val < 2 ^ ((idle 0 0).getV 2).len ∧ ((idle 0 0).getV 0).val < 2 ^ ((idle 0 0).getV 0).len ∧
      (idle 0 0).params.bvMaxBits < ((idle 0 0).getV 2).len + ((idle 0 0).getV 0).len) := by
  decide +kernel

theorem witness_BvShlResult :
    ((idle 0 0).getV 2).val < 2 ^ ((idle 0 0).getV 2).len ∧
    ((idle 0 0).getV 2).len + (idle 0 0).opa.toNat ≤ (idle 0 0).params.bvMaxBits ∧
    (idle 1 0).params.bvMaxBits < ((idle 1 0).getV 2).len + (idle 1 0).opa.toNat := by
  decide +kernel

theorem witness_BvShrResult : ((idle 0 0).getV 2).val < 2 ^ ((idle 0 0).getV 2).len := by decide +kernel

/-- The ranges 1 to 70 and 70 to 70 of 70 bits, and the four ways a range is bad. -/
theorem witness_BvExtractResult :
    ((idle 1 70).getV 1).val < 2 ^ ((idle 1 70).getV 1).len ∧
    (1 ≤ (idle 1 70).opa.toNat ∧ (idle 1 70).opa.toNat ≤ (idle 1 70).opb.toNat ∧
      (idle 1 70).opb.toNat ≤ ((idle 1 70).getV 1).len) ∧
    (1 ≤ (idle 70 70).opa.toNat ∧ (idle 70 70).opa.toNat ≤ (idle 70 70).opb.toNat ∧
      (idle 70 70).opb.toNat ≤ ((idle 70 70).getV 1).len) ∧
    (idle 0 1).opa.toNat = 0 ∧ (idle 2 1).opb.toNat < (idle 2 1).opa.toNat ∧
    ((idle 1 71).getV 1).len < (idle 1 71).opb.toNat ∧ ((idle 71 71).getV 1).len < (idle 71 71).opa.toNat := by
  decide +kernel

/-- The last word of 70 bits, and the first word that is not there. -/
theorem witness_BvLenAndReadwResults :
    ((idle 1 0).getV 1).val < 2 ^ ((idle 1 0).getV 1).len ∧ ((idle 1 0).getV 1).len < 2 ^ 64 ∧
    (idle 1 0).opa.toNat < (((idle 1 0).getV 1).len + 63) / 64 ∧ (((idle 2 0).getV 1).len + 63) / 64 ≤ (idle 2 0).opa.toNat := by
  decide +kernel

theorem witness_FunctionsKeepCanonicalForm :
    (⟨8, 0xAB⟩ : BitStr).val < 2 ^ 8 ∧ (⟨0, 0⟩ : BitStr).val < 2 ^ 0 ∧
    (⟨8, 0xAB⟩ : BitStr).extract 1 8 = some ⟨8, 0xAB⟩ := by decide +kernel

theorem witness_ShiftInverse : (⟨70, 0x200000000123456789⟩ : BitStr).val < 2 ^ 70 := by decide +kernel

theorem witness_ExtractSplitsAndRejoins :
    (⟨70, 0x200000000123456789⟩ : BitStr).val < 2 ^ 70 ∧ 1 ≤ 70 ∧ (1 ≤ 1 ∧ 1 + 1 ≤ 70) ∧ (1 ≤ 69 ∧ 69 + 1 ≤ 70) := by
  decide +kernel

/-- The lanes of `reused` lie within 8 bits. -/
theorem reused_lanes : ∀ i < 5, ∀ j < 5, ((reused 0 0).lanes.lane i j).toNat < 2 ^ 8 := by decide +kernel

theorem witness_ThetaBits :
    1 ≤ 8 ∧ 8 ≤ 64 ∧ (∀ i j, i < 5 → j < 5 → ((reused 0 0).lanes.lane i j).toNat < 2 ^ 8) ∧ 4 < 5 ∧ 4 < 5 ∧ 7 < 8 :=
  ⟨by decide, by decide, fun i j hi hj => reused_lanes i hi j hj, by decide, by decide, by decide⟩

theorem witness_RhoPiBits :
    3 ≤ 6 ∧ (∀ i j, i < 5 → j < 5 → ((reused 0 0).lanes.lane i j).toNat < 2 ^ 2 ^ 3) ∧ 4 < 5 ∧ 0 < 5 ∧ 7 < 2 ^ 3 :=
  ⟨by decide, fun i j hi hj => reused_lanes i hi j hj, by decide, by decide, by decide⟩

theorem witness_ChiIotaBits :
    3 ≤ 6 ∧ 0 < 5 ∧ 4 < 5 ∧ ∀ i j, i < 5 → j < 5 → ((reused 0 0).lanes.lane i j).toNat < 2 ^ 2 ^ 3 :=
  ⟨by decide, by decide, by decide, fun i j hi hj => reused_lanes i hi j hj⟩

theorem witness_PInitResult :
    ((idle 1600 255).sst ≠ .absorbing ∧ (idle 1600 255).opa.toNat ∈ [25, 50, 100, 200, 400, 800, 1600] ∧
      (idle 1600 255).opb.toNat ≤ 255) ∧
    (owned 0 0).sst = .absorbing ∧
    (idle 1599 0).opa.toNat ∉ [25, 50, 100, 200, 400, 800, 1600] ∧ 255 < (idle 25 256).opb.toNat := by
  decide +kernel

theorem witness_PPermuteResult :
    (reused 0 0).sst ≠ .absorbing ∧ ((idle 0 0).configure 25 0).sst ≠ .absorbing ∧
    ((idle 0 0).configure 25 0).rounds = 0#8 ∧ (owned 0 0).sst = .absorbing := by decide +kernel

/-- The last lane, the first index that names none, and lane values at the edge of 8 bits. -/
theorem witness_LaneReadAndWriteResults :
    4 < 5 ∧ ((reused 24 255).sst ≠ .absorbing ∧ (reused 24 255).opa.toNat = 5 * 4 + 4 ∧
      (reused 24 255).opb.toNat < 2 ^ (reused 24 255).w.toNat) ∧
    (24 < (reused 25 255).opa.toNat ∧ (reused 25 255).opb.toNat < 2 ^ (reused 25 255).w.toNat) ∧
    2 ^ (reused 24 256).w.toNat ≤ (reused 24 256).opb.toNat ∧ (owned 0 0).sst = .absorbing := by decide +kernel

/-- 8 bits into 200, 4096 bits into 1600, and an engine the sponge owns. -/
theorem witness_PXorinResult :
    (ConfigConsistent (reused 24 255) ∧ LanesWithinWidth (reused 24 255) ∧ (reused 24 255).sst ≠ .absorbing) ∧
    (((reused 24 255).getV 0).val < 2 ^ ((reused 24 255).getV 0).len ∧
      ((reused 24 255).getV 0).len ≤ (reused 24 255).width.toNat) ∧
    (((reused 24 255).getV 2).val < 2 ^ ((reused 24 255).getV 2).len ∧
      (reused 24 255).width.toNat < ((reused 24 255).getV 2).len) ∧
    (ConfigConsistent (owned 256 0) ∧ LanesWithinWidth (owned 256 0) ∧ (owned 256 0).sst = .absorbing) :=
  ⟨⟨reused_inv.config, reused_inv.lanes, by decide +kernel⟩, by decide +kernel, by decide +kernel,
    owned_inv.config, owned_inv.lanes, rfl⟩

theorem witness_XorinTwiceRestores : ∃ t u, exec (.pXorin 0) (reused 0 0) = .next t ∧ exec (.pXorin 0) t = .next u := by
  obtain ⟨t, h⟩ : ∃ t, exec (.pXorin 0) (reused 0 0) = .next t ∧ t.lastErr = .ok :=
    exec_next (f := State.lastErr) (by decide +kernel)
  obtain ⟨u, hu⟩ : ∃ u, exec (.pXorin 0) t = .next u ∧ u.lastErr = .ok := by
    have : after (exec (.pXorin 0) (reused 0 0)) (fun t => after (exec (.pXorin 0) t) State.lastErr) = some (some .ok) := by
      decide +kernel
    rw [h.1] at this
    exact exec_next (f := State.lastErr) (by simpa [after] using this)
  exact ⟨t, u, h.1, hu.1⟩

/-- 200 and 201 bits of a width of 200. -/
theorem witness_PExtractResult :
    ConfigConsistent (reused 24 255) ∧ ((reused 200 0).sst ≠ .absorbing ∧ (reused 200 0).opa.toNat ≤ (reused 200 0).width.toNat) ∧
    (reused 201 0).width.toNat < (reused 201 0).opa.toNat ∧ (owned 0 0).sst = .absorbing :=
  ⟨reused_inv.config, by decide +kernel, by decide +kernel, rfl⟩

theorem witness_PaddingIsPad101 : 1 ≤ 1 ∧ 1 ≤ 1599 := by decide

theorem witness_PaddedMessagesAreDistinct :
    1 ≤ 1 ∧ (⟨2, 2⟩ : BitStr).val < 2 ^ 2 ∧ paddedMessage ⟨2, 2⟩ 1 = paddedMessage ⟨2, 2⟩ 1 := by decide +kernel

theorem witness_SInitResult :
    (1 ≤ (owned 1 0).opa.toNat ∧ (owned 1 0).opa.toNat ≤ 1599) ∧ (owned 1599 0).opa.toNat ≤ 1599 ∧
    (idle 0 0).opa.toNat = 0 ∧ 1600 ≤ (idle 1600 0).opa.toNat := by decide +kernel

/-- A message buffer with room for 8 bits and no more, a full one, and an instance that is used. -/
theorem witness_SAbsorbResult :
    ((absorbing 512 ⟨1048568, 1⟩ (idle 0 0)).mb.val < 2 ^ (absorbing 512 ⟨1048568, 1⟩ (idle 0 0)).mb.len ∧
      ((idle 0 0).getV 0).val < 2 ^ ((idle 0 0).getV 0).len ∧
      (absorbing 512 ⟨1048568, 1⟩ (idle 0 0)).sst = .absorbing ∧
      (absorbing 512 ⟨1048568, 1⟩ (idle 0 0)).mb.len + ((absorbing 512 ⟨1048568, 1⟩ (idle 0 0)).getV 0).len
        ≤ (absorbing 512 ⟨1048568, 1⟩ (idle 0 0)).params.mbMaxBits) ∧
    ((full 0 0).mb.val < 2 ^ (full 0 0).mb.len ∧ (full 0 0).sst = .absorbing ∧
      (full 0 0).params.mbMaxBits < (full 0 0).mb.len + ((full 0 0).getV 0).len) ∧
    (used 0 0).sst ≠ .absorbing := by decide +kernel

theorem witness_AbsorbsConcatenate :
    (absorbing 512 ⟨2, 2⟩ (start 0 0 #v[⟨3, 5⟩, ⟨2, 1⟩, ⟨5, 13⟩, ⟨0, 0⟩])).sst = .absorbing ∧
    (absorbing 512 ⟨2, 2⟩ (start 0 0 #v[⟨3, 5⟩, ⟨2, 1⟩, ⟨5, 13⟩, ⟨0, 0⟩])).getV 2 =
      ((absorbing 512 ⟨2, 2⟩ (start 0 0 #v[⟨3, 5⟩, ⟨2, 1⟩, ⟨5, 13⟩, ⟨0, 0⟩])).getV 0).append
        ((absorbing 512 ⟨2, 2⟩ (start 0 0 #v[⟨3, 5⟩, ⟨2, 1⟩, ⟨5, 13⟩, ⟨0, 0⟩])).getV 1) ∧
    2 + 3 + 2 ≤ params.mbMaxBits := by decide +kernel

theorem witness_SFinalIsTheSponge :
    (owned 256 0).sst = .absorbing ∧ (owned 256 0).lanes = Vector.replicate 25 0#64 ∧ 1 ≤ (owned 256 0).rate.toNat ∧
    (owned 256 0).rate.toNat < 1600 ∧ (owned 256 0).mb.val < 2 ^ (owned 256 0).mb.len ∧
    (owned 4096 0).opa.toNat ≤ (owned 4096 0).params.bvMaxBits ∧ (owned 4097 0).params.bvMaxBits < (owned 4097 0).opa.toNat := by
  decide +kernel

theorem witness_ShorterDigestsAreBeginnings :
    (used 0 0).sst ≠ .absorbing ∧ (idle 0 0).sst ≠ .absorbing ∧ 1 ≤ 1 ∧ 1599 ≤ 1599 ∧ 0 ≤ 8 := by decide +kernel

/-! ### The two longest tests (95_test_vectors.md sections 1 and 2.4) -/

theorem test_pPermute_p25_12 :
    after (exec .pPermute (engine 25 12 (start 0 0 (only 0 ⟨0, 0⟩)))) (fun t => t.lanes.toList.map BitVec.toNat) =
      some [0, 0, 1, 1, 0, 1, 1, 0, 0, 1, 0, 0, 0, 0, 0, 0, 0, 1, 0, 1, 0, 1, 0, 1, 0] := by decide +kernel

/-- V-SRC-1: SHA3-256 of the empty message, as S.FINAL leaves it. -/
theorem test_sFinal_V_SRC_1 :
    after (exec (.sFinal 1) (absorbing 512 ⟨2, 2⟩ (start 256 0 (only 0 ⟨2, 2⟩)))) (fun t => (t.sst, (t.getV 1).words)) =
      some (.used, [0x66D71EBFF8C6FFA7#64, 0x62D661A05647C151#64, 0xFA493BE44DFF80F5#64, 0x4A43F8804B0AD882#64]) := by
  decide +kernel

end Sys2Proof.Tests
end

section
/-! PROOFS. The register window: which byte addresses have an offset in it (rules R13, R60 and R62). -/

namespace Sys2Proof.Machine

theorem Params.coreBase_mod_256 (p : Params) : p.coreBase % 256 = 0 :=
  Nat.mul_mod_right 256 p.corePage

theorem windowOffset_coreBase_add (p : Params) {off : Nat} (hoff : off < 256) :
    windowOffset p (p.coreBase + off) = some off := by
  have hin : p.coreBase ≤ p.coreBase + off ∧ p.coreBase + off < p.coreBase + 256 := by omega
  rw [windowOffset, if_pos hin, Nat.add_sub_cancel_left]

theorem windowOffset_eq_none (p : Params) {addr : Nat} (hout : addr < p.coreBase ∨ p.coreBase + 256 ≤ addr) :
    windowOffset p addr = none :=
  if_neg (by omega)

/-- Rule R62: the access that reaches the block carries the window offset of its first byte. -/
theorem busOp_of_windowOffset_some {p : Params} {addr off : Nat} (h : windowOffset p addr = some off)
    (size : Nat) (x : Word) :
    busOp p (.read addr size) = some (.read off size) ∧ busOp p (.write addr size x) = some (.write off size x) := by
  simp [busOp, h]

/-- An access whose first byte has no window offset is dropped (the model's choice, assumption log 7). -/
theorem busOp_of_windowOffset_none {p : Params} {addr : Nat} (h : windowOffset p addr = none)
    (size : Nat) (x : Word) :
    busOp p (.read addr size) = none ∧ busOp p (.write addr size x) = none := by
  simp [busOp, h]

/-- Settles O14: the access that `busOp` passes on is decided by the window offset of its address alone. -/
theorem windowIsAtCoreBase : Obligations.WindowIsAtCoreBase := by
  intro p addr size x
  refine ⟨Params.coreBase_mod_256 p, fun off hoff haddr => ?inside, fun hout => ?outside⟩
  case inside =>
    subst haddr
    exact busOp_of_windowOffset_some (windowOffset_coreBase_add p hoff) size x
  case outside => exact busOp_of_windowOffset_none (windowOffset_eq_none p hout) size x

end Sys2Proof.Machine
end

section
/-! PROOFS. What each command that succeeds does to the state, said once with the guards that held (rules R120 to R129,
R170 to R175 and R210 to R212). -/

namespace Sys2Proof.Machine

/-- `Effect s i u`: the guards of `i` hold in `s`, and `u` is `s` with the command's writes, before the completion update
of rule R271. -/
inductive Effect (s : State) : Instr → State → Prop where
  | bvZero {vd} (fits : s.opaNat ≤ s.params.bvMaxBits) : Effect s (.bvZero vd) (s.setV vd (.zeroes s.opaNat))
  | bvPush {vd imm8} (le64 : imm8 ≤ 64) (fits : (s.getV vd).len + imm8 ≤ s.params.bvMaxBits) :
      Effect s (.bvPush vd imm8) (s.setV vd ((s.getV vd).append (.raw s.opa imm8)))
  | bvChlen {vd} (fits : s.opaNat ≤ s.params.bvMaxBits) :
      Effect s (.bvChlen vd) (s.setV vd ((s.getV vd).changeLength s.opaNat))
  | bvAppend {vd vs} (fits : (s.getV vd).len + (s.getV vs).len ≤ s.params.bvMaxBits) :
      Effect s (.bvAppend vd vs) (s.setV vd ((s.getV vd).append (s.getV vs)))
  | bvShl {vd} (fits : (s.getV vd).len + s.opaNat ≤ s.params.bvMaxBits) :
      Effect s (.bvShl vd) (s.setV vd ((s.getV vd).leftShift s.opaNat))
  | bvShr {vd} : Effect s (.bvShr vd) (s.setV vd ((s.getV vd).rightShift s.opaNat))
  | bvExtract {vd vs x} (slice : (s.getV vs).extract s.opaNat s.opbNat = some x) :
      Effect s (.bvExtract vd vs) (s.setV vd x)
  | bvCopy {vd vs} : Effect s (.bvCopy vd vs) (s.setV vd (s.getV vs).copy)
  | bvLen {vs} : Effect s (.bvLen vs) (s.setResult (.ofNat 64 (s.getV vs).len))
  | bvReadw {vs} (inRange : s.opaNat < (s.getV vs).wordCount) :
      Effect s (.bvReadw vs) (s.setResult ((s.getV vs).word s.opaNat))
  | pInit (free : s.sst ≠ .absorbing) (legal : s.opaNat ∈ legalWidths) (le255 : s.opbNat ≤ 255) :
      Effect s .pInit (s.configure s.opaNat s.opbNat)
  | pPermute (free : s.sst ≠ .absorbing) : Effect s .pPermute (s.setLanes s.permuted)
  | pRdlane (free : s.sst ≠ .absorbing) (le24 : s.opaNat ≤ 24) : Effect s .pRdlane (s.setResult (s.laneAt s.opaNat))
  | pWrlane (free : s.sst ≠ .absorbing) (within : s.opbNat < 2 ^ s.w.toNat) (le24 : s.opaNat ≤ 24) :
      Effect s .pWrlane (s.setLaneAt s.opaNat s.opb)
  | pXorin {vs} (free : s.sst ≠ .absorbing) (fits : (s.getV vs).len ≤ s.width.toNat) :
      Effect s (.pXorin vs) (s.setLanes (xorIn s.w.toNat s.lanes (s.getV vs)))
  | pExtract {vd} (free : s.sst ≠ .absorbing) (fits : s.opaNat ≤ s.width.toNat) :
      Effect s (.pExtract vd) (s.setV vd (extractOut s.w.toNat s.lanes s.opaNat))
  | sInit (pos : 0 < s.opaNat) (lt1600 : s.opaNat < 1600) :
      Effect s .sInit ((((s.configure 1600 24).setRate (1600 - s.opaNat)).setMb .empty).setSst .absorbing)
  | sAbsorb {vs} (owned : s.sst = .absorbing) (fits : s.mb.len + (s.getV vs).len ≤ s.params.mbMaxBits) :
      Effect s (.sAbsorb vs) (s.setMb (s.mb.append (s.getV vs)))
  | sFinal {vd} (owned : s.sst = .absorbing) (fits : s.opaNat ≤ s.params.bvMaxBits) :
      Effect s (.sFinal vd) ((((s.setV vd (s.finalised s.opaNat).1).setLanes (s.finalised s.opaNat).2).setMb .empty).setSst
        .used)

/-- `Ends` with what the effect of a successful command satisfies. -/
inductive EndsIn (P : State → Prop) (s : State) : Result → Prop where
  | error {e : ErrorCode} (he : e.IsCommandError) : EndsIn P s (.next (s.afterError e))
  | success {u : State} (hu : P u) : EndsIn P s (.next u.afterSuccess)

section
variable {P : State → Prop} {s : State}

theorem EndsIn.fail {e : ErrorCode} (he : e.IsCommandError) : EndsIn P s (fail e s) := by
  rw [fail_eq he.ne_ok]; exact .error he

theorem EndsIn.succeed {u : State} (hu : P u) : EndsIn P s (succeed u) := by
  rw [succeed_eq]; exact .success hu

theorem EndsIn.ite {c : Prop} [Decidable c] {a b : Result} (ha : c → EndsIn P s a) (hb : ¬ c → EndsIn P s b) :
    EndsIn P s (if c then a else b) := by
  split
  · next h => exact ha h
  · next h => exact hb h

theorem EndsIn.ifFitsV {n : Nat} {u : State} (hu : n ≤ s.params.bvMaxBits → P u) :
    EndsIn P s (if s.fitsV n then Machine.succeed u else Machine.fail .ecapacity s) :=
  .ite (fun h => .succeed (hu ((fitsV_iff s n).mp h))) fun _ => .fail isCommandError_ecapacity

theorem EndsIn.unlessAbsorbing {k : Result} (hk : s.sst ≠ .absorbing → EndsIn P s k) :
    EndsIn P s (unlessAbsorbing s k) :=
  .ite (fun _ => .fail isCommandError_estate) hk

theorem EndsIn.whileAbsorbing {k : Result} (hk : s.sst = .absorbing → EndsIn P s k) :
    EndsIn P s (whileAbsorbing s k) :=
  .ite hk fun _ => .fail isCommandError_estate

end

theorem execBvExtract_of_some {vd vs : VReg} {s : State} {x : BitStr}
    (h : (s.getV vs).extract s.opaNat s.opbNat = some x) : execBvExtract vd vs s = succeed (s.setV vd x) := by
  simp [execBvExtract, h]

theorem execBvExtract_of_none {vd vs : VReg} {s : State} (h : (s.getV vs).extract s.opaNat s.opbNat = none) :
    execBvExtract vd vs s = fail .erange s := by
  simp [execBvExtract, h]

/-- A command either raises an error and has no effect, or has its effect and completes. -/
theorem exec_endsIn_effect (i : Instr) (s : State) : EndsIn (Effect s i) s (exec i s) := by
  cases i with
  | bvZero vd => rw [exec, execBvZero]; exact .ifFitsV .bvZero
  | bvPush vd imm8 =>
    exact .ite (fun _ => .fail isCommandError_einval) fun h => .ifFitsV (.bvPush (Nat.le_of_not_lt h))
  | bvChlen vd => rw [exec, execBvChlen]; exact .ifFitsV .bvChlen
  | bvAppend vd vs => rw [exec, execBvAppend]; exact .ifFitsV .bvAppend
  | bvShl vd => rw [exec, execBvShl]; exact .ifFitsV .bvShl
  | bvShr vd => exact .succeed .bvShr
  | bvExtract vd vs =>
    cases hx : (s.getV vs).extract s.opaNat s.opbNat with
    | some x => rw [exec, execBvExtract_of_some hx]; exact .succeed (.bvExtract hx)
    | none => rw [exec, execBvExtract_of_none hx]; exact .fail isCommandError_erange
  | bvCopy vd vs => exact .succeed .bvCopy
  | bvLen vs => exact .succeed .bvLen
  | bvReadw vs =>
    exact .ite (fun _ => .fail isCommandError_erange) fun h => .succeed (.bvReadw (Nat.lt_of_not_le h))
  | pInit =>
    exact .unlessAbsorbing fun free => .ite (fun _ => .fail isCommandError_einval) fun hw =>
      .ite (fun _ => .fail isCommandError_einval) fun hr =>
        .succeed (.pInit free (not_not.mp hw) (Nat.le_of_not_lt hr))
  | pPermute => exact .unlessAbsorbing fun free => .succeed (.pPermute free)
  | pRdlane =>
    exact .unlessAbsorbing fun free => .ite (fun _ => .fail isCommandError_erange) fun h =>
      .succeed (.pRdlane free (Nat.le_of_not_lt h))
  | pWrlane =>
    exact .unlessAbsorbing fun free => .ite (fun _ => .fail isCommandError_einval) fun hv =>
      .ite (fun _ => .fail isCommandError_erange) fun hi =>
        .succeed (.pWrlane free (Nat.lt_of_not_le hv) (Nat.le_of_not_lt hi))
  | pXorin vs =>
    exact .unlessAbsorbing fun free => .ite (fun _ => .fail isCommandError_erange) fun h =>
      .succeed (.pXorin free (Nat.le_of_not_lt h))
  | pExtract vd =>
    exact .unlessAbsorbing fun free => .ite (fun _ => .fail isCommandError_erange) fun h =>
      .succeed (.pExtract free (Nat.le_of_not_lt h))
  | sInit =>
    exact .ite (fun _ => .fail isCommandError_einval) fun h => .succeed (.sInit (by omega) (by omega))
  | sAbsorb vs =>
    exact .whileAbsorbing fun owned => .ite (fun h => .succeed (.sAbsorb owned ((fitsMb_iff s _).mp h)))
      fun _ => .fail isCommandError_ecapacity
  | sFinal vd => exact .whileAbsorbing fun owned => .ifFitsV (.sFinal owned)

/-- The inversion of a command's step: an error and no effect, or its effect and the completion update. -/
theorem exec_next {i : Instr} {s t : State} (h : exec i s = .next t) :
    (∃ e : ErrorCode, e.IsCommandError ∧ t = s.afterError e) ∨ ∃ u, Effect s i u ∧ t = u.afterSuccess := by
  have hends := exec_endsIn_effect i s
  rw [h] at hends
  cases hends with
  | error he => exact .inl ⟨_, he, rfl⟩
  | success hu => exact .inr ⟨_, hu, rfl⟩

end Sys2Proof.Machine
end

section
/-! PROOFS. Which commands write which register (rules R23, R24, R28, R29, R30 and R32): in each lemma the named cases
are the writers, and every other effect leaves the register. -/

namespace Sys2Proof.Machine

section
variable {i : Instr} {s u : State}

theorem Effect.result_eq (h : Effect s i u) (hlen : ∀ vs, i ≠ .bvLen vs) (hreadw : ∀ vs, i ≠ .bvReadw vs)
    (hrdlane : i ≠ .pRdlane) : u.result = s.result := by
  cases h with
  | bvLen => exact absurd rfl (hlen _)
  | bvReadw => exact absurd rfl (hreadw _)
  | pRdlane => exact absurd rfl hrdlane
  | _ => simp

theorem Effect.config_eq (h : Effect s i u) (hpInit : i ≠ .pInit) (hsInit : i ≠ .sInit) :
    u.width = s.width ∧ u.rounds = s.rounds ∧ u.w = s.w ∧ u.l = s.l ∧ u.off = s.off := by
  cases h with
  | pInit => exact absurd rfl hpInit
  | sInit => exact absurd rfl hsInit
  | _ => simp

theorem Effect.rate_eq (h : Effect s i u) (hsInit : i ≠ .sInit) : u.rate = s.rate := by
  cases h with
  | sInit => exact absurd rfl hsInit
  | _ => simp

theorem Effect.mb_eq (h : Effect s i u) (hsInit : i ≠ .sInit) (hsAbsorb : ∀ vs, i ≠ .sAbsorb vs)
    (hsFinal : ∀ vd, i ≠ .sFinal vd) : u.mb = s.mb := by
  cases h with
  | sInit => exact absurd rfl hsInit
  | sAbsorb => exact absurd rfl (hsAbsorb _)
  | sFinal => exact absurd rfl (hsFinal _)
  | _ => simp

theorem Effect.lanes_eq (h : Effect s i u) (hengine : i ∉ [.pInit, .pPermute, .pWrlane, .sInit])
    (hpXorin : ∀ vs, i ≠ .pXorin vs) (hsFinal : ∀ vd, i ≠ .sFinal vd) : u.lanes = s.lanes := by
  cases h with
  | pInit | pPermute | pWrlane | sInit => simp at hengine
  | pXorin => exact absurd rfl (hpXorin _)
  | sFinal => exact absurd rfl (hsFinal _)
  | _ => simp

/-- V[k] is written by a command whose destination is `k` only (rule R24). -/
theorem Effect.getV_eq (h : Effect s i u) {k : VReg}
    (hd : i ∉ [.bvZero k, .bvChlen k, .bvShl k, .bvShr k, .pExtract k, .sFinal k]) (hpush : ∀ n, i ≠ .bvPush k n)
    (hds : ∀ vs, i ∉ [.bvAppend k vs, .bvExtract k vs, .bvCopy k vs]) : u.getV k = s.getV k := by
  cases h with
  | bvZero | bvChlen | bvShl | bvShr | pExtract | sFinal =>
    exact getV_setV_ne _ _ k _ (by rintro rfl; simp at hd)
  | bvPush => exact getV_setV_ne _ _ k _ (by rintro rfl; exact hpush _ rfl)
  | bvAppend | bvExtract | bvCopy => exact getV_setV_ne _ _ k _ (by rintro rfl; simp at hds)
  | _ => exact getV_congr (by simp) k

end

/-- Settles O23: an error writes none of these registers, and a successful command's effect writes only its own. -/
theorem onlyTheseCommandsWrite : Obligations.OnlyTheseCommandsWrite := by
  intro i s t h
  rcases exec_next h with ⟨e, -, rfl⟩ | ⟨u, hu, rfl⟩
  case inl =>
    exact ⟨fun _ _ _ => rfl, fun _ _ => ⟨rfl, rfl, rfl, rfl, rfl⟩, fun _ => rfl, fun _ _ _ => rfl, fun _ _ _ => rfl,
      fun _ _ _ _ => rfl⟩
  case inr =>
    exact ⟨hu.result_eq, hu.config_eq, hu.rate_eq, hu.mb_eq, hu.lanes_eq, fun k => hu.getV_eq⟩

end Sys2Proof.Machine
end

section
/-! PROOFS. The invariant: reset meets it, a command's effect keeps the part of it that speaks of the registers commands
write, and completion restores the part that speaks of STATUS. -/

namespace Sys2Proof.Machine

/-- The parts of `Inv` that hold while a command runs too: all but those on STATUS. -/
structure DataInv (s : State) : Prop where
  strings : StringsBounded s
  config : ConfigConsistent s
  lanes : LanesWithinWidth s
  sponge : SpongeConsistent s

theorem inv_iff {s : State} : Inv s ↔ DataInv s ∧ StatusConsistent s :=
  ⟨fun h => ⟨⟨h.strings, h.config, h.lanes, h.sponge⟩, h.status⟩,
    fun ⟨h, hs⟩ => ⟨h.strings, h.config, h.lanes, h.sponge, hs⟩⟩

/-! ### Each part depends on its registers only -/

section
variable {s t : State}

theorem StringsBounded.congr (h : StringsBounded s) (hv : t.v = s.v) (hmb : t.mb = s.mb) (hp : t.params = s.params) :
    StringsBounded t where
  v_canonical d := by rw [getV_congr hv]; exact h.v_canonical d
  v_len d := by rw [getV_congr hv, hp]; exact h.v_len d
  mb_canonical := by rw [hmb]; exact h.mb_canonical
  mb_len := by rw [hmb, hp]; exact h.mb_len

theorem ConfigConsistent.congr (h : ConfigConsistent s) (hwidth : t.width = s.width) (hw : t.w = s.w) (hl : t.l = s.l)
    (hoff : t.off = s.off) : ConfigConsistent t where
  width_eq := by rw [hwidth, hw]; exact h.width_eq
  w_eq := by rw [hw, hl]; exact h.w_eq
  l_le := by rw [hl]; exact h.l_le
  off_eq := by rw [hoff, hw]; exact h.off_eq

/-- "Within w bits" by coordinates (rule R28). -/
theorem lanesWithinWidth_iff : LanesWithinWidth s ↔ s.lanes.Within s.w.toNat := (Grid.within_iff _ _).symm

theorem LanesWithinWidth.congr (h : LanesWithinWidth s) (hlanes : t.lanes = s.lanes) (hw : t.w = s.w) :
    LanesWithinWidth t := by
  rw [lanesWithinWidth_iff] at h ⊢
  rwa [hlanes, hw]

theorem SpongeConsistent.congr (h : SpongeConsistent s) (hrate : t.rate = s.rate) (hsst : t.sst = s.sst)
    (hmb : t.mb = s.mb) (hwidth : t.width = s.width) (hrounds : t.rounds = s.rounds) (hlanes : t.lanes = s.lanes) :
    SpongeConsistent t where
  rate_lt := by rw [hrate]; exact h.rate_lt
  rate_zero := by rw [hrate, hsst]; exact h.rate_zero
  mb_empty := by rw [hsst, hmb]; exact h.mb_empty
  engine := by rw [hsst, hwidth, hrounds, hlanes]; exact h.engine

/-- Outside ABSORBING the sponge's part does not speak of the engine. -/
theorem SpongeConsistent.congr_free (h : SpongeConsistent s) (free : s.sst ≠ .absorbing) (hrate : t.rate = s.rate)
    (hsst : t.sst = s.sst) (hmb : t.mb = s.mb) : SpongeConsistent t where
  rate_lt := by rw [hrate]; exact h.rate_lt
  rate_zero := by rw [hrate, hsst]; exact h.rate_zero
  mb_empty := by rw [hsst, hmb]; exact h.mb_empty
  engine owned := absurd (hsst.symm.trans owned) free

/-- The two states agree on every register `DataInv` speaks of. -/
structure SameData (s t : State) : Prop where
  v : t.v = s.v
  mb : t.mb = s.mb
  params : t.params = s.params
  width : t.width = s.width
  rounds : t.rounds = s.rounds
  w : t.w = s.w
  l : t.l = s.l
  off : t.off = s.off
  lanes : t.lanes = s.lanes
  sst : t.sst = s.sst
  rate : t.rate = s.rate

theorem DataInv.congr (h : DataInv s) (k : SameData s t) : DataInv t where
  strings := h.strings.congr k.v k.mb k.params
  config := h.config.congr k.width k.w k.l k.off
  lanes := h.lanes.congr k.lanes k.w
  sponge := h.sponge.congr k.rate k.sst k.mb k.width k.rounds k.lanes

/-- A host access changes no register the invariant speaks of, between commands or while one runs. -/
theorem Inv.sameBut (h : Inv s) (k : SameBut s t) : Inv t := by
  obtain ⟨hd, hs⟩ := inv_iff.mp h
  have kd : SameData s t :=
    ⟨k.v, k.mb, k.params, k.width, k.rounds, k.w, k.l, k.off, k.lanes, k.sst, k.rate⟩
  refine inv_iff.mpr ⟨hd.congr kd, ?_, ?_, ?_⟩
  · rw [k.lastErr]; exact hs.not_internal
  · rw [k.lastErr, k.errSeen]; exact hs.err_seen
  · rw [k.busy]; exact hs.not_busy

end

section
variable {s : State}

theorem Inv.withQueue (h : Inv s) (q : List HostEvent) : Inv { s with queue := q } :=
  inv_iff.mpr ⟨(inv_iff.mp h).1.congr (by constructor <;> rfl), h.status.not_internal, h.status.err_seen, h.status.not_busy⟩

theorem DataInv.start (h : DataInv s) (q : List HostEvent) : DataInv (s.start q) :=
  h.congr (by constructor <;> rfl)

/-- Completion with success clears LASTERR and BUSY (rule R271). -/
theorem DataInv.afterSuccess (h : DataInv s) : Inv s.afterSuccess :=
  inv_iff.mpr ⟨h.congr (by constructor <;> rfl), by simp, by simp, by simp⟩

/-- An error sets ERRSEEN with LASTERR, and no command raises EINTERNAL (rules R267, R271 and R272). -/
theorem DataInv.afterError (h : DataInv s) {e : ErrorCode} (he : e ≠ .einternal) : Inv (s.afterError e) :=
  inv_iff.mpr ⟨h.congr (by constructor <;> rfl), by simpa using he, by simp, by simp⟩

/-! ### Reset -/

theorem resetWith_getV (p : Params) (d : VReg) : (State.resetWith p).getV d = .empty := by
  simp [State.getV, State.resetWith, Vector.get_eq_getElem]

/-- Whatever the parameters, reset meets the invariant (rule R301, assumption log 1). -/
theorem resetWith_inv (p : Params) : Inv (State.resetWith p) where
  strings :=
    { v_canonical := fun d => by rw [resetWith_getV]; decide
      v_len := fun d => by rw [resetWith_getV]; exact Nat.zero_le _
      mb_canonical := Nat.one_pos
      mb_len := Nat.zero_le _ }
  config := ⟨rfl, rfl, Nat.le_refl 6, rfl⟩
  lanes := lanesWithinWidth_iff.mpr (Grid.within_zero _)
  sponge := ⟨(by decide : (0#11).toNat < 1600), ⟨fun _ => rfl, fun _ => rfl⟩, fun _ => rfl, nofun⟩
  status := ⟨nofun, fun h => absurd rfl h, rfl⟩

theorem hardReset_inv (s : State) : Inv s.hardReset := by
  obtain ⟨hd, hs⟩ := inv_iff.mp (resetWith_inv s.params)
  exact inv_iff.mpr ⟨hd.congr (by constructor <;> rfl), hs.not_internal, hs.err_seen, hs.not_busy⟩

/-- Settles O18: reset meets the invariant with any parameters, those of `State.reset` included. -/
theorem resetMeetsTheInvariant : Obligations.ResetMeetsTheInvariant := resetWith_inv Config.params

/-! ### The effects of commands -/

theorem params_bvMaxBits_ge (p : Params) : 1600 ≤ p.bvMaxBits := Nat.le_add_left _ _

theorem ConfigConsistent.w_le (h : ConfigConsistent s) : s.w.toNat ≤ 64 := by
  rw [h.w_eq]
  exact Nat.pow_le_pow_right (n := 2) (by omega) h.l_le

/-- A string that fits the configured engine fits a V register (rules R13 and R29). -/
theorem ConfigConsistent.width_le (h : ConfigConsistent s) : s.width.toNat ≤ s.params.bvMaxBits := by
  have := h.width_eq
  have := h.w_le
  have := params_bvMaxBits_ge s.params
  omega

/-- A write of a canonical string of a legal length to a V register (rules R26 and R27). -/
theorem DataInv.setV (h : DataInv s) (d : VReg) {x : BitStr} (hcanon : x.val < 2 ^ x.len)
    (hlen : x.len ≤ s.params.bvMaxBits) : DataInv (s.setV d x) where
  strings :=
    { v_canonical := fun k => by
        by_cases hk : k = d
        · subst hk; simpa using hcanon
        · rw [getV_setV_ne s d k x hk]; exact h.strings.v_canonical k
      v_len := fun k => by
        by_cases hk : k = d
        · subst hk; simpa using hlen
        · rw [getV_setV_ne s d k x hk]; exact h.strings.v_len k
      mb_canonical := h.strings.mb_canonical
      mb_len := h.strings.mb_len }
  config := h.config.congr rfl rfl rfl rfl
  lanes := h.lanes.congr rfl rfl
  sponge := h.sponge.congr rfl rfl rfl rfl rfl rfl

theorem DataInv.setResult (h : DataInv s) (u : Word) : DataInv (s.setResult u) :=
  h.congr (by constructor <;> rfl)

/-- A P command that writes the lanes keeps them within w bits, and runs outside ABSORBING (rules R28 and R176). -/
theorem DataInv.setLanes (h : DataInv s) (free : s.sst ≠ .absorbing) {a : Grid} (ha : a.Within s.w.toNat) :
    DataInv (s.setLanes a) :=
  ⟨h.strings.congr rfl rfl rfl, h.config.congr rfl rfl rfl rfl, lanesWithinWidth_iff.mpr ha,
    h.sponge.congr_free free rfl rfl rfl⟩

theorem DataInv.setLaneAt (h : DataInv s) (free : s.sst ≠ .absorbing) {i : Nat} (hi : i ≤ 24) {u : Word}
    (hu : u.toNat < 2 ^ s.w.toNat) : DataInv (s.setLaneAt i u) where
  strings := h.strings.congr rfl rfl rfl
  config := h.config.congr rfl rfl rfl rfl
  lanes j hj := by
    rw [laneAt_setLaneAt s i j u (by omega)]
    split
    · exact hu
    · exact h.lanes j hj
  sponge := h.sponge.congr_free free rfl rfl rfl

/-- S.ABSORB's write: a canonical message of a legal length, in ABSORBING (rules R26, R30 and R211). -/
theorem DataInv.setMb (h : DataInv s) (owned : s.sst = .absorbing) {x : BitStr} (hcanon : x.val < 2 ^ x.len)
    (hlen : x.len ≤ s.params.mbMaxBits) : DataInv (s.setMb x) where
  strings := ⟨h.strings.v_canonical, h.strings.v_len, hcanon, hlen⟩
  config := h.config.congr rfl rfl rfl rfl
  lanes := h.lanes.congr rfl rfl
  sponge := ⟨h.sponge.rate_lt, h.sponge.rate_zero, fun free => absurd owned free, h.sponge.engine⟩

/-- Every legal width gives consistent W, L and OFF (rules R29, R140 and R141). -/
theorem configure_configConsistent (s : State) {b : Nat} (hb : b ∈ legalWidths) (nr : Nat) :
    ConfigConsistent (s.configure b nr) := by
  have key : ∀ b ∈ legalWidths, (BitVec.ofNat 11 b).toNat = 25 * (BitVec.ofNat 7 (b / 25)).toNat ∧
      (BitVec.ofNat 7 (b / 25)).toNat = 2 ^ (BitVec.ofNat 3 (Nat.log2 (b / 25))).toNat ∧
      (BitVec.ofNat 3 (Nat.log2 (b / 25))).toNat ≤ 6 ∧ (BitVec.ofNat 7 (b / 25)).toNat = b / 25 := by decide
  obtain ⟨hwidth, hw, hl, hw'⟩ := key b hb
  exact ⟨hwidth, hw, hl, by rw [configure_off, configure_w, hw']; rfl⟩

theorem configure_lanesWithinWidth (s : State) (b nr : Nat) : LanesWithinWidth (s.configure b nr) :=
  lanesWithinWidth_iff.mpr (Grid.within_zero _)

theorem DataInv.configure (h : DataInv s) (free : s.sst ≠ .absorbing) {b : Nat} (hb : b ∈ legalWidths) (nr : Nat) :
    DataInv (s.configure b nr) :=
  ⟨h.strings.congr rfl rfl rfl, configure_configConsistent s hb nr, configure_lanesWithinWidth s b nr,
    h.sponge.congr_free free rfl rfl rfl⟩

/-- P.PERMUTE keeps the lanes within w bits (rule R156). -/
theorem DataInv.permuted_within (h : DataInv s) : s.permuted.Within s.w.toNat := by
  have hlanes := lanesWithinWidth_iff.mp h.lanes
  rw [h.config.w_eq] at hlanes
  rw [State.permuted, h.config.w_eq]
  exact permute_within h.config.l_le _ _ hlanes

/-- S.INIT: a rate of 1 to 1599, the empty message and a cleared engine at 1600 bits (rule R210). -/
theorem DataInv.startSponge (h : DataInv s) {c : Nat} (pos : 0 < c) (lt1600 : c < 1600) :
    DataInv ((((s.configure 1600 24).setRate (1600 - c)).setMb .empty).setSst .absorbing) where
  strings := ⟨h.strings.v_canonical, h.strings.v_len, Nat.one_pos, Nat.zero_le _⟩
  config := (configure_configConsistent s (by decide) 24).congr rfl rfl rfl rfl
  lanes := (configure_lanesWithinWidth s 1600 24).congr rfl rfl
  sponge := by
    have hrate : (BitVec.ofNat 11 (1600 - c)).toNat = 1600 - c := by
      rw [BitVec.toNat_ofNat]; exact Nat.mod_eq_of_lt (by omega)
    have hne : BitVec.ofNat 11 (1600 - c) ≠ 0#11 := fun h0 => by
      have := congrArg BitVec.toNat h0
      rw [hrate, BitVec.toNat_ofNat] at this
      omega
    exact
      { rate_lt := by simp only [setSst_rate, setMb_rate, setRate_rate, hrate]; omega
        rate_zero := ⟨fun h0 => absurd h0 hne, nofun⟩
        mb_empty := fun free => absurd rfl free
        engine := fun _ => ⟨rfl, rfl, rfl⟩ }

/-- S.FINAL: the digest goes to a V register, MB is empty, and the 64-bit lanes may hold anything (rule R212). -/
theorem DataInv.endSponge (h : DataInv s) (owned : s.sst = .absorbing) (d : VReg) {x : BitStr} (a : Grid)
    (hcanon : x.val < 2 ^ x.len) (hlen : x.len ≤ s.params.bvMaxBits) :
    DataInv ((((s.setV d x).setLanes a).setMb .empty).setSst .used) where
  strings :=
    have hV := (h.setV d hcanon hlen).strings
    ⟨hV.v_canonical, hV.v_len, Nat.one_pos, Nat.zero_le _⟩
  config := h.config.congr rfl rfl rfl rfl
  lanes := by
    have hw : s.w.toNat = 64 := by
      have hwidth := h.config.width_eq
      rw [(h.sponge.engine owned).1] at hwidth
      simp at hwidth
      omega
    refine lanesWithinWidth_iff.mpr ?_
    simpa [hw] using grid_within_64 a
  sponge :=
    have hne : s.rate ≠ 0#11 := fun h0 => by simpa [owned] using h.sponge.rate_zero.mp h0
    ⟨h.sponge.rate_lt, ⟨fun h0 => absurd h0 hne, nofun⟩, fun _ => rfl, nofun⟩

/-- Every command's effect keeps the invariant's registers. -/
theorem Effect.dataInv {i : Instr} {u : State} (hu : Effect s i u) (h : DataInv s) : DataInv u := by
  have canon := h.strings.v_canonical
  have len := h.strings.v_len
  cases hu with
  | bvZero fits => exact h.setV _ (Nat.two_pow_pos _) fits
  | bvPush _ fits => exact h.setV _ (BitStr.append_lt (canon _) (BitStr.raw_lt _ _)) fits
  | bvChlen fits => exact h.setV _ (BitStr.changeLength_lt _ _) fits
  | bvAppend fits => exact h.setV _ (BitStr.append_lt (canon _) (canon _)) fits
  | bvShl fits => exact h.setV _ (BitStr.leftShift_lt (canon _) _) fits
  | @bvShr vd =>
    have := len vd
    exact h.setV _ (BitStr.rightShift_lt (canon _) _) (by rw [BitStr.rightShift_len]; omega)
  | @bvExtract vd vs x slice =>
    obtain ⟨h1, h2, h3, rfl⟩ := BitStr.extract_eq_some slice
    have := len vs
    exact h.setV _ (BitStr.changeLength_lt _ _) (by rw [BitStr.changeLength_len]; omega)
  | bvCopy => exact h.setV _ (canon _) (len _)
  | bvLen | bvReadw | pRdlane => exact h.setResult _
  | pInit free legal _ => exact h.configure free legal _
  | pPermute free => exact h.setLanes free h.permuted_within
  | pWrlane free within le24 => exact h.setLaneAt free le24 within
  | pXorin free _ => exact h.setLanes free (xorIn_within (lanesWithinWidth_iff.mp h.lanes) _)
  | pExtract _ fits => exact h.setV _ (extractOut_lt _ _ _) (fits.trans h.config.width_le)
  | sInit pos lt1600 => exact h.startSponge pos lt1600
  | sAbsorb owned fits => exact h.setMb owned (BitStr.append_lt h.strings.mb_canonical (canon _)) fits
  | sFinal owned fits => exact h.endSponge owned _ _ (squeeze_lt _ _ _) fits

theorem ErrorCode.IsCommandError.ne_einternal {e : ErrorCode} (h : e.IsCommandError) : e ≠ .einternal := by
  rcases h with rfl | rfl | rfl | rfl <;> decide

/-! ### A step -/

theorem DataInv.inv_of_exec {i : Instr} {t : State} (h : DataInv s) (ht : exec i s = .next t) : Inv t := by
  rcases exec_next ht with ⟨e, he, rfl⟩ | ⟨u, hu, rfl⟩
  · exact h.afterError he.ne_einternal
  · exact (hu.dataInv h).afterSuccess

/-- A CMD value that is no command raises EILLEGAL, which is not EINTERNAL (rule R262). -/
theorem DataInv.inv_of_execCmd {u : Word} {t : State} (h : DataInv s) (ht : execCmd u s = .next t) : Inv t := by
  cases hd : decode u with
  | ok i => exact h.inv_of_exec ((execCmd_of_ok hd s).symm.trans ht)
  | error e =>
    rw [execCmd_of_error hd] at ht
    cases ht
    exact h.afterError nofun

theorem DataInv.inv_of_runToCompletion {u : Word} {ops : List HostOp} {t : State} (h : DataInv s)
    (ht : runToCompletion u ops s = .next t) : Inv t := by
  unfold runToCompletion at ht
  split at ht
  · next t' hcmd => exact (h.inv_of_execCmd hcmd).sameBut (busyAccesses_next ht)
  · cases ht
  · cases ht

theorem inv_of_abandonByReset {ops : List HostOp} {t : State} (ht : abandonByReset ops s = .next t) : Inv t := by
  unfold abandonByReset at ht
  split at ht
  · cases ht; exact hardReset_inv _
  · cases ht
  · cases ht

theorem DataInv.inv_of_cmdWrite {u : Word} {t : State} (h : DataInv s) (ht : cmdWrite u s = .next t) : Inv t := by
  unfold cmdWrite at ht
  split at ht
  · exact inv_of_abandonByReset ht
  · exact (h.start _).inv_of_runToCompletion ht

theorem Inv.of_hostStep {op : HostOp} {t : State} (h : Inv s) (ht : hostStep op s = .next t) : Inv t := by
  cases op with
  | reset => cases ht; exact hardReset_inv _
  | read off size =>
    simp only [hostStep] at ht
    split at ht
    · exact h.sameBut (idleRead_next ht)
    · cases ht
  | write off size u =>
    simp only [hostStep] at ht
    split at ht
    · split at ht
      · exact (inv_iff.mp h).1.inv_of_cmdWrite ht
      · cases ht; exact h.sameBut (sameBut_windowWrite _ _ _)
    · cases ht

end

/-- Settles O19: the idle block keeps its state, and the next host operation keeps the invariant. -/
theorem stepKeepsTheInvariant : Obligations.StepKeepsTheInvariant := by
  intro s t h ht
  cases hq : s.queue with
  | nil =>
    rw [step, stepQueue, hq] at ht
    cases ht
    exact h
  | cons e q => exact (h.withQueue q).of_hostStep ((step_cons hq).symm.trans ht)

end Sys2Proof.Machine
end

section
/-! PROOFS. No command reads STATUS or pc: two runs that differ there take the same branches and write the same values
(rules R33, R37 and R271). -/

namespace Sys2Proof.Machine

/-- The state with other values of LASTERR, ERRSEEN, BUSY and pc. -/
def State.withStatus (s : State) (e : ErrorCode) (seen busy : Bool) (n : Nat) : State :=
  { s with lastErr := e, errSeen := seen, busy := busy, pc := n }

/-- The two results are next states that differ in ERRSEEN and pc only, the second with pc `n`. -/
inductive SameButErrSeen (n : Nat) : Result → Result → Prop where
  | next (t : State) (seen : Bool) : SameButErrSeen n (.next t) (.next { t with errSeen := seen, pc := n })

section
variable {s : State} {e : ErrorCode} {seen busy : Bool} {n : Nat}

theorem SameButErrSeen.succeed (u : State) :
    SameButErrSeen (n + 1) (succeed u) (succeed (u.withStatus e seen busy n)) := by
  rw [succeed_eq, succeed_eq]
  exact .next u.afterSuccess seen

theorem SameButErrSeen.fail {c : ErrorCode} (hc : c.IsCommandError) :
    SameButErrSeen (n + 1) (fail c s) (fail c (s.withStatus e seen busy n)) := by
  rw [fail_eq hc.ne_ok, fail_eq hc.ne_ok]
  exact .next (s.afterError c) true

theorem SameButErrSeen.ite {c : Prop} [Decidable c] {a b a' b' : Result} (ha : SameButErrSeen n a a')
    (hb : SameButErrSeen n b b') : SameButErrSeen n (if c then a else b) (if c then a' else b') := by
  split
  · exact ha
  · exact hb

theorem SameButErrSeen.unlessAbsorbing {k k' : Result} (hk : SameButErrSeen (n + 1) k k') :
    SameButErrSeen (n + 1) (unlessAbsorbing s k) (unlessAbsorbing (s.withStatus e seen busy n) k') :=
  .ite (.fail isCommandError_estate) hk

theorem SameButErrSeen.whileAbsorbing {k k' : Result} (hk : SameButErrSeen (n + 1) k k') :
    SameButErrSeen (n + 1) (whileAbsorbing s k) (whileAbsorbing (s.withStatus e seen busy n) k') :=
  .ite hk (.fail isCommandError_estate)

end

/-- Each command's guards, operands and writes are those of the state without STATUS and pc. -/
theorem exec_withStatus (i : Instr) (s : State) (e : ErrorCode) (seen busy : Bool) (n : Nat) :
    SameButErrSeen (n + 1) (exec i s) (exec i (s.withStatus e seen busy n)) := by
  have cap := isCommandError_ecapacity
  have val := isCommandError_einval
  have range := isCommandError_erange
  cases i with
  | bvZero vd => rw [exec, exec, execBvZero, execBvZero]; exact .ite (.succeed _) (.fail cap)
  | bvPush vd imm8 => rw [exec, exec, execBvPush, execBvPush]; exact .ite (.fail val) (.ite (.succeed _) (.fail cap))
  | bvChlen vd => rw [exec, exec, execBvChlen, execBvChlen]; exact .ite (.succeed _) (.fail cap)
  | bvAppend vd vs => rw [exec, exec, execBvAppend, execBvAppend]; exact .ite (.succeed _) (.fail cap)
  | bvShl vd => rw [exec, exec, execBvShl, execBvShl]; exact .ite (.succeed _) (.fail cap)
  | bvShr vd => exact .succeed (s.setV vd _)
  | bvExtract vd vs =>
    rw [exec, exec]
    cases hx : (s.getV vs).extract s.opaNat s.opbNat with
    | some x =>
      rw [execBvExtract_of_some hx, execBvExtract_of_some (s := s.withStatus e seen busy n) hx]
      exact .succeed _
    | none =>
      rw [execBvExtract_of_none hx, execBvExtract_of_none (s := s.withStatus e seen busy n) hx]
      exact .fail range
  | bvCopy vd vs => exact .succeed (s.setV vd _)
  | bvLen vs => exact .succeed (s.setResult _)
  | bvReadw vs => exact .ite (.fail range) (.succeed (s.setResult _))
  | pInit => exact .unlessAbsorbing (.ite (.fail val) (.ite (.fail val) (.succeed _)))
  | pPermute => exact .unlessAbsorbing (.succeed _)
  | pRdlane => exact .unlessAbsorbing (.ite (.fail range) (.succeed _))
  | pWrlane => exact .unlessAbsorbing (.ite (.fail val) (.ite (.fail range) (.succeed _)))
  | pXorin vs => exact .unlessAbsorbing (.ite (.fail range) (.succeed _))
  | pExtract vd => exact .unlessAbsorbing (.ite (.fail range) (.succeed _))
  | sInit => exact .ite (.fail val) (.succeed _)
  | sAbsorb vs => exact .whileAbsorbing (.ite (.succeed _) (.fail cap))
  | sFinal vd => exact .whileAbsorbing (.ite (.succeed _) (.fail cap))

/-- Settles O29: the second run's next state is the first's with its own ERRSEEN and pc. -/
theorem noCommandReadsStatus : Obligations.NoCommandReadsStatus := by
  intro i s t e seen busy n h
  have hsame := exec_withStatus i s e seen busy n
  rw [h] at hsame
  generalize hr : exec i (s.withStatus e seen busy n) = r at hsame
  cases hsame with
  | next _ seen' => exact ⟨_, hr, rfl⟩

end Sys2Proof.Machine
end

section
/-! PROOFS. The fields of STATUS and CONFIG (rules R31, R33 to R35 and R261): a slice of the word is found by walking down
its parts. -/

namespace Sys2Proof.Machine

section
variable (s : State)

/-- A slice of STATUS as a slice of its parts, whose widths the library's lemmas on `++` read off. -/
theorem statusWord_slice (a n : Nat) : s.statusWord.extractLsb' a n =
    (BitVec.ofNat 32 s.pc ++ 0#22 ++ s.sst.code ++ s.lastErr.code ++ 0#2 ++ BitVec.ofBool s.errSeen ++
      BitVec.ofBool s.busy).extractLsb' a n := rfl

/-- A slice of CONFIG as a slice of its parts. -/
theorem configWord_slice (a n : Nat) : s.configWord.extractLsb' a n =
    (0#13 ++ s.rate ++ 0#5 ++ s.l ++ 0#1 ++ s.w ++ s.rounds ++ 0#5 ++ s.width).extractLsb' a n := rfl

theorem statusWord_flags : s.statusWord.getLsbD 0 = s.busy ∧ s.statusWord.getLsbD 1 = s.errSeen := by
  have hbusy : s.statusWord.extractLsb' 0 1 = BitVec.ofBool s.busy := by
    simp (disch := omega) [statusWord_slice, BitVec.extractLsb'_append_eq_of_add_le, -Nat.reduceAdd]
  have herrSeen : s.statusWord.extractLsb' 1 1 = BitVec.ofBool s.errSeen := by
    simp (disch := omega) [statusWord_slice, BitVec.extractLsb'_append_eq_of_le, BitVec.extractLsb'_append_eq_of_add_le,
      -Nat.reduceAdd]
  constructor
  · simpa using congrArg (·.getLsbD 0) hbusy
  · simpa using congrArg (·.getLsbD 0) herrSeen

/-- The fields of STATUS above its two flags (rules R33 and R34). -/
theorem statusWord_fields :
    s.statusWord.extractLsb' 2 2 = 0#2 ∧ s.statusWord.extractLsb' 4 4 = s.lastErr.code ∧
      s.statusWord.extractLsb' 8 2 = s.sst.code ∧ s.statusWord.extractLsb' 10 22 = 0#22 ∧
      s.statusWord.extractLsb' 32 32 = BitVec.ofNat 32 s.pc := by
  simp (disch := omega) [statusWord_slice, BitVec.extractLsb'_append_eq_of_le, BitVec.extractLsb'_append_eq_of_add_le,
    -Nat.reduceAdd]

/-- The fields of CONFIG (rule R35). -/
theorem configWord_fields :
    s.configWord.extractLsb' 0 11 = s.width ∧ s.configWord.extractLsb' 11 5 = 0#5 ∧
      s.configWord.extractLsb' 16 8 = s.rounds ∧ s.configWord.extractLsb' 24 7 = s.w ∧
      s.configWord.extractLsb' 31 1 = 0#1 ∧ s.configWord.extractLsb' 32 3 = s.l ∧
      s.configWord.extractLsb' 35 5 = 0#5 ∧ s.configWord.extractLsb' 40 11 = s.rate ∧
      s.configWord.extractLsb' 51 13 = 0#13 := by
  simp (disch := omega) [configWord_slice, BitVec.extractLsb'_append_eq_of_le, BitVec.extractLsb'_append_eq_of_add_le,
    -Nat.reduceAdd]

variable {s}

/-- LASTERR shows the code of the error (rule R261). -/
theorem statusWord_lastErr_of {e : ErrorCode} (h : s.lastErr = e) : s.statusWord.extractLsb' 4 4 = e.code := by
  obtain ⟨-, hlastErr, -⟩ := statusWord_fields s
  rw [hlastErr, h]

/-- SST shows the value of the sponge state (rule R31). -/
theorem statusWord_sst_of {x : SpongeState} (h : s.sst = x) : s.statusWord.extractLsb' 8 2 = x.code := by
  obtain ⟨-, -, hsst, -⟩ := statusWord_fields s
  rw [hsst, h]

end

/-- Settles O15: the fields of the two words, and the codes of the two enumerations. -/
theorem statusAndConfigFields : Obligations.StatusAndConfigFields := by
  intro s
  obtain ⟨hbusy, herrSeen⟩ := statusWord_flags s
  obtain ⟨hres2, hlastErr, hsst, hres10, hpc⟩ := statusWord_fields s
  obtain ⟨hwidth, hres11, hrounds, hw, hres31, hl, hres35, hrate, hres51⟩ := configWord_fields s
  have hcmdcnt : (s.statusWord.extractLsb' 32 32).toNat = s.pc % 2 ^ 32 := by rw [hpc, BitVec.toNat_ofNat]
  exact ⟨hbusy, herrSeen, hres2, hlastErr, hsst, hres10, hcmdcnt, hwidth, hres11, hrounds, hw, hres31, hl, hres35, hrate,
    hres51, statusWord_lastErr_of, statusWord_lastErr_of, statusWord_lastErr_of, statusWord_lastErr_of,
    statusWord_lastErr_of, statusWord_lastErr_of, statusWord_lastErr_of, statusWord_sst_of, statusWord_sst_of,
    statusWord_sst_of⟩

end Sys2Proof.Machine
end

section
/-! PROOFS. The accesses to the window between commands (rules R36, R61, R62, R64 and R72). -/

namespace Sys2Proof.Machine

section
variable {s : State}

/-- The aligned offsets of the window: its six registers and the reserved ones (rule R61). -/
theorem aligned_offset_cases {off : Nat} (h : off % 8 = 0) :
    off = 0x00 ∨ off = 0x08 ∨ off = 0x10 ∨ off = 0x18 ∨ off = 0x20 ∨ off = 0x28 ∨ 0x30 ≤ off := by
  omega

theorem windowRead_status (h : s.lastErr ≠ .einternal) : s.windowRead 0x20 = .ok s.statusWord := by
  simp [State.windowRead, h]

/-- A reserved offset shows 0 (rule R64). -/
theorem windowRead_reserved {off : Nat} (h : 0x30 ≤ off) : s.windowRead off = .ok 0#64 := by
  simp [State.windowRead, show off ≠ 0x00 by omega, show off ≠ 0x08 by omega, show off ≠ 0x18 by omega,
    show off ≠ 0x20 by omega, show off ≠ 0x28 by omega]

/-- Only OPA and OPB store a value (rules R62 and R64). -/
theorem windowWrite_ignored {off : Nat} (h : 0x10 ≤ off) (u : Word) : s.windowWrite off u = s := by
  simp [State.windowWrite, show off ≠ 0x00 by omega, show off ≠ 0x08 by omega]

theorem idleRead_of_windowRead {off : Nat} {x : Word} (h : s.windowRead off = .ok x) :
    idleRead off s = .next (s.pushRead x) := by
  simp [idleRead, h]

/-- What a read between commands returns at each aligned offset (rules R36, R61 and R64). -/
theorem idleRead_returns (herr : s.lastErr ≠ .einternal) {off : Nat} (hal : off % 8 = 0) :
    ∃ x, idleRead off s = .next (s.pushRead x) ∧
      (off = 0x00 → x = s.opa) ∧ (off = 0x08 → x = s.opb) ∧ (off = 0x10 → x = 0#64) ∧ (off = 0x18 → x = s.result) ∧
      (off = 0x20 → x = s.statusWord) ∧ (off = 0x28 → x = s.configWord) ∧ (0x30 ≤ off → x = 0#64) := by
  rcases aligned_offset_cases hal with rfl | rfl | rfl | rfl | rfl | rfl | hres
  · exact ⟨s.opa, rfl, by simp⟩
  · exact ⟨s.opb, rfl, by simp⟩
  · exact ⟨0#64, rfl, by simp⟩
  · exact ⟨s.result, rfl, by simp⟩
  · exact ⟨s.statusWord, idleRead_of_windowRead (windowRead_status herr), by simp⟩
  · exact ⟨s.configWord, rfl, by simp⟩
  · exact ⟨0#64, idleRead_of_windowRead (windowRead_reserved hres), by grind⟩

theorem step_read {off : Nat} {a : Arrival} {q : List HostEvent} (hal : off % 8 = 0) (hlt : off < 256)
    (hq : s.queue = ⟨.read off 8, a⟩ :: q) : step s = idleRead off { s with queue := q } := by
  simp [step_cons hq, hostStep, supported, hal, hlt]

theorem step_write {off : Nat} {x : Word} {a : Arrival} {q : List HostEvent} (hal : off % 8 = 0) (hlt : off < 256)
    (hcmd : off ≠ 0x10) (hq : s.queue = ⟨.write off 8 x, a⟩ :: q) :
    step s = .next ({ s with queue := q }.windowWrite off x) := by
  simp [step_cons hq, hostStep, supported, hal, hlt, hcmd]

end

/-- Settles O6: with nothing overlapping, the CMD write is its command. -/
theorem stepRunsTheDecodedCommand : Obligations.StepRunsTheDecodedCommand := by
  intro s u a q i hq hn hd
  rw [step_cmdWrite hq, cmdWrite_alone (s := { s with queue := q }) hn, execCmd_of_ok hd]
  rfl

/-- Settles O12: the read by offset, and the three kinds of write. -/
theorem accessesBetweenCommands : Obligations.AccessesBetweenCommands := by
  intro s off a q hal hlt
  refine ⟨fun hq herr => ?read, fun x hq => ⟨?opa, ?opb, ?ignored⟩⟩
  case read =>
    rw [step_read hal hlt hq]
    exact idleRead_returns (s := { s with queue := q }) herr hal
  case opa =>
    rintro rfl
    exact step_write hal hlt (by omega) hq
  case opb =>
    rintro rfl
    exact step_write hal hlt (by omega) hq
  case ignored =>
    intro h
    rw [step_write hal hlt (by omega) hq, windowWrite_ignored (by omega)]

end Sys2Proof.Machine
end

section
/-! PROOFS. The accesses performed while a command runs (rules R34, R36, R62, R64 and R311). -/

namespace Sys2Proof.Machine

section
variable {b s t : State}

theorem append_ofBool_or_one {n : Nat} (x : BitVec n) (c : Bool) :
    (x ++ BitVec.ofBool c) ||| 1#(n + 1) = x ++ BitVec.ofBool true := by
  ext i hi
  rcases Nat.eq_zero_or_pos i with rfl | hpos
  · simp [BitVec.getElem_append]
  · simp [BitVec.getElem_append, show i ≠ 0 by omega]

/-- A running command shows as BUSY, bit 0 of STATUS (rule R34). -/
theorem statusWord_start (s : State) (q : List HostEvent) : (s.start q).statusWord = s.statusWord ||| 1#64 :=
  (append_ofBool_or_one _ s.busy).symm

@[simp] theorem busyRead_opa : busyRead b 0x00 s = .next (s.pushRead s.opa) := rfl
@[simp] theorem busyRead_opb : busyRead b 0x08 s = .next (s.pushRead s.opb) := rfl
@[simp] theorem busyRead_cmd : busyRead b 0x10 s = .next (s.pushRead 0#64) := rfl

/-- RESULT and CONFIG show a free value, and the next one is fresh (assumption log 5). -/
@[simp] theorem busyRead_result : busyRead b 0x18 s =
    .next ({ s with freeCount := s.freeCount + 1 }.pushRead (Config.unspecifiedRead s.freeCount)) := rfl
@[simp] theorem busyRead_config : busyRead b 0x28 s =
    .next ({ s with freeCount := s.freeCount + 1 }.pushRead (Config.unspecifiedRead s.freeCount)) := rfl

theorem busyRead_status (h : b.lastErr ≠ .einternal) : busyRead b 0x20 s = .next (s.pushRead b.statusWord) := by
  simp [busyRead, windowRead_status h]

theorem busyRead_reserved {off : Nat} (h : 0x30 ≤ off) : busyRead b off s = .next (s.pushRead 0#64) := by
  have hread : busyRead b off s = idleRead off s := by
    simp [busyRead, show off ≠ 0x18 by omega, show off ≠ 0x28 by omega, show off ≠ 0x20 by omega]
  exact hread.trans (idleRead_of_windowRead (windowRead_reserved h))

/-- What a read returns while the command that started in `b` runs, at each aligned offset (rule R311). -/
theorem busyRead_returns (herr : b.lastErr ≠ .einternal) {off : Nat} (hal : off % 8 = 0) (t : State) :
    ∃ x n, busyRead b off t = .next { t with hostReads := t.hostReads ++ [x], freeCount := n } ∧
      (off = 0x00 → x = t.opa) ∧ (off = 0x08 → x = t.opb) ∧ (off = 0x20 → x = b.statusWord) ∧
      (off = 0x10 ∨ 0x30 ≤ off → x = 0#64) ∧ (off = 0x18 ∨ off = 0x28 → n = t.freeCount + 1) ∧
      (off ≠ 0x18 → off ≠ 0x28 → n = t.freeCount) := by
  rcases aligned_offset_cases hal with rfl | rfl | rfl | rfl | rfl | rfl | hres
  · exact ⟨t.opa, t.freeCount, busyRead_opa, by simp⟩
  · exact ⟨t.opb, t.freeCount, busyRead_opb, by simp⟩
  · exact ⟨0#64, t.freeCount, busyRead_cmd, by simp⟩
  · exact ⟨Config.unspecifiedRead t.freeCount, t.freeCount + 1, busyRead_result, by simp⟩
  · exact ⟨b.statusWord, t.freeCount, busyRead_status herr, by simp⟩
  · exact ⟨Config.unspecifiedRead t.freeCount, t.freeCount + 1, busyRead_config, by simp⟩
  · exact ⟨0#64, t.freeCount, busyRead_reserved hres, by grind⟩

theorem runToCompletion_of_execCmd {u : Word} {ops : List HostOp} (h : execCmd u s = .next t) :
    runToCompletion u ops s = busyAccesses s ops t := by
  simp [runToCompletion, h]

/-- One more access behind those performed while a command runs sees what they and the command left. -/
theorem runToCompletion_append_single {u : Word} {ops : List HostOp} {op : HostOp}
    (h : runToCompletion u ops s = .next t) : runToCompletion u (ops ++ [op]) s = busyAccess s op t := by
  unfold runToCompletion at h
  split at h
  · next t' hcmd => rw [runToCompletion_of_execCmd hcmd, busyAccesses_append_single, h]
  · cases h
  · cases h

/-- One more supported access behind a CMD write and what overlaps its command. -/
theorem step_append_single {u : Word} {a : Arrival} {ops : List HostOp} {op : HostOp} {q : List HostEvent}
    (hops : ∀ o ∈ ops, o.isSupported = true ∧ o.isCmdWrite = false) (hop : op.isSupported = true ∧ op.isCmdWrite = false)
    (hn : NothingOverlaps q)
    (h : step { s with queue := ⟨.write 0x10 8 u, a⟩ :: ((ops.map fun o => ⟨o, .busy⟩) ++ q) } = .next t) :
    step { s with queue := ⟨.write 0x10 8 u, a⟩ :: ((ops.map fun o => ⟨o, .busy⟩) ++ ⟨op, .busy⟩ :: q) } =
      busyAccess (s.start q) op t := by
  rw [step_of_busy hops hn rfl] at h
  have hall : ∀ o ∈ ops ++ [op], o.isSupported = true ∧ o.isCmdWrite = false := by
    intro o ho
    rcases List.mem_append.mp ho with ho | ho
    · exact hops o ho
    · rw [List.mem_singleton.mp ho]; exact hop
  rw [step_of_busy (u := u) (a := a) hall hn (by simp)]
  exact runToCompletion_append_single h

/-- A CMD write, its command, and the accesses performed while the command runs, on what the command left. -/
theorem step_of_execCmd {u : Word} {a : Arrival} {ops : List HostOp} {q : List HostEvent}
    (hops : ∀ o ∈ ops, o.isSupported = true ∧ o.isCmdWrite = false) (hn : NothingOverlaps q)
    (hq : s.queue = ⟨.write 0x10 8 u, a⟩ :: ((ops.map fun o => ⟨o, .busy⟩) ++ q))
    (hcmd : execCmd u (s.start q) = .next t) : step s = busyAccesses (s.start q) ops t :=
  (step_of_busy hops hn hq).trans (runToCompletion_of_execCmd hcmd)

/-- No CMD value's command writes what the host writes or reads (rules R21 and R22). -/
theorem sameHostSide_of_execCmd {u : Word} (h : execCmd u s = .next t) : SameHostSide s t := by
  rcases execCmd_ends u s with hr | hr
  · cases hr.symm.trans h; exact ⟨rfl, rfl, rfl, rfl, rfl, rfl⟩
  · rcases hr.cases with ⟨e, -, hr⟩ | ⟨w, hw, hr⟩
    · cases hr.symm.trans h; exact ⟨rfl, rfl, rfl, rfl, rfl, rfl⟩
    · cases hr.symm.trans h; exact hw.host

end

/-- Settles O8: the two writes and the two reads behind them, performed in order on what the command left. -/
theorem operandWritesDuringACommand : Obligations.OperandWritesDuringACommand := by
  intro s t u x y a q hn hcmd
  refine ⟨fun hq => ?writes, fun hq => ?reads⟩
  case writes =>
    exact step_of_execCmd (ops := [.write 0x00 8 x, .write 0x08 8 y])
      (by simp [HostOp.isSupported, HostOp.isCmdWrite, supported]) hn hq hcmd
  case reads =>
    obtain ⟨-, -, -, -, hreads, -⟩ := sameHostSide_of_execCmd hcmd
    have hrun : step s = .next { t with opa := x, opb := y, hostReads := t.hostReads ++ [x] ++ [y] } :=
      step_of_execCmd (ops := [.write 0x00 8 x, .write 0x08 8 y, .read 0x00 8, .read 0x08 8])
        (by simp [HostOp.isSupported, HostOp.isCmdWrite, supported]) hn hq hcmd
    simpa [hreads] using hrun

/-- Settles O9: the six reads performed in order on what the command left, and one access behind any others. -/
theorem readsDuringACommand : Obligations.ReadsDuringACommand := by
  refine ⟨?row, ?behind⟩
  case row =>
    intro s t u a q _ herr hq hn hcmd
    obtain ⟨hopa, -, -, -, hreads, hfree⟩ := sameHostSide_of_execCmd hcmd
    have hstep := step_of_execCmd
      (ops := [.read 0x20 8, .read 0x18 8, .read 0x28 8, .read 0x00 8, .read 0x10 8, .read 0x30 8])
      (by simp [HostOp.isSupported, HostOp.isCmdWrite, supported]) hn hq hcmd
    have hstatus : ∀ t : State, busyRead (s.start q) 0x20 t = .next (t.pushRead (s.statusWord ||| 1#64)) := fun t => by
      rw [busyRead_status (b := s.start q) herr, statusWord_start]
    refine ⟨Config.unspecifiedRead t.freeCount, Config.unspecifiedRead (t.freeCount + 1), hstep.trans ?_⟩
    simp [busyAccesses, busyAccess, hstatus, busyRead_reserved, State.pushRead, hopa, hreads, hfree]
  case behind =>
    intro s t u a ops q off hops herr hn hal hlt h
    refine ⟨?read, ?write⟩
    case read =>
      rw [step_append_single hops (by simp [HostOp.isSupported, HostOp.isCmdWrite, supported, hal, hlt]) hn h,
        ← statusWord_start s q]
      exact busyRead_returns (b := s.start q) herr hal t
    case write =>
      rintro x r rfl
      have hstep : off ≠ 0x10 → step { s with
          queue := ⟨.write 0x10 8 u, a⟩ :: ((ops.map fun op => ⟨op, .busy⟩) ++ ⟨.write off 8 x, .busy⟩ :: q) } =
            .next (t.windowWrite off x) := fun hcmd =>
        step_append_single hops (by simp [HostOp.isSupported, HostOp.isCmdWrite, supported, hal, hlt, hcmd]) hn h
      refine ⟨?_, ?_, ?_⟩
      · rintro rfl; exact hstep (by omega)
      · rintro rfl; exact hstep (by omega)
      · intro h18; rw [hstep (by omega), windowWrite_ignored (by omega)]

end Sys2Proof.Machine
end

section
/-! PROOFS. P.XORIN (rules R160, R161 and R174). -/

namespace Sys2Proof.Machine

theorem exec_pXorin (vs : VReg) (s : State) : exec (.pXorin vs) s = execPXorin vs s := rfl

theorem encode_pXorin (vs : VReg) : encode (.pXorin vs) = BitVec.ofNat 32 (0x24 + 0x400 * vs.val) := by
  revert vs; decide

/-- XOR-in of a string no longer than the state, bit by bit (rule R161). -/
theorem xorIn_bit {w : Nat} (hw : w ≤ 64) (a : Grid) {m : BitStr} (hcanon : m.val < 2 ^ m.len) (hlen : m.len ≤ 25 * w)
    {x y : Nat} (hx : x < 5) (hy : y < 5) (z : Nat) :
    ((xorIn w a m).lane x y).getLsbD z =
      ((a.lane x y).getLsbD z ^^ (decide (z < w) && m.bit (w * (5 * y + x) + z))) := by
  have hfits : m.val % 2 ^ (25 * w) = m.val :=
    Nat.mod_eq_of_lt (lt_of_lt_of_le hcanon (Nat.pow_le_pow_right (by omega) hlen))
  rw [lane_xorIn, hfits, Nat.mod_eq_of_lt hx, Nat.mod_eq_of_lt hy, BitVec.getLsbD_xor, laneSlice_bit hw, BitStr.bit]

/-- Settles O50: the guard of rule R176, the length check, and XOR-in bit by bit. -/
theorem pXorinResult : Obligations.PXorinResult := by
  intro vs s hconfig _ hcanon
  rw [exec_pXorin]
  refine ⟨encode_pXorin vs, fun free hlen => ?success, fun free hlong => ?erange, fun owned => ?estate⟩
  case success =>
    have hlen' : (s.getV vs).len ≤ 25 * s.w.toNat := hconfig.width_eq ▸ hlen
    refine ⟨xorIn s.w.toNat s.lanes (s.getV vs), ?_, fun x y z hx hy => xorIn_bit hconfig.w_le _ hcanon hlen' hx hy z⟩
    rw [execPXorin, unlessAbsorbing_free free, if_neg (by omega), succeed_eq]
    rfl
  case erange => rw [execPXorin, unlessAbsorbing_free free, if_pos hlong, fail_eq isCommandError_erange.ne_ok]
  case estate => rw [execPXorin, unlessAbsorbing_owned owned]

end Sys2Proof.Machine
end

section
/-! PROOFS. The byte order of the host registers (rules R61 and R65). -/

namespace Sys2Proof

theorem wordOfBytes_append (as bs : List Byte) :
    wordOfBytes (as ++ bs) = wordOfBytes as + 256 ^ as.length * wordOfBytes bs := by
  induction as with
  | nil => simp [wordOfBytes]
  | cons a as ih =>
    simp only [List.cons_append, wordOfBytes, ih, List.length_cons]
    ring

theorem wordOfBytes_singleton (b : Byte) : wordOfBytes [b] = b.toNat := rfl

end Sys2Proof

namespace Sys2Proof.Machine

/-- Byte `k` is the digit of weight 256^k (rule R65). -/
theorem registerByte_toNat (u : Word) (k : Nat) : (registerByte u k).toNat = u.toNat / 256 ^ k % 256 := by
  rw [registerByte, BitVec.extractLsb'_toNat, Nat.shiftRight_eq_div_pow, Nat.pow_mul]

/-- The `n` lowest bytes of a register, lowest address first, are its value below 256^n (rule R65). -/
theorem wordOfBytes_registerBytes (u : Word) (n : Nat) :
    wordOfBytes ((List.range n).map (registerByte u)) = u.toNat % 256 ^ n := by
  induction n with
  | zero => simp [wordOfBytes, Nat.mod_one]
  | succ n ih =>
    rw [List.range_succ, List.map_append, List.map_singleton, wordOfBytes_append, ih, wordOfBytes_singleton,
      registerByte_toNat, List.length_map, List.length_range, Nat.mod_pow_succ]

theorem decodeBytes_registerBytes (u : Word) : decodeBytes ((List.range 8).map (registerByte u)) = decode u := by
  have hlen : ((List.range 8).map (registerByte u)).length = 8 := by simp
  have hval : u.toNat % 256 ^ 8 = u.toNat := Nat.mod_eq_of_lt u.isLt
  rw [decodeBytes, if_pos hlen, wordOfBytes_registerBytes, hval, BitVec.ofNat_toNat, BitVec.setWidth_eq]

/-- The window shows the 8 bytes of a register at its offset and the 7 behind it (rules R61 and R65). -/
theorem windowByte_of_windowRead {s : State} {off k : Nat} {u : Word} (hal : off % 8 = 0) (hk : k < 8)
    (h : s.windowRead off = .ok u) : s.windowByte (off + k) = .ok (registerByte u k) := by
  have hreg : 8 * ((off + k) / 8) = off := by omega
  have hbyte : (off + k) % 8 = k := by omega
  rw [State.windowByte, hreg, hbyte, h]
  rfl

/-- Settles O5: the bytes of the window, and the bytes of a CMD write. -/
theorem littleEndianRegisters : Obligations.LittleEndianRegisters :=
  ⟨fun _ _ _ _ hal hk h => windowByte_of_windowRead hal hk h, decodeBytes_registerBytes⟩

end Sys2Proof.Machine
end

section
/-! PROOFS. Which host operations have a step: unsupported accesses are refused, and every other operation completes
(rules R63, R71, R267 and R274). -/

namespace Sys2Proof.Machine

section
variable {s : State}

theorem hostStep_read_unsupported {off size : Nat} (h : supported off size = false) :
    hostStep (.read off size) s = .refused (accessRefusal off) := by
  simp [hostStep, h]

theorem hostStep_write_unsupported {off size : Nat} (h : supported off size = false) (x : Word) :
    hostStep (.write off size x) s = .refused (accessRefusal off) := by
  simp [hostStep, h]

/-- Another size or a misaligned offset is not supported (rule R62). -/
theorem supported_eq_false {off size : Nat} (h : size ≠ 8 ∨ off % 8 ≠ 0) : supported off size = false := by
  rcases h with h | h <;> simp [supported, h]

theorem accessRefusal_of_lt {off : Nat} (h : off < 256) : accessRefusal off = .unsupportedAccess := if_pos h

theorem hostStep_refused {op : HostOp} (hop : op.isSupported = false) (hr : op ≠ .reset) :
    ∃ r, hostStep op s = .refused r := by
  cases op with
  | reset => exact absurd rfl hr
  | read off size => exact ⟨_, hostStep_read_unsupported hop⟩
  | write off size u => exact ⟨_, hostStep_write_unsupported hop u⟩

/-- Every CMD value completes, and none reports EINTERNAL (rules R71 and R267). -/
theorem execCmd_ok (u : Word) (s : State) : ∃ t, execCmd u s = .next t ∧ t.lastErr ≠ .einternal := by
  rcases execCmd_ends u s with hr | hr
  · exact ⟨_, hr, nofun⟩
  · rcases hr.cases with ⟨e, he, hr⟩ | ⟨w, -, hr⟩
    · exact ⟨_, hr, he.ne_einternal⟩
    · exact ⟨_, hr, nofun⟩

theorem runToCompletion_ok (h : s.lastErr ≠ .einternal) (u : Word) (ops : List HostOp) :
    ∃ t, runToCompletion u ops s = .next t := by
  obtain ⟨t, hcmd, herr⟩ := execCmd_ok u s
  rw [runToCompletion_of_execCmd hcmd]
  exact busyAccesses_ok h herr ops

theorem abandonByReset_ok (h : s.lastErr ≠ .einternal) (ops : List HostOp) :
    ∃ t, abandonByReset ops s = .next t := by
  obtain ⟨t, ht⟩ := busyAccesses_ok h h ops
  exact ⟨t.hardReset, by simp [abandonByReset, ht]⟩

theorem cmdWrite_ok (h : s.lastErr ≠ .einternal) (u : Word) : ∃ t, cmdWrite u s = .next t := by
  unfold cmdWrite
  split
  · exact abandonByReset_ok (s := s.start _) h _
  · exact runToCompletion_ok (s := s.start _) h u _

/-- A supported access, a CMD write of any value included, or a reset completes (rules R71 and R304). -/
theorem hostStep_ok (h : s.lastErr ≠ .einternal) {op : HostOp} (hop : op.isSupported = true ∨ op = .reset) :
    ∃ t, hostStep op s = .next t := by
  cases op with
  | reset => exact ⟨_, rfl⟩
  | read off size =>
    have hsup : supported off size = true := by simpa [HostOp.isSupported] using hop
    rw [hostStep, if_pos hsup]
    exact idleRead_ok h off
  | write off size u =>
    have hsup : supported off size = true := by simpa [HostOp.isSupported] using hop
    rw [hostStep, if_pos hsup]
    split
    · exact cmdWrite_ok h u
    · exact ⟨_, rfl⟩

/-- No host operation faults where STATUS does not show EINTERNAL (rule R267). -/
theorem hostStep_noFault (h : s.lastErr ≠ .einternal) (op : HostOp) : NoFault (hostStep op s) := by
  intro f hf
  by_cases hop : op.isSupported = true ∨ op = .reset
  · obtain ⟨t, ht⟩ := hostStep_ok h hop
    cases ht.symm.trans hf
  · obtain ⟨hsup, hr⟩ := not_or.mp hop
    obtain ⟨r, href⟩ := hostStep_refused (s := s) (Bool.eq_false_iff.mpr hsup) hr
    cases href.symm.trans hf

theorem step_nil (h : s.queue = []) : step s = .next s := by
  simp [step, stepQueue, h]

end

/-- Settles O13: the host port refuses the access, a read or a write. -/
theorem unsupportedAccessesAreRefused : Obligations.UnsupportedAccessesAreRefused := by
  intro s off size x a q hlt hbad hq
  have hsup := supported_eq_false hbad
  rcases hq with hq | hq
  · rw [step_cons hq, hostStep_read_unsupported hsup, accessRefusal_of_lt hlt]
  · rw [step_cons hq, hostStep_write_unsupported hsup, accessRefusal_of_lt hlt]

/-- Settles O20: the idle block and every host operation, of which the invariant is needed for STATUS only. -/
theorem stepsComplete : Obligations.StepsComplete := by
  intro s h
  have herr : ∀ q : List HostEvent, ({ s with queue := q } : State).lastErr ≠ .einternal := fun _ => h.status.not_internal
  refine ⟨?noFault, fun e q hq hop => ?completes⟩
  case noFault =>
    cases hq : s.queue with
    | nil => rw [step_nil hq]; exact nofun
    | cons e q => rw [step_cons hq]; exact hostStep_noFault (herr q) e.op
  case completes => rw [step_cons hq]; exact hostStep_ok (herr q) hop

end Sys2Proof.Machine
end

section
/-! PROOFS. A CMD write that arrives while a command runs is held and performed next (rules R75, R310 and R311). -/

namespace Sys2Proof.Machine

/-- A held CMD write ends the accesses that overlap the command before it, unless a reset discards it (rules R303 and
R310). -/
theorem overlap_of_held {q : List HostEvent} (hn : NothingOverlaps q) (u : Word) :
    overlap (⟨.write 0x10 8 u, .busy⟩ :: q) = ⟨[], false, ⟨.write 0x10 8 u, .busy⟩ :: q⟩ := by
  simp only [overlap, HostOp.isCmdWrite, reduceCtorEq, if_false, decide_true, Bool.and_self, if_true]
  split
  · cases hn _ rfl
  · rfl

/-- A CMD write, its command, and the accesses performed while the command runs up to a held CMD write. -/
theorem step_of_execCmd_held {s t : State} {u u' : Word} {a : Arrival} {ops : List HostOp} {q : List HostEvent}
    (hops : ∀ o ∈ ops, o.isSupported = true ∧ o.isCmdWrite = false) (hn : NothingOverlaps q)
    (hq : s.queue = ⟨.write 0x10 8 u, a⟩ :: ((ops.map fun o => ⟨o, .busy⟩) ++ ⟨.write 0x10 8 u', .busy⟩ :: q))
    (hcmd : execCmd u (s.start (⟨.write 0x10 8 u', .busy⟩ :: q)) = .next t) :
    step s = busyAccesses (s.start (⟨.write 0x10 8 u', .busy⟩ :: q)) ops t := by
  rw [step_cmdWrite hq, ← runToCompletion_of_execCmd hcmd]
  simp [cmdWrite, overlap_of_busy_append hops, overlap_of_held hn, State.start]

/-- A CMD write that nothing overlaps is its command, whatever its arrival mark and its value. -/
theorem step_cmdWrite_alone {s : State} {u : Word} {a : Arrival} {q : List HostEvent} (hn : NothingOverlaps q)
    (hq : s.queue = ⟨.write 0x10 8 u, a⟩ :: q) : step s = execCmd u (s.start q) := by
  rw [step_cmdWrite hq, cmdWrite_alone (s := { s with queue := q }) hn]
  rfl

/-- Settles O10: the write to OPA is performed on what the first command left, and the held CMD write, which that command
leaves in the queue, is the next step. -/
theorem heldCommandRunsNext : Obligations.HeldCommandRunsNext := by
  intro s t u u' x a q hq hn hcmd
  obtain ⟨-, -, -, hqueue, -, -⟩ := sameHostSide_of_execCmd hcmd
  refine ⟨?first, ?second⟩
  case first =>
    exact step_of_execCmd_held (ops := [.write 0x00 8 x])
      (by simp [HostOp.isSupported, HostOp.isCmdWrite, supported]) hn hq hcmd
  case second => exact step_cmdWrite_alone (s := { t with opa := x }) hn hqueue

end Sys2Proof.Machine
end

section
/-! PROOFS. The encoder and the decoder are inverse to each other (rules R80 to R90): the fields of an encoded word are its
operands, and a word meets a row's mask and match exactly when its format admits its fields. -/

namespace Sys2Proof

/-! ### The fields of a word -/

/-- The fields of an encoded word are the operands it was put together from (rules R81 and R90). -/
theorem fieldsWord_fields (o : BitVec 8) (vd vs : VReg) {n : Nat} (hn : n < 256) :
    opcField (fieldsWord o vd vs n) = o ∧ vdField (fieldsWord o vd vs n) = vd ∧ vsField (fieldsWord o vd vs n) = vs ∧
      imm8Field (fieldsWord o vd vs n) = n ∧ (fieldsWord o vd vs n).extractLsb' 12 4 = 0#4 ∧
      (fieldsWord o vd vs n).extractLsb' 24 8 = 0#8 := by
  have hval := fieldsWord_toNat o vd vs n hn
  have hvd := vd.isLt
  have hvs := vs.isLt
  have ho := o.isLt
  simp only [opcField, vdField, vsField, imm8Field, BitVec.toNat_eq, Fin.ext_iff, BitVec.extractLsb'_toNat,
    Nat.shiftRight_eq_div_pow, BitVec.toNat_ofNat, hval]
  omega

theorem vdField_eq_zero_iff (w : CmdWord) : vdField w = 0 ↔ w.extractLsb' 8 2 = 0#2 := by
  simp [vdField, Fin.ext_iff, BitVec.toNat_eq]

theorem vsField_eq_zero_iff (w : CmdWord) : vsField w = 0 ↔ w.extractLsb' 10 2 = 0#2 := by
  simp [vsField, Fin.ext_iff, BitVec.toNat_eq]

theorem imm8Field_eq_zero_iff (w : CmdWord) : imm8Field w = 0 ↔ w.extractLsb' 16 8 = 0#8 := by
  simp [imm8Field, BitVec.toNat_eq]

/-! ### The operands a format admits -/

/-- The operands a word of format `f` can carry: every field the format does not use is zero (rule R82). -/
structure Format.Admits (f : Format) (vd vs : VReg) (imm8 : Nat) : Prop where
  imm8_lt : imm8 < 256
  imm8_eq : f ≠ .di → imm8 = 0
  vd_eq : f = .n ∨ f = .s → vd = 0
  vs_eq : f = .n ∨ f = .d ∨ f = .di → vs = 0

theorem Format.admits_n : Format.n.Admits 0 0 0 := by constructor <;> simp
theorem Format.admits_d (vd : VReg) : Format.d.Admits vd 0 0 := by constructor <;> simp
theorem Format.admits_s (vs : VReg) : Format.s.Admits 0 vs 0 := by constructor <;> simp
theorem Format.admits_ds (vd vs : VReg) : Format.ds.Admits vd vs 0 := by constructor <;> simp
theorem Format.admits_di (vd : VReg) {n : Nat} (hn : n < 256) : Format.di.Admits vd 0 n := by constructor <;> simp [hn]

/-- A word meets a mask and match exactly when it has the opcode, its reserved fields are zero and the format admits the
operands in its other fields (rules R82 and R87). -/
theorem and_mask_eq_iff (w : CmdWord) (f : Format) (o : BitVec 8) :
    w &&& f.mask = o.setWidth 32 ↔
      opcField w = o ∧ w.extractLsb' 12 4 = 0#4 ∧ w.extractLsb' 24 8 = 0#8 ∧
        f.Admits (vdField w) (vsField w) (imm8Field w) := by
  constructor
  case mp =>
    intro h
    obtain ⟨hopc, hrsv0, hrsv1, himm, hvd, hvs⟩ := fields_of_mask w f o h
    exact ⟨hopc, hrsv0, hrsv1, (w.extractLsb' 16 8).isLt, fun hf => (imm8Field_eq_zero_iff w).mpr (himm hf),
      fun hf => (vdField_eq_zero_iff w).mpr (hvd hf), fun hf => (vsField_eq_zero_iff w).mpr (hvs hf)⟩
  case mpr =>
    rintro ⟨hopc, hrsv0, hrsv1, h⟩
    exact mask_of_fields w f o hopc hrsv0 hrsv1 (fun hf => (imm8Field_eq_zero_iff w).mp (h.imm8_eq hf))
      (fun hf => (vdField_eq_zero_iff w).mp (h.vd_eq hf)) (fun hf => (vsField_eq_zero_iff w).mp (h.vs_eq hf))

/-! ### Decoding a word -/

theorem opc_eq_of_find {o : BitVec 8} {r : OpRow} (h : opcodeTable.find? (fun r => r.opc == o) = some r) : r.opc = o :=
  eq_of_beq (List.find?_some (p := fun r : OpRow => r.opc == o) h)

/-- A word decodes by the row of its opcode, if it meets that row's mask and match (rule R87). -/
theorem decodeWord_eq_ok_iff {w : CmdWord} {i : Instr} :
    decodeWord w = .ok i ↔
      ∃ r, opcodeTable.find? (fun r => r.opc == opcField w) = some r ∧ w &&& r.format.mask = r.matchValue ∧
        r.build (vdField w) (vsField w) (imm8Field w) = i := by
  unfold decodeWord
  cases hr : opcodeTable.find? (fun r => r.opc == opcField w) with
  | none => simp
  | some r => by_cases hm : w &&& r.format.mask = r.matchValue <;> simp [hm]

/-- The word of a row with operands its format admits decodes to the command the row builds from them. -/
theorem decodeWord_of_row {w : CmdWord} {i : Instr} {o : BitVec 8} {r : OpRow} {vd vs : VReg} {n : Nat}
    (hw : w = fieldsWord o vd vs n) (hr : opcodeTable.find? (fun r => r.opc == o) = some r)
    (hi : i = r.build vd vs n) (h : r.format.Admits vd vs n) : decodeWord w = .ok i := by
  subst hw hi
  obtain ⟨hopc, hvd, hvs, himm, hrsv0, hrsv1⟩ := fieldsWord_fields o vd vs h.imm8_lt
  refine decodeWord_eq_ok_iff.mpr ⟨r, ?row, (and_mask_eq_iff _ _ _).mpr ⟨?opc, hrsv0, hrsv1, ?admits⟩, ?build⟩
  case row => rw [hopc, hr]
  case opc => rw [hopc, opc_eq_of_find hr]
  case admits => rw [hvd, hvs, himm]; exact h
  case build => rw [hvd, hvs, himm]

/-- Each command's word is that of its row of the opcode map, with operands the row's format admits. -/
theorem decodeWord_encode {i : Instr} (h : i.wf = true) : decodeWord (encode i) = .ok i := by
  cases i with
  | bvZero vd | bvChlen vd | bvShl vd | bvShr vd | pExtract vd | sFinal vd =>
    exact decodeWord_of_row rfl rfl rfl (Format.admits_d vd)
  | bvPush vd imm8 => exact decodeWord_of_row rfl rfl rfl (Format.admits_di vd (of_decide_eq_true h))
  | bvAppend vd vs | bvExtract vd vs | bvCopy vd vs => exact decodeWord_of_row rfl rfl rfl (Format.admits_ds vd vs)
  | bvLen vs | bvReadw vs | pXorin vs | sAbsorb vs => exact decodeWord_of_row rfl rfl rfl (Format.admits_s vs)
  | pInit | pPermute | pRdlane | pWrlane | sInit => exact decodeWord_of_row rfl rfl rfl Format.admits_n

/-! ### Decoding a CMD value -/

/-- A CMD value is a zero-extended word exactly when its high half is zero and its low half is the word (rule R80). -/
theorem setWidth_eq_iff_halves (w : CmdWord) (u : Word) :
    w.setWidth 64 = u ↔ u.extractLsb' 32 32 = 0#32 ∧ u.extractLsb' 0 32 = w := by
  have hw := w.isLt
  have hu := u.isLt
  simp only [BitVec.toNat_eq, BitVec.toNat_setWidth, BitVec.extractLsb'_toNat, Nat.shiftRight_eq_div_pow,
    BitVec.toNat_ofNat]
  omega

/-- A CMD value decodes as its low half does, if its high half is zero (rule R87). -/
theorem decode_eq_ok_iff {u : Word} {i : Instr} :
    decode u = .ok i ↔ u.extractLsb' 32 32 = 0#32 ∧ decodeWord (u.extractLsb' 0 32) = .ok i := by
  unfold decode
  split <;> simp_all

/-- Settles O2: the high half of an encoded value is zero, and its low half is the command's word. -/
theorem decodeOfEncode : Obligations.DecodeOfEncode := by
  intro i hwf
  obtain ⟨hhigh, hlow⟩ := (setWidth_eq_iff_halves (encode i) (encodeCmd i)).mp rfl
  exact decode_eq_ok_iff.mpr ⟨hhigh, by rw [hlow]; exact decodeWord_encode hwf⟩

/-- Settles O3: the row a word decodes by builds a command whose word it is. -/
theorem encodeOfDecode : Obligations.EncodeOfDecode := by
  intro u i h
  obtain ⟨hhigh, hword⟩ := decode_eq_ok_iff.mp h
  obtain ⟨r, hr, hmask, rfl⟩ := decodeWord_eq_ok_iff.mp hword
  obtain ⟨hencode, hwf⟩ := encode_build (List.mem_of_find?_eq_some hr) _ (opc_eq_of_find hr) hmask
  exact ⟨(setWidth_eq_iff_halves _ u).mpr ⟨hhigh, hencode.symm⟩, hwf⟩

/-- Settles O1: the encoder computes the three words, and by O2 they decode to their commands. -/
theorem exampleCommandWords : Obligations.ExampleCommandWords :=
  ⟨rfl, decodeOfEncode (.bvPush 2 8) rfl, rfl, decodeOfEncode (.bvExtract 3 0) rfl, rfl, decodeOfEncode (.sFinal 1) rfl,
    rfl⟩

end Sys2Proof
end

section
/-! PROOFS. The illegal CMD values (rules R80, R82, R86 and R88), and what a step does with one (rules R262 and R272). -/

namespace Sys2Proof

/-- The opcodes whose format has no VD (rules R82 and R86). -/
def opcodesWithoutVd : List Nat := [0x18, 0x19, 0x20, 0x21, 0x22, 0x23, 0x24, 0x30, 0x31]

/-- The opcodes whose format has a VS (rules R82 and R86). -/
def opcodesWithVs : List Nat := [0x13, 0x16, 0x17, 0x18, 0x19, 0x24, 0x31]

/-- Which opcodes have a format that does not use a field (rules R82 and R86). -/
theorem format_of_opcode : ∀ r ∈ opcodeTable,
    (r.format = .di ↔ r.opc.toNat = 0x11) ∧
    ((r.format = .n ∨ r.format = .s) ↔ r.opc.toNat ∈ opcodesWithoutVd) ∧
    ((r.format = .n ∨ r.format = .d ∨ r.format = .di) ↔ r.opc.toNat ∉ opcodesWithVs) := by
  decide

/-- What a row's format admits, said by the row's opcode (rules R82 and R86). -/
theorem admits_iff_of_opcode {r : OpRow} (h : r ∈ opcodeTable) {vd vs : VReg} {n : Nat} (hn : n < 256) :
    r.format.Admits vd vs n ↔
      (r.opc.toNat ≠ 0x11 → n = 0) ∧
      (r.opc.toNat ∈ opcodesWithoutVd → vd = 0) ∧
      (r.opc.toNat ∉ opcodesWithVs → vs = 0) := by
  obtain ⟨hdi, hns, hnd⟩ := format_of_opcode r h
  rw [← hns, ← hnd, ne_eq, ← hdi]
  exact ⟨fun ⟨_, h1, h2, h3⟩ => ⟨h1, h2, h3⟩, fun ⟨h1, h2, h3⟩ => ⟨hn, h1, h2, h3⟩⟩

/-- A word decodes exactly when its opcode is assigned and every field its format does not use is zero. -/
theorem exists_decodeWord_eq_ok_iff (w : CmdWord) :
    (∃ i, decodeWord w = .ok i) ↔
      opcodeTable.find? (fun r => r.opc == opcField w) ≠ none ∧ w.extractLsb' 12 4 = 0#4 ∧ w.extractLsb' 24 8 = 0#8 ∧
      ((opcField w).toNat ≠ 0x11 → imm8Field w = 0) ∧
      ((opcField w).toNat ∈ opcodesWithoutVd → vdField w = 0) ∧
      ((opcField w).toNat ∉ opcodesWithVs → vsField w = 0) := by
  cases hr : opcodeTable.find? (fun r => r.opc == opcField w) with
  | none => simp [decodeWord_eq_ok_iff, hr]
  | some r =>
    have hopc := opc_eq_of_find hr
    have hadmits := admits_iff_of_opcode (List.mem_of_find?_eq_some hr) (vd := vdField w) (vs := vsField w)
      (n := imm8Field w) (w.extractLsb' 16 8).isLt
    have hmask := and_mask_eq_iff w r.format r.opc
    rw [hadmits, hopc] at hmask
    simp only [decodeWord_eq_ok_iff, hr, OpRow.matchValue, Option.some.injEq, exists_and_left, exists_eq_left', exists_eq',
      and_true, hopc, hmask, true_and, ne_eq, reduceCtorEq, not_false_eq_true]

end Sys2Proof

namespace Sys2Proof.Machine

/-- A CMD value decodes exactly when it is not illegal: each of its fields is a field of its low half. -/
theorem exists_decode_eq_ok_iff (u : Word) : (∃ i, decode u = .ok i) ↔ ¬ IllegalCmd u := by
  simp only [decode_eq_ok_iff, exists_and_left, exists_decodeWord_eq_ok_iff, ne_eq, find_eq_none_iff,
    vdField_eq_zero_iff, vsField_eq_zero_iff, imm8Field_eq_zero_iff]
  simp only [IllegalCmd, opcField, opcodesWithoutVd, opcodesWithVs, BitVec.extractLsb'_extractLsb'_of_le, Nat.reduceAdd,
    Nat.reduceLeDiff, ne_eq, not_or, not_and', not_not, and_assoc]

/-- Settles O4: a value that does not decode is refused, and a value that decodes is not. -/
theorem illegalCommandValues : Obligations.IllegalCommandValues := by
  intro u
  have hok := exists_decode_eq_ok_iff u
  cases h : decode u with
  | error e => simpa [h] using hok
  | ok i => simpa [h] using hok

/-- Settles O7: the value does not decode, so its command is the error EILLEGAL. -/
theorem illegalCommandChangesStatusAndPcOnly : Obligations.IllegalCommandChangesStatusAndPcOnly := by
  intro s u a q hq hn hill
  obtain ⟨e, he⟩ := (illegalCommandValues u).mpr hill
  rw [step_cmdWrite_alone hn hq, execCmd_of_error he]
  rfl

end Sys2Proof.Machine
end

section
/-! PROOFS. Commands and the operand registers they do not use (rules R85 and R86): two runs that differ in such a register
only take the same branches and write the same values. -/

namespace Sys2Proof.Machine

/-- The two results are next states, the second the first with the change `f`. -/
inductive NextUpTo (f : State → State) : Result → Result → Prop where
  | next (t : State) : NextUpTo f (.next t) (.next (f t))

/-- A change of the state that the completion update and the guards on SST do not see. -/
structure Unseen (f : State → State) : Prop where
  afterSuccess : ∀ s, (f s).afterSuccess = f s.afterSuccess
  afterError : ∀ s e, (f s).afterError e = f (s.afterError e)
  sst : ∀ s, (f s).sst = s.sst

section
variable {f : State → State} {s : State}

/-- What the second run reaches, from what the first reaches. -/
theorem NextUpTo.eq_next {t : State} {r : Result} (h : NextUpTo f (.next t) r) : r = .next (f t) := by
  cases h; rfl

theorem NextUpTo.ite {c : Prop} [Decidable c] {a b a' b' : Result} (ha : NextUpTo f a a') (hb : NextUpTo f b b') :
    NextUpTo f (if c then a else b) (if c then a' else b') := by
  split
  · exact ha
  · exact hb

variable (hf : Unseen f)
include hf

theorem Unseen.succeed (u : State) : NextUpTo f (succeed u) (succeed (f u)) := by
  rw [succeed_eq, succeed_eq, hf.afterSuccess]
  exact .next _

theorem Unseen.fail {e : ErrorCode} (he : e.IsCommandError) : NextUpTo f (fail e s) (fail e (f s)) := by
  rw [fail_eq he.ne_ok, fail_eq he.ne_ok, hf.afterError]
  exact .next _

theorem Unseen.unlessAbsorbing {k k' : Result} (hk : NextUpTo f k k') :
    NextUpTo f (unlessAbsorbing s k) (unlessAbsorbing (f s) k') := by
  rw [Machine.unlessAbsorbing, Machine.unlessAbsorbing, hf.sst]
  exact .ite (hf.fail isCommandError_estate) hk

theorem Unseen.whileAbsorbing {k k' : Result} (hk : NextUpTo f k k') :
    NextUpTo f (whileAbsorbing s k) (whileAbsorbing (f s) k') := by
  rw [Machine.whileAbsorbing, Machine.whileAbsorbing, hf.sst]
  exact .ite hk (hf.fail isCommandError_estate)

end

/-- The state with another value of OPB. -/
def State.withOpb (x : Word) (s : State) : State := { s with opb := x }

/-- The state with another value of OPA. -/
def State.withOpa (x : Word) (s : State) : State := { s with opa := x }

theorem unseen_withOpb (x : Word) : Unseen (State.withOpb x) := ⟨fun _ => rfl, fun _ _ => rfl, fun _ => rfl⟩

theorem unseen_withOpa (x : Word) : Unseen (State.withOpa x) := ⟨fun _ => rfl, fun _ _ => rfl, fun _ => rfl⟩

/-- Only P.INIT, P.WRLANE and BV.EXTRACT use OPB (rule R86). -/
theorem exec_withOpb {i : Instr} (hpInit : i ≠ .pInit) (hpWrlane : i ≠ .pWrlane) (hextract : ∀ vd vs, i ≠ .bvExtract vd vs)
    (s : State) (x : Word) : NextUpTo (State.withOpb x) (exec i s) (exec i (s.withOpb x)) := by
  have f := unseen_withOpb x
  have cap := f.fail (s := s) isCommandError_ecapacity
  have val := f.fail (s := s) isCommandError_einval
  have range := f.fail (s := s) isCommandError_erange
  cases i with
  | bvZero vd => rw [exec, exec, execBvZero, execBvZero]; exact .ite (f.succeed _) cap
  | bvPush vd imm8 => rw [exec, exec, execBvPush, execBvPush]; exact .ite val (.ite (f.succeed _) cap)
  | bvChlen vd => rw [exec, exec, execBvChlen, execBvChlen]; exact .ite (f.succeed _) cap
  | bvAppend vd vs => rw [exec, exec, execBvAppend, execBvAppend]; exact .ite (f.succeed _) cap
  | bvShl vd => rw [exec, exec, execBvShl, execBvShl]; exact .ite (f.succeed _) cap
  | bvShr vd => exact f.succeed (s.setV vd _)
  | bvExtract vd vs => exact absurd rfl (hextract vd vs)
  | bvCopy vd vs => exact f.succeed (s.setV vd _)
  | bvLen vs => exact f.succeed (s.setResult _)
  | bvReadw vs => exact .ite range (f.succeed (s.setResult _))
  | pInit => exact absurd rfl hpInit
  | pPermute => exact f.unlessAbsorbing (f.succeed _)
  | pRdlane => exact f.unlessAbsorbing (.ite range (f.succeed _))
  | pWrlane => exact absurd rfl hpWrlane
  | pXorin vs => exact f.unlessAbsorbing (.ite range (f.succeed _))
  | pExtract vd => exact f.unlessAbsorbing (.ite range (f.succeed _))
  | sInit => exact .ite val (f.succeed _)
  | sAbsorb vs => exact f.whileAbsorbing (.ite (f.succeed _) cap)
  | sFinal vd => exact f.whileAbsorbing (.ite (f.succeed _) cap)

/-- P.PERMUTE, BV.APPEND, BV.COPY, BV.LEN, P.XORIN and S.ABSORB do not use OPA (rule R86). -/
theorem exec_withOpa {i : Instr}
    (hi : i = .pPermute ∨ ∃ vd vs, i ∈ [.bvAppend vd vs, .bvCopy vd vs, .bvLen vs, .pXorin vs, .sAbsorb vs])
    (s : State) (x : Word) : NextUpTo (State.withOpa x) (exec i s) (exec i (s.withOpa x)) := by
  have f := unseen_withOpa x
  have cap := f.fail (s := s) isCommandError_ecapacity
  cases i with
  | pPermute => exact f.unlessAbsorbing (f.succeed _)
  | bvAppend vd vs => rw [exec, exec, execBvAppend, execBvAppend]; exact .ite (f.succeed _) cap
  | bvCopy vd vs => exact f.succeed (s.setV vd _)
  | bvLen vs => exact f.succeed (s.setResult _)
  | pXorin vs => exact f.unlessAbsorbing (.ite (f.fail isCommandError_erange) (f.succeed _))
  | sAbsorb vs => exact f.whileAbsorbing (.ite (f.succeed _) cap)
  | _ => simp at hi

/-- Settles O30: the run with the other value of an unused operand register is the first with that value. -/
theorem unusedOperandsAreIgnored : Obligations.UnusedOperandsAreIgnored := by
  intro i s t x h
  refine ⟨fun hpInit hpWrlane hextract => ?opb, fun hi => ?opa⟩
  case opb =>
    have hrun := exec_withOpb hpInit hpWrlane hextract s x
    rw [h] at hrun
    exact hrun.eq_next
  case opa =>
    have hrun := exec_withOpa hi s x
    rw [h] at hrun
    exact hrun.eq_next

end Sys2Proof.Machine
end

section
/-! PROOFS. The code a command leaves in LASTERR, branch by branch (rules R261 and R271), and the commands that raise
ECAPACITY (rule R266). -/

namespace Sys2Proof.Machine

/-- The code a completed command leaves in STATUS.LASTERR; a result without a next state raises none. -/
def errorOf : Result → ErrorCode
  | .next t => t.lastErr
  | .fault _ | .refused _ => .ok

@[simp] theorem errorOf_next (t : State) : errorOf (.next t) = t.lastErr := rfl
@[simp] theorem errorOf_succeed (s : State) : errorOf (succeed s) = .ok := rfl
@[simp] theorem errorOf_fail (e : ErrorCode) (s : State) : errorOf (fail e s) = e := rfl

theorem errorOf_ite_eq_iff (c : Prop) [Decidable c] (a b : Result) (e : ErrorCode) :
    errorOf (if c then a else b) = e ↔ (c ∧ errorOf a = e) ∨ (¬ c ∧ errorOf b = e) := by
  by_cases h : c <;> simp [h]

/-- The engine guard raises no other error than ESTATE (rule R176). -/
theorem errorOf_unlessAbsorbing {e : ErrorCode} (he : e ≠ .estate) (s : State) (k : Result) :
    errorOf (unlessAbsorbing s k) = e ↔ s.sst ≠ .absorbing ∧ errorOf k = e := by
  by_cases h : s.sst = .absorbing
  · simp [unlessAbsorbing, h, he.symm]
  · simp [unlessAbsorbing, h]

/-- The sponge guard raises no other error than ESTATE (rule R265). -/
theorem errorOf_whileAbsorbing {e : ErrorCode} (he : e ≠ .estate) (s : State) (k : Result) :
    errorOf (whileAbsorbing s k) = e ↔ s.sst = .absorbing ∧ errorOf k = e := by
  by_cases h : s.sst = .absorbing
  · simp [whileAbsorbing, h]
  · simp [whileAbsorbing, h, he.symm]

/-- The capacity check of a V register fails exactly on a length above its bound (rules R27 and R266). -/
theorem errorOf_ifFitsV (s u : State) (n : Nat) :
    errorOf (if s.fitsV n then succeed u else fail .ecapacity s) = .ecapacity ↔ s.params.bvMaxBits < n := by
  simp [errorOf_ite_eq_iff]

/-- The capacity check of the message buffer fails exactly on a length above its bound (rules R30 and R266). -/
theorem errorOf_ifFitsMb (s u : State) (n : Nat) :
    errorOf (if s.fitsMb n then succeed u else fail .ecapacity s) = .ecapacity ↔ s.params.mbMaxBits < n := by
  simp [errorOf_ite_eq_iff]

/-- Rule R266 by command: no other error comes first, and the result is longer than its register may be. -/
def ExceedsCapacity (s : State) : Instr → Prop
  | .bvZero _ | .bvChlen _ => s.params.bvMaxBits < s.opaNat
  | .bvPush vd n => n ≤ 64 ∧ s.params.bvMaxBits < (s.getV vd).len + n
  | .bvAppend vd vs => s.params.bvMaxBits < (s.getV vd).len + (s.getV vs).len
  | .bvShl vd => s.params.bvMaxBits < (s.getV vd).len + s.opaNat
  | .sAbsorb vs => s.sst = .absorbing ∧ s.params.mbMaxBits < s.mb.len + (s.getV vs).len
  | .sFinal _ => s.sst = .absorbing ∧ s.params.bvMaxBits < s.opaNat
  | .bvShr _ | .bvExtract _ _ | .bvCopy _ _ | .bvLen _ | .bvReadw _ | .pInit | .pPermute | .pRdlane | .pWrlane
  | .pXorin _ | .pExtract _ | .sInit => False

theorem errorOf_exec_eq_ecapacity_iff (i : Instr) (s : State) :
    errorOf (exec i s) = .ecapacity ↔ ExceedsCapacity s i := by
  have hne : ErrorCode.ecapacity ≠ .estate := nofun
  cases i with
  | bvZero | bvChlen | bvAppend | bvShl =>
    simp only [exec, execBvZero, execBvChlen, execBvAppend, execBvShl, errorOf_ifFitsV, ExceedsCapacity]
  | bvPush =>
    rw [exec, execBvPush, errorOf_ite_eq_iff, errorOf_ifFitsV, ExceedsCapacity, errorOf_fail, Nat.not_lt]
    simp
  | sAbsorb => rw [exec, execSAbsorb, errorOf_whileAbsorbing hne, errorOf_ifFitsMb, ExceedsCapacity]
  | sFinal => rw [exec, execSFinal, errorOf_whileAbsorbing hne, errorOf_ifFitsV, ExceedsCapacity]
  | bvShr | bvCopy | bvLen => exact ⟨nofun, nofun⟩
  | bvExtract vd vs =>
    cases hx : (s.getV vs).extract s.opaNat s.opbNat with
    | some x => rw [exec, execBvExtract_of_some hx]; exact ⟨nofun, nofun⟩
    | none => rw [exec, execBvExtract_of_none hx]; exact ⟨nofun, nofun⟩
  | bvReadw | sInit => simp [exec, execBvReadw, execSInit, errorOf_ite_eq_iff, ExceedsCapacity]
  | pInit | pPermute | pRdlane | pWrlane | pXorin | pExtract =>
    simp [exec, execPInit, execPPermute, execPRdlane, execPWrlane, execPXorin, execPExtract,
      errorOf_unlessAbsorbing hne, errorOf_ite_eq_iff, ExceedsCapacity]

/-- A command that exceeds a capacity has no effect (rules R266 and R272). -/
theorem exec_of_exceedsCapacity {i : Instr} {s : State} (h : ExceedsCapacity s i) :
    exec i s = .next (s.afterError .ecapacity) := by
  have hcode := (errorOf_exec_eq_ecapacity_iff i s).mpr h
  have hends := exec_ends i s
  generalize exec i s = r at hcode hends
  cases hends with
  | error => rw [errorOf_next, afterError_lastErr] at hcode; rw [hcode]
  | success => exact nomatch hcode

/-- Settles O28: the cases of rule R266, command by command. -/
theorem whenEcapacityIsRaised : Obligations.WhenEcapacityIsRaised := by
  intro i s t h
  rw [← errorOf_next t, ← h, errorOf_exec_eq_ecapacity_iff]
  cases i <;> simp [ExceedsCapacity, State.opaNat]

end Sys2Proof.Machine
end

section
/-! PROOFS. A command whose guards hold succeeds with its effect (rules R120 to R129, R170 to R175, R210 to R212 and
R271). -/

namespace Sys2Proof.Machine

theorem ifFitsV_of_le {s : State} {n : Nat} (h : n ≤ s.params.bvMaxBits) (u : State) :
    (if s.fitsV n then succeed u else fail .ecapacity s) = .next u.afterSuccess := by
  rw [if_pos ((fitsV_iff s n).mpr h), succeed_eq]

/-- The guards of a command are all it takes: no other error comes first. -/
theorem Effect.exec_eq {i : Instr} {s u : State} (h : Effect s i u) : exec i s = .next u.afterSuccess := by
  cases h with
  | bvZero fits => rw [exec, execBvZero, ifFitsV_of_le fits]
  | bvPush le64 fits => rw [exec, execBvPush, if_neg (Nat.not_lt.mpr le64), ifFitsV_of_le fits]
  | bvChlen fits => rw [exec, execBvChlen, ifFitsV_of_le fits]
  | bvAppend fits => rw [exec, execBvAppend, ifFitsV_of_le fits]
  | bvShl fits => rw [exec, execBvShl, ifFitsV_of_le fits]
  | bvShr | bvCopy | bvLen => exact succeed_eq _
  | bvExtract slice => rw [exec, execBvExtract_of_some slice, succeed_eq]
  | bvReadw inRange => rw [exec, execBvReadw, if_neg (Nat.not_le.mpr inRange), succeed_eq]
  | pInit free legal le255 =>
    rw [exec, execPInit, unlessAbsorbing_free free, if_neg (not_not.mpr legal), if_neg (Nat.not_lt.mpr le255),
      succeed_eq]
  | pPermute free => rw [exec, execPPermute, unlessAbsorbing_free free, succeed_eq]
  | pRdlane free le24 => rw [exec, execPRdlane, unlessAbsorbing_free free, if_neg (Nat.not_lt.mpr le24), succeed_eq]
  | pWrlane free within le24 =>
    rw [exec, execPWrlane, unlessAbsorbing_free free, if_neg (Nat.not_le.mpr within), if_neg (Nat.not_lt.mpr le24),
      succeed_eq]
  | pXorin free fits => rw [exec, execPXorin, unlessAbsorbing_free free, if_neg (Nat.not_lt.mpr fits), succeed_eq]
  | pExtract free fits => rw [exec, execPExtract, unlessAbsorbing_free free, if_neg (Nat.not_lt.mpr fits), succeed_eq]
  | sInit pos lt1600 => rw [exec, execSInit, if_neg (by omega), succeed_eq]
  | sAbsorb owned fits =>
    rw [exec, execSAbsorb, whileAbsorbing_owned owned, if_pos ((fitsMb_iff _ _).mpr fits), succeed_eq]
  | sFinal owned fits => rw [exec, execSFinal, whileAbsorbing_owned owned, ifFitsV_of_le fits]

end Sys2Proof.Machine
end

section
/-! PROOFS. The laws of the bit-string functions (rules R100 to R113), on top of their bits. -/

namespace Sys2Proof.Machine

theorem bytesVal_lt (bs : List Byte) : bytesVal bs < 2 ^ (8 * bs.length) := by
  induction bs with
  | nil => exact Nat.one_pos
  | cons b bs ih =>
    have hb := b.isLt
    rw [bytesVal, List.length_cons, Nat.mul_succ, Nat.pow_add]
    omega

namespace BitStr

variable {s t : BitStr}

theorem append_bit_of_lt (hs : s.val < 2 ^ s.len) {i : Nat} (hi : i < s.len) : (s.append t).bit i = s.bit i := by
  rw [append_bit hs, if_pos hi]

theorem append_bit_add (hs : s.val < 2 ^ s.len) (i : Nat) : (s.append t).bit (s.len + i) = t.bit i := by
  rw [append_bit hs, if_neg (by omega), Nat.add_sub_cancel_left]

theorem leftShift_bit_add (s : BitStr) (n i : Nat) : (s.leftShift n).bit (n + i) = s.bit i := by
  rw [leftShift_bit, decide_eq_true (Nat.le_add_right n i), Bool.true_and, Nat.add_sub_cancel_left]

/-- A bit of a canonical string, with the zeros above its length said (rule R26). -/
theorem bit_eq_and_of_canonical (hs : s.val < 2 ^ s.len) (i : Nat) : s.bit i = (decide (i < s.len) && s.bit i) := by
  by_cases hi : i < s.len
  · rw [decide_eq_true hi, Bool.true_and]
  · rw [bit_of_len_le hs (Nat.le_of_not_lt hi), Bool.and_false]

theorem extract_lt {x : BitStr} {first last : Nat} (h : s.extract first last = some x) : x.val < 2 ^ x.len := by
  obtain ⟨-, -, -, rfl⟩ := extract_eq_some h
  exact changeLength_lt _ _

/-- A shift up and back gives the string back, the empty one included (rule R111). -/
theorem rightShift_leftShift (hs : s.val < 2 ^ s.len) (n : Nat) : (s.leftShift n).rightShift n = s := by
  have hl := leftShift_lt hs n
  refine ext_bits (rightShift_lt hl n) hs (by simp) fun i _ => ?_
  rw [rightShift_bit hl, leftShift_bit_add]

/-- The whole string as a slice (rule R112). -/
theorem slice_zero_len (hs : s.val < 2 ^ s.len) : (s.rightShift 0).changeLength s.len = s :=
  ext_bits (changeLength_lt _ _) hs rfl fun i (hi : i < s.len) => by
    rw [slice_bit hs, Nat.zero_add, decide_eq_true hi, Bool.true_and]

/-- The first `k` bits followed by the others (rule R113). -/
theorem append_slices (hs : s.val < 2 ^ s.len) {k : Nat} (hk : k ≤ s.len) :
    ((s.rightShift 0).changeLength k).append ((s.rightShift k).changeLength (s.len - k)) = s := by
  have hlow := changeLength_lt (s.rightShift 0) k
  refine ext_bits (append_lt hlow (changeLength_lt _ _)) hs (Nat.add_sub_cancel' hk) fun i hi => ?_
  rw [append_bit hlow, changeLength_len, slice_bit hs, slice_bit hs]
  have hi' : i < k + (s.len - k) := hi
  by_cases h : i < k
  · simp [h]
  · simp [h, show i - k < s.len - k by omega, show k + (i - k) = i by omega]

end BitStr

/-- Settles O40: one lemma per function. -/
theorem functionsKeepCanonicalForm : Obligations.FunctionsKeepCanonicalForm :=
  fun _ _ _ _ _ _ bs _ hs ht =>
    ⟨Nat.one_pos, Nat.two_pow_pos _, bytesVal_lt bs, Nat.mod_lt _ (Nat.two_pow_pos _), BitStr.changeLength_lt _ _,
      BitStr.append_lt hs ht, BitStr.leftShift_lt hs _, BitStr.rightShift_lt hs _, BitStr.extract_lt, hs⟩

/-- Settles O41: every bit moves up by `n` and back. -/
theorem shiftInverse : Obligations.ShiftInverse := fun _ n hs => BitStr.rightShift_leftShift hs n

/-- Settles O42: the ranges are legal, and their slices are the whole string and its two parts. -/
theorem extractSplitsAndRejoins : Obligations.ExtractSplitsAndRejoins := by
  intro s hs
  refine ⟨fun hne => ?identity, fun first last => ?empty, fun k hk1 hk => ?rejoin⟩
  case identity =>
    rw [BitStr.extract_of_range (Nat.le_refl 1) hne (Nat.le_refl _), Nat.sub_add_cancel hne, BitStr.slice_zero_len hs,
      BitStr.copy_eq]
  case empty => exact BitStr.extract_eq_none (by rw [BitStr.empty_len]; omega)
  case rejoin =>
    refine ⟨_, _, BitStr.extract_of_range (Nat.le_refl 1) hk1 (by omega),
      BitStr.extract_of_range (by omega) hk (Nat.le_refl _), ?_⟩
    rw [Nat.sub_self, Nat.add_sub_cancel, Nat.sub_add_cancel hk1, show s.len - (k + 1) + 1 = s.len - k by omega]
    exact BitStr.append_slices hs (by omega)

end Sys2Proof.Machine
end

section
/-! PROOFS. The BitVector commands (rules R120 to R129): the encoding of each, and the bits of the string or word it
writes. -/

namespace Sys2Proof

/-- An encoded word is the sum of its opcode and its fields, each at its place (rules R81 and R90). -/
theorem fieldsWord_eq_ofNat (o : BitVec 8) (vd vs : VReg) {n : Nat} (hn : n < 256) :
    fieldsWord o vd vs n = BitVec.ofNat 32 (o.toNat + 0x100 * vd.val + 0x400 * vs.val + 0x10000 * n) := by
  have hvd := vd.isLt
  have hvs := vs.isLt
  have ho := o.isLt
  apply BitVec.eq_of_toNat_eq
  rw [fieldsWord_toNat o vd vs n hn, BitVec.toNat_ofNat]
  omega

section
variable (vd vs : VReg)

theorem encode_bvZero : encode (.bvZero vd) = BitVec.ofNat 32 (0x10 + 0x100 * vd.val) :=
  fieldsWord_eq_ofNat 0x10#8 vd 0 (by decide : 0 < 256)

theorem encode_bvPush {n : Nat} (hn : n < 256) :
    encode (.bvPush vd n) = BitVec.ofNat 32 (0x11 + 0x100 * vd.val + 0x10000 * n) :=
  fieldsWord_eq_ofNat 0x11#8 vd 0 hn

theorem encode_bvChlen : encode (.bvChlen vd) = BitVec.ofNat 32 (0x12 + 0x100 * vd.val) :=
  fieldsWord_eq_ofNat 0x12#8 vd 0 (by decide : 0 < 256)

theorem encode_bvAppend : encode (.bvAppend vd vs) = BitVec.ofNat 32 (0x13 + 0x100 * vd.val + 0x400 * vs.val) :=
  fieldsWord_eq_ofNat 0x13#8 vd vs (by decide : 0 < 256)

theorem encode_bvShl : encode (.bvShl vd) = BitVec.ofNat 32 (0x14 + 0x100 * vd.val) :=
  fieldsWord_eq_ofNat 0x14#8 vd 0 (by decide : 0 < 256)

theorem encode_bvShr : encode (.bvShr vd) = BitVec.ofNat 32 (0x15 + 0x100 * vd.val) :=
  fieldsWord_eq_ofNat 0x15#8 vd 0 (by decide : 0 < 256)

theorem encode_bvExtract : encode (.bvExtract vd vs) = BitVec.ofNat 32 (0x16 + 0x100 * vd.val + 0x400 * vs.val) :=
  fieldsWord_eq_ofNat 0x16#8 vd vs (by decide : 0 < 256)

theorem encode_bvCopy : encode (.bvCopy vd vs) = BitVec.ofNat 32 (0x17 + 0x100 * vd.val + 0x400 * vs.val) :=
  fieldsWord_eq_ofNat 0x17#8 vd vs (by decide : 0 < 256)

theorem encode_bvLen : encode (.bvLen vs) = BitVec.ofNat 32 (0x18 + 0x400 * vs.val) :=
  fieldsWord_eq_ofNat 0x18#8 0 vs (by decide : 0 < 256)

theorem encode_bvReadw : encode (.bvReadw vs) = BitVec.ofNat 32 (0x19 + 0x400 * vs.val) :=
  fieldsWord_eq_ofNat 0x19#8 0 vs (by decide : 0 < 256)

end

end Sys2Proof

namespace Sys2Proof.Machine

/-- Settles O32: BV.ZERO's capacity check, and BV.COPY's write to VD alone. -/
theorem bvZeroAndCopyResults : Obligations.BvZeroAndCopyResults := by
  intro vd vs s
  refine ⟨encode_bvZero vd, fun hfits => ?zero, fun hlong => exec_of_exceedsCapacity hlong, encode_bvCopy vd vs,
    ?copy⟩
  case zero => exact ⟨.zeroes s.opaNat, (Effect.bvZero hfits).exec_eq, rfl, rfl⟩
  case copy =>
    exact ⟨_, Effect.bvCopy.exec_eq, rfl, getV_setV_same s vd _, fun k hk => getV_setV_ne s vd k _ hk⟩

/-- Settles O33: the count is checked before the capacity, and the low bits of OPA follow the old string. -/
theorem bvPushResult : Obligations.BvPushResult := by
  intro vd n s hcanon
  refine ⟨encode_bvPush vd, fun hle hfits => ?success, fun hgt => ?einval,
    fun hle hlong => exec_of_exceedsCapacity ⟨hle, hlong⟩⟩
  case success =>
    refine ⟨(s.getV vd).append (.raw s.opa n), (Effect.bvPush hle hfits).exec_eq, rfl,
      BitStr.append_lt hcanon (BitStr.raw_lt _ _), fun i hi => BitStr.append_bit_of_lt hcanon hi, fun i hi => ?_⟩
    rw [BitStr.append_bit_add hcanon, BitStr.raw_bit, decide_eq_true hi, Bool.true_and]
  case einval => rw [exec, execBvPush, if_pos hgt, fail_eq isCommandError_einval.ne_ok]

/-- Settles O34: truncation and zero-extension are one formula of the bits. -/
theorem bvChlenResult : Obligations.BvChlenResult := by
  intro vd s hcanon
  refine ⟨encode_bvChlen vd, fun hfits => ?success, fun hlong => exec_of_exceedsCapacity hlong⟩
  refine ⟨(s.getV vd).changeLength s.opaNat, (Effect.bvChlen hfits).exec_eq, rfl, BitStr.changeLength_lt _ _,
    fun i hi _ => ?below, fun i hi => ?above⟩
  case below => rw [BitStr.changeLength_bit, State.opaNat, decide_eq_true hi, Bool.true_and]
  case above => rw [BitStr.changeLength_bit, BitStr.bit_of_len_le hcanon hi, Bool.and_false]

/-- Settles O35: both operands are read before VD is written, so VD = VS is no case of its own. -/
theorem bvAppendResult : Obligations.BvAppendResult := by
  intro vd vs s hd hs
  refine ⟨encode_bvAppend vd vs, fun hfits => ?success, fun hlong => exec_of_exceedsCapacity hlong⟩
  exact ⟨(s.getV vd).append (s.getV vs), (Effect.bvAppend hfits).exec_eq, rfl, BitStr.append_lt hd hs,
    fun i hi => BitStr.append_bit_of_lt hd hi, fun i _ => BitStr.append_bit_add hd i⟩

/-- Settles O36: the bits below the count are 0, and the old bits follow them. -/
theorem bvShlResult : Obligations.BvShlResult := by
  intro vd s hcanon
  refine ⟨encode_bvShl vd, fun hfits => ?success, fun hlong => exec_of_exceedsCapacity hlong⟩
  refine ⟨(s.getV vd).leftShift s.opaNat, (Effect.bvShl hfits).exec_eq, rfl, BitStr.leftShift_lt hcanon _,
    fun i hi => ?zeros, fun i _ => BitStr.leftShift_bit_add _ _ _⟩
  rw [BitStr.leftShift_bit, State.opaNat, decide_eq_false (Nat.not_le.mpr hi), Bool.false_and]

/-- Settles O37: BV.SHR has no guard. -/
theorem bvShrResult : Obligations.BvShrResult := by
  intro vd s hcanon
  exact ⟨encode_bvShr vd, (s.getV vd).rightShift s.opaNat, Effect.bvShr.exec_eq, BitStr.rightShift_len _ _,
    BitStr.rightShift_lt hcanon _, fun i _ => BitStr.rightShift_bit hcanon _ i⟩

/-- Settles O38: the legal ranges and their slices, and every other range. -/
theorem bvExtractResult : Obligations.BvExtractResult := by
  intro vd vs s hcanon
  refine ⟨encode_bvExtract vd vs, fun hpos hle hlen => ?success, fun hbad => ?erange⟩
  case success =>
    refine ⟨((s.getV vs).rightShift (s.opaNat - 1)).changeLength (s.opbNat - s.opaNat + 1),
      (Effect.bvExtract (BitStr.extract_of_range hpos hle hlen)).exec_eq, rfl, BitStr.changeLength_lt _ _,
      fun i (hi : i < s.opbNat - s.opaNat + 1) => ?_⟩
    rw [BitStr.slice_bit hcanon, decide_eq_true hi, Bool.true_and, State.opaNat]
  case erange =>
    have hnone : (s.getV vs).extract s.opaNat s.opbNat = none :=
      BitStr.extract_eq_none (by rw [State.opaNat, State.opbNat]; omega)
    rw [exec, execBvExtract_of_none hnone, fail_eq isCommandError_erange.ne_ok]

/-- Settles O39: a length below 2^64 is its own RESULT, and a word ends with the zeros above the length. -/
theorem bvLenAndReadwResults : Obligations.BvLenAndReadwResults := by
  intro vs s hcanon
  refine ⟨encode_bvLen vs, fun hlt => ?len, encode_bvReadw vs, fun hin => ?word,
    fun (hout : (s.getV vs).wordCount ≤ s.opaNat) => ?erange⟩
  case len => exact ⟨_, Effect.bvLen.exec_eq, Nat.mod_eq_of_lt hlt⟩
  case word =>
    refine ⟨(s.getV vs).word s.opaNat, (Effect.bvReadw hin).exec_eq, fun i hi => ?_⟩
    rw [BitStr.word_bit, decide_eq_true hi, Bool.true_and, BitStr.bit_eq_and_of_canonical hcanon, State.opaNat]
  case erange => rw [exec, execBvReadw, if_pos hout, fail_eq isCommandError_erange.ne_ok]

end Sys2Proof.Machine
end

section
/-! PROOFS. The commands that raise EINVAL and those that raise ERANGE (rules R263, R264 and R268). -/

namespace Sys2Proof.Machine

/-- Rule R263 by command: no ESTATE comes first, and an operand has no legal value. -/
def InvalidOperand (s : State) : Instr → Prop
  | .bvPush _ n => 64 < n
  | .pInit => s.sst ≠ .absorbing ∧ (s.opaNat ∉ legalWidths ∨ 255 < s.opbNat)
  | .pWrlane => s.sst ≠ .absorbing ∧ 2 ^ s.w.toNat ≤ s.opbNat
  | .sInit => s.opaNat = 0 ∨ 1600 ≤ s.opaNat
  | .bvZero _ | .bvChlen _ | .bvAppend _ _ | .bvShl _ | .bvShr _ | .bvExtract _ _ | .bvCopy _ _ | .bvLen _ | .bvReadw _
  | .pPermute | .pRdlane | .pXorin _ | .pExtract _ | .sAbsorb _ | .sFinal _ => False

/-- Rule R264 by command: no ESTATE or EINVAL comes first, and a position or a length is out of range. -/
def OutOfRange (s : State) : Instr → Prop
  | .bvExtract _ vs => (s.getV vs).badRange s.opaNat s.opbNat = true
  | .bvReadw vs => (s.getV vs).wordCount ≤ s.opaNat
  | .pRdlane => s.sst ≠ .absorbing ∧ 24 < s.opaNat
  | .pWrlane => s.sst ≠ .absorbing ∧ s.opbNat < 2 ^ s.w.toNat ∧ 24 < s.opaNat
  | .pXorin vs => s.sst ≠ .absorbing ∧ s.width.toNat < (s.getV vs).len
  | .pExtract _ => s.sst ≠ .absorbing ∧ s.width.toNat < s.opaNat
  | .bvZero _ | .bvPush _ _ | .bvChlen _ | .bvAppend _ _ | .bvShl _ | .bvShr _ | .bvCopy _ _ | .bvLen _ | .pInit
  | .pPermute | .sInit | .sAbsorb _ | .sFinal _ => False

/-- The ranges `extract` fails on (rule R108). -/
theorem BitStr.badRange_iff (x : BitStr) (first last : Nat) :
    x.badRange first last = true ↔ first = 0 ∨ last < first ∨ x.len < last ∨ x.len < first := by
  simp only [BitStr.badRange, Bool.or_eq_true, decide_eq_true_eq, or_assoc]

/-- BV.EXTRACT's code is ERANGE on a bad range and OK on every other (rules R108 and R126). -/
theorem errorOf_execBvExtract (vd vs : VReg) (s : State) :
    errorOf (execBvExtract vd vs s) =
      if (s.getV vs).badRange s.opaNat s.opbNat then .erange else .ok := by
  by_cases h : (s.getV vs).badRange s.opaNat s.opbNat <;> simp [execBvExtract, BitStr.extract, h]

theorem errorOf_exec_eq_einval_iff (i : Instr) (s : State) :
    errorOf (exec i s) = .einval ↔ InvalidOperand s i := by
  have hne : ErrorCode.einval ≠ .estate := nofun
  cases i with
  | bvZero | bvPush | bvChlen | bvAppend | bvShl | bvReadw | sInit =>
    simp [exec, execBvZero, execBvPush, execBvChlen, execBvAppend, execBvShl, execBvReadw, execSInit,
      errorOf_ite_eq_iff, InvalidOperand]
  | bvShr | bvCopy | bvLen => exact ⟨nofun, nofun⟩
  | bvExtract => rw [exec, errorOf_execBvExtract, InvalidOperand]; split <;> simp
  | pInit =>
    simp only [exec, execPInit, errorOf_unlessAbsorbing hne, errorOf_ite_eq_iff, errorOf_fail, errorOf_succeed,
      InvalidOperand]
    tauto
  | pPermute | pRdlane | pWrlane | pXorin | pExtract =>
    simp [exec, execPPermute, execPRdlane, execPWrlane, execPXorin, execPExtract,
      errorOf_unlessAbsorbing hne, errorOf_ite_eq_iff, InvalidOperand]
  | sAbsorb | sFinal =>
    simp [exec, execSAbsorb, execSFinal, errorOf_whileAbsorbing hne, errorOf_ite_eq_iff, InvalidOperand]

theorem errorOf_exec_eq_erange_iff (i : Instr) (s : State) :
    errorOf (exec i s) = .erange ↔ OutOfRange s i := by
  have hne : ErrorCode.erange ≠ .estate := nofun
  cases i with
  | bvZero | bvPush | bvChlen | bvAppend | bvShl | bvReadw | sInit =>
    simp [exec, execBvZero, execBvPush, execBvChlen, execBvAppend, execBvShl, execBvReadw, execSInit,
      errorOf_ite_eq_iff, OutOfRange]
  | bvShr | bvCopy | bvLen => exact ⟨nofun, nofun⟩
  | bvExtract => simp [exec, errorOf_execBvExtract, OutOfRange]
  | pInit | pPermute | pRdlane | pWrlane | pXorin | pExtract =>
    simp [exec, execPInit, execPPermute, execPRdlane, execPWrlane, execPXorin, execPExtract,
      errorOf_unlessAbsorbing hne, errorOf_ite_eq_iff, OutOfRange]
  | sAbsorb | sFinal =>
    simp [exec, execSAbsorb, execSFinal, errorOf_whileAbsorbing hne, errorOf_ite_eq_iff, OutOfRange]

/-- Settles O25: the cases of rule R263, command by command. -/
theorem whenEinvalIsRaised : Obligations.WhenEinvalIsRaised := by
  intro i s t h
  rw [← errorOf_next t, ← h, errorOf_exec_eq_einval_iff]
  cases i <;> simp [InvalidOperand, State.opaNat, State.opbNat, legalWidths]

/-- Settles O26: the cases of rule R264, command by command. -/
theorem whenErangeIsRaised : Obligations.WhenErangeIsRaised := by
  intro i s t h
  rw [← errorOf_next t, ← h, errorOf_exec_eq_erange_iff]
  cases i <;> simp [OutOfRange, State.opaNat, State.opbNat, BitStr.badRange_iff, BitStr.wordCount]

/-- A command that ends with an error's code has no other effect (rule R272). -/
theorem exec_of_errorOf {i : Instr} {s : State} {e : ErrorCode} (he : e ≠ .ok) (h : errorOf (exec i s) = e) :
    exec i s = .next (s.afterError e) := by
  have hends := exec_ends i s
  generalize exec i s = r at h hends
  cases hends with
  | error => rw [errorOf_next, afterError_lastErr] at h; rw [h]
  | success => exact absurd h.symm he

theorem exec_of_invalidOperand {i : Instr} {s : State} (h : InvalidOperand s i) :
    exec i s = .next (s.afterError .einval) :=
  exec_of_errorOf nofun ((errorOf_exec_eq_einval_iff i s).mpr h)

theorem exec_of_outOfRange {i : Instr} {s : State} (h : OutOfRange s i) :
    exec i s = .next (s.afterError .erange) :=
  exec_of_errorOf nofun ((errorOf_exec_eq_erange_iff i s).mpr h)

end Sys2Proof.Machine
end

section
/-! PROOFS. The lanes while the sponge owns the engine (rules R176 and R214): two runs that differ in the lanes only
take the same branches and write the same values. -/

namespace Sys2Proof.Machine

/-- The state with other lanes. -/
def State.withLanes (a : Grid) (s : State) : State := { s with lanes := a }

theorem unseen_withLanes (a : Grid) : Unseen (State.withLanes a) := ⟨fun _ => rfl, fun _ _ => rfl, fun _ => rfl⟩

/-- Every P command raises ESTATE in ABSORBING, whatever it would do otherwise (rule R176). -/
theorem Unseen.unlessAbsorbing_owned {f : State → State} (hf : Unseen f) {s : State} (owned : s.sst = .absorbing)
    (k k' : Result) : NextUpTo f (Machine.unlessAbsorbing s k) (Machine.unlessAbsorbing (f s) k') := by
  rw [Machine.unlessAbsorbing_owned owned, Machine.unlessAbsorbing_owned ((hf.sst s).trans owned), hf.afterError]
  exact .next _

/-- In ABSORBING only S.INIT and S.FINAL use the lanes (rules R176 and R214). -/
theorem exec_withLanes {i : Instr} {s : State} (owned : s.sst = .absorbing) (hsInit : i ≠ .sInit)
    (hsFinal : ∀ vd, i ≠ .sFinal vd) (a : Grid) :
    NextUpTo (State.withLanes a) (exec i s) (exec i (s.withLanes a)) := by
  have f := unseen_withLanes a
  have cap := f.fail (s := s) isCommandError_ecapacity
  have val := f.fail (s := s) isCommandError_einval
  have range := f.fail (s := s) isCommandError_erange
  cases i with
  | bvZero vd => rw [exec, exec, execBvZero, execBvZero]; exact .ite (f.succeed _) cap
  | bvPush vd imm8 => rw [exec, exec, execBvPush, execBvPush]; exact .ite val (.ite (f.succeed _) cap)
  | bvChlen vd => rw [exec, exec, execBvChlen, execBvChlen]; exact .ite (f.succeed _) cap
  | bvAppend vd vs => rw [exec, exec, execBvAppend, execBvAppend]; exact .ite (f.succeed _) cap
  | bvShl vd => rw [exec, exec, execBvShl, execBvShl]; exact .ite (f.succeed _) cap
  | bvShr vd => exact f.succeed (s.setV vd _)
  | bvExtract vd vs =>
    rw [exec, exec]
    cases hx : (s.getV vs).extract s.opaNat s.opbNat with
    | some x =>
      rw [execBvExtract_of_some hx, execBvExtract_of_some (s := s.withLanes a) hx]
      exact f.succeed _
    | none =>
      rw [execBvExtract_of_none hx, execBvExtract_of_none (s := s.withLanes a) hx]
      exact range
  | bvCopy vd vs => exact f.succeed (s.setV vd _)
  | bvLen vs => exact f.succeed (s.setResult _)
  | bvReadw vs => exact .ite range (f.succeed (s.setResult _))
  | pInit | pPermute | pRdlane | pWrlane | pXorin | pExtract => exact f.unlessAbsorbing_owned owned _ _
  | sInit => exact absurd rfl hsInit
  | sAbsorb vs => exact f.whileAbsorbing (.ite (f.succeed _) cap)
  | sFinal vd => exact absurd rfl (hsFinal vd)

/-- In ABSORBING the P commands, which write the lanes outside it, have no effect (rule R176). -/
theorem Effect.lanes_eq_of_owned {i : Instr} {s u : State} (h : Effect s i u) (owned : s.sst = .absorbing)
    (hsInit : i ≠ .sInit) (hsFinal : ∀ vd, i ≠ .sFinal vd) : u.lanes = s.lanes := by
  cases h with
  | pInit free | pPermute free | pWrlane free | pXorin free => exact absurd owned free
  | sInit => exact absurd rfl hsInit
  | sFinal => exact absurd rfl (hsFinal _)
  | _ => simp

/-- Settles O31: the run on other lanes is the first with those lanes, and no error or effect writes them. -/
theorem lanesAreUnobservableWhileAbsorbing : Obligations.LanesAreUnobservableWhileAbsorbing := by
  intro i s t a owned hsInit hsFinal h
  refine ⟨?same, ?kept⟩
  case same =>
    have hrun := exec_withLanes owned hsInit hsFinal a
    rw [h] at hrun
    exact hrun.eq_next
  case kept =>
    rcases exec_next h with ⟨e, -, rfl⟩ | ⟨u, hu, rfl⟩
    · rfl
    · exact hu.lanes_eq_of_owned owned hsInit hsFinal

end Sys2Proof.Machine
end

section
/-! PROOFS. The P commands but P.XORIN's result (rules R152 to R154 and R170 to R176). -/

namespace Sys2Proof.Machine

/-- The P commands, which the engine guard governs (rule R176). -/
theorem exec_of_owned {i : Instr} {s : State} (owned : s.sst = .absorbing)
    (hi : i ∈ [.pInit, .pPermute, .pRdlane, .pWrlane] ∨ ∃ r, i = .pXorin r ∨ i = .pExtract r) :
    exec i s = .next (s.afterError .estate) := by
  cases i with
  | pInit | pPermute | pRdlane | pWrlane | pXorin | pExtract => exact unlessAbsorbing_owned owned _
  | _ => simp at hi

/-- OFF[x][y] is ROTTAB[x][y] mod w, by flat index (rule R143). -/
theorem offsets_getD {l i : Nat} (hl : l ≤ 6) (hi : i < 25) :
    ((offsets (2 ^ l)).getD i 0#6).toNat = rotTab.getD i 0 % 2 ^ l := by
  have hcount := offsets_count l (i % 5) (i / 5) hl
  have hflat : 5 * (i / 5 % 5) + i % 5 % 5 = i := by omega
  rwa [Offsets.count, hflat] at hcount

/-- A consistent OFF by flat index (rules R29 and R143). -/
theorem ConfigConsistent.off_getD {s : State} (h : ConfigConsistent s) {i : Nat} (hi : i < 25) :
    (s.off.getD i 0#6).toNat = rotTab.getD i 0 % s.w.toNat := by
  rw [h.off_eq, h.w_eq]
  exact offsets_getD h.l_le hi

/-- WIDTH holds every legal width (rules R29 and R141). -/
theorem toNat_ofNat_of_legalWidth {b : Nat} (hb : b ∈ legalWidths) : (BitVec.ofNat 11 b).toNat = b := by
  have hlt : ∀ b ∈ legalWidths, b < 2 ^ 11 := by decide
  exact Nat.mod_eq_of_lt (hlt b hb)

/-- Settles O47: the guards in order, and the configuration that every legal width gives. -/
theorem pInitResult : Obligations.PInitResult := by
  intro s
  refine ⟨rfl, fun free hlegal hrounds => ?success, fun owned => exec_of_owned owned (by simp),
    fun free hbad => exec_of_invalidOperand ⟨free, hbad⟩⟩
  have hconfig := configure_configConsistent s (b := s.opaNat) hlegal s.opbNat
  have hwidth := toNat_ofNat_of_legalWidth (b := s.opaNat) hlegal
  exact ⟨_, _, _, _, _, (Effect.pInit free hlegal hrounds).exec_eq, hwidth,
    Nat.mod_eq_of_lt (Nat.lt_succ_of_le hrounds),
    hconfig.width_eq.symm.trans hwidth, hconfig.w_eq.symm, fun i hi => hconfig.off_getD hi⟩

/-- The permutation as one fold over the round indices (rules R152 and R154). -/
theorem permuted_eq_foldl (s : State) :
    s.permuted = (List.range s.rounds.toNat).foldl (fun (a : Grid) (k : Nat) =>
      keccakRound s.w.toNat s.l.toNat s.off a (12 + 2 * (s.l.toNat : Int) - (s.rounds.toNat : Int) + (k : Int)))
      s.lanes :=
  keccakRounds_eq_foldl _ _ _ _ _ _

/-- No round changes nothing (rule R171). -/
theorem permuted_of_rounds_eq_zero {s : State} (h : s.rounds = 0#8) : s.permuted = s.lanes := by
  rw [permuted_eq_foldl, h]
  rfl

/-- Settles O48: the rounds in increasing order, and none with ROUNDS = 0. -/
theorem pPermuteResult : Obligations.PPermuteResult := by
  intro s
  refine ⟨rfl, fun free => ?rounds, fun free hzero => ?none, fun owned => exec_of_owned owned (by simp)⟩
  case rounds =>
    rw [(Effect.pPermute free).exec_eq, permuted_eq_foldl]
    rfl
  case none =>
    rw [(Effect.pPermute free).exec_eq, permuted_of_rounds_eq_zero hzero]
    rfl

/-- A lane by coordinates is the lane at its flat index 5y + x (rules R18 and R172). -/
theorem lane_eq_laneAt (s : State) {x y : Nat} (hx : x < 5) (hy : y < 5) : s.lanes.lane x y = s.laneAt (5 * y + x) := by
  rw [Grid.lane, Nat.mod_eq_of_lt hx, Nat.mod_eq_of_lt hy, State.laneAt]

/-- Settles O49: the guards in order, and the lane at the flat index 5y + x. -/
theorem laneReadAndWriteResults : Obligations.LaneReadAndWriteResults := by
  intro s x y hx hy
  refine ⟨rfl, rfl, fun free (hindex : s.opaNat = 5 * y + x) => ⟨?read, fun hvalue => ?write⟩,
    fun free hi => exec_of_outOfRange ⟨free, hi⟩, fun free hvalue => exec_of_invalidOperand ⟨free, hvalue⟩,
    fun free hvalue hi => exec_of_outOfRange ⟨free, hvalue, hi⟩,
    fun owned => ⟨exec_of_owned owned (by simp), exec_of_owned owned (by simp)⟩⟩
  case read => exact ⟨_, (Effect.pRdlane free (by omega)).exec_eq, by rw [State.laneAt, hindex]⟩
  case write =>
    refine ⟨(s.setLaneAt s.opaNat s.opb).lanes, (Effect.pWrlane free hvalue (by omega)).exec_eq, ?same,
      fun x' y' hx' hy' hne => ?other⟩
    case same => rw [lane_eq_laneAt _ hx hy, laneAt_setLaneAt _ _ _ _ (by omega), if_pos hindex.symm]
    case other =>
      rw [lane_eq_laneAt _ hx' hy', laneAt_setLaneAt _ _ _ _ (by omega), if_neg (by omega), lane_eq_laneAt _ hx' hy']

/-- XOR-in is its own inverse (rule R161). -/
theorem xorIn_xorIn (w : Nat) (a : Grid) (m : BitStr) : xorIn w (xorIn w a m) m = a :=
  Grid.ext_lanes fun x y _ _ => by rw [lane_xorIn, lane_xorIn, BitVec.xor_assoc, BitVec.xor_self, BitVec.xor_zero]

/-- What P.XORIN leaves when its guards hold: the string XORed in, and all that decides what a second one does
(rule R174). -/
theorem pXorin_next_of_guards {vs : VReg} {s t : State} (free : s.sst ≠ .absorbing)
    (fits : (s.getV vs).len ≤ s.width.toNat) (h : exec (.pXorin vs) s = .next t) :
    t.lanes = xorIn s.w.toNat s.lanes (s.getV vs) ∧ t.sst = s.sst ∧ t.width = s.width ∧ t.w = s.w ∧ t.v = s.v := by
  rw [(Effect.pXorin free fits).exec_eq] at h
  cases h
  simp

/-- P.XORIN raises an error when its guards do not hold (rules R174 and R176). -/
theorem pXorin_next_of_not_guards {vs : VReg} {s t : State}
    (hguards : ¬ (s.sst ≠ .absorbing ∧ (s.getV vs).len ≤ s.width.toNat)) (h : exec (.pXorin vs) s = .next t) :
    ∃ e, t = s.afterError e := by
  rcases exec_next h with ⟨e, -, rfl⟩ | ⟨u, hu, -⟩
  · exact ⟨e, rfl⟩
  · cases hu with
    | pXorin free fits => exact absurd ⟨free, fits⟩ hguards

/-- Settles O51: the guards are those of the first command for the second too. -/
theorem xorinTwiceRestores : Obligations.XorinTwiceRestores := by
  intro vs s t u ht hu
  by_cases hguards : s.sst ≠ .absorbing ∧ (s.getV vs).len ≤ s.width.toNat
  case pos =>
    obtain ⟨free, fits⟩ := hguards
    obtain ⟨hlanes, hsst, hwidth, hw, hv⟩ := pXorin_next_of_guards free fits ht
    have hV := getV_congr (s := s) hv vs
    rw [← hsst] at free
    rw [← hV, ← hwidth] at fits
    obtain ⟨hlanes', -⟩ := pXorin_next_of_guards free fits hu
    rw [hlanes', hlanes, hw, hV, xorIn_xorIn]
  case neg =>
    obtain ⟨e, rfl⟩ := pXorin_next_of_not_guards hguards ht
    obtain ⟨e', rfl⟩ := pXorin_next_of_not_guards (s := s.afterError e) hguards hu
    rfl

theorem encode_pExtract (vd : VReg) : encode (.pExtract vd) = BitVec.ofNat 32 (0x25 + 0x100 * vd.val) :=
  fieldsWord_eq_ofNat 0x25#8 vd 0 (by decide : 0 < 256)

/-- Settles O52: the guards in order, and the first bits of the state string. -/
theorem pExtractResult : Obligations.PExtractResult := by
  intro vd s hconfig
  refine ⟨encode_pExtract vd, fun free hlen => ?success, fun free hlong => exec_of_outOfRange ⟨free, hlong⟩,
    fun owned => exec_of_owned owned (by simp)⟩
  have hpos : 0 < s.w.toNat := by rw [hconfig.w_eq]; exact Nat.two_pow_pos _
  refine ⟨extractOut s.w.toNat s.lanes s.opaNat, (Effect.pExtract free hlen).exec_eq, rfl, extractOut_lt _ _ _,
    fun i (hi : i < s.opaNat) => ?_⟩
  have hin : i < 25 * s.w.toNat := hconfig.width_eq ▸ hi.trans_le hlen
  rw [extractOut_bit hpos _ _ hin, decide_eq_true hi, Bool.true_and]

end Sys2Proof.Machine
end

section
/-! PROOFS. The step mappings of a round, bit by bit (rules R144 to R151), and the register of the round constants. -/

namespace Sys2Proof.Machine

/-! ### θ, ρ and π -/

/-- The lanes lie within w bits when those of the 25 coordinates do (rule R28). -/
theorem Grid.within_of_lanes {w : Nat} {a : Grid} (h : ∀ i j, i < 5 → j < 5 → (a.lane i j).toNat < 2 ^ w) :
    a.Within w := fun x y => by
  rw [← Grid.lane_mod]
  exact h _ _ (Nat.mod_lt _ (by omega)) (Nat.mod_lt _ (by omega))

/-- Settles O43: the two column parities, the second rotated by one. -/
theorem thetaBits : Obligations.ThetaBits := by
  intro w a x y z hw hw' hlanes hx hy hz
  have hwithin := Grid.within_of_lanes hlanes
  have hrot : (z + (w - 1 % w)) % w = (z + w - 1) % w := by
    rcases Nat.eq_or_lt_of_le hw with rfl | hw
    · simp only [Nat.mod_one]
    · rw [Nat.mod_eq_of_lt hw, Nat.add_sub_assoc (by omega)]
  rw [lane_theta, BitVec.getLsbD_xor, BitVec.getLsbD_xor, rotl_bit hw' (columnParity_lt hwithin _) 1 hz, hrot,
    columnParity_bit, columnParity_bit]

/-- A rotation by `n` moves bit `z` to z + n mod w (rule R144). -/
theorem rotl_bit_add {w : Nat} (hw : w ≤ 64) {v : Word} (hv : v.toNat < 2 ^ w) (n : Nat) {z : Nat} (hz : z < w) :
    (rotl w v n).getLsbD ((z + n) % w) = v.getLsbD z := by
  have hpos : 0 < w := Nat.zero_lt_of_lt hz
  have hback : z + n + (w - n % w) = z + w * (n / w + 1) := by
    have hmod := Nat.mod_lt n hpos
    have hdiv := Nat.div_add_mod n w
    rw [Nat.mul_succ]
    omega
  rw [rotl_bit hw hv n (Nat.mod_lt _ hpos), Nat.mod_add_mod, hback, Nat.add_mul_mod_self_left, Nat.mod_eq_of_lt hz]

/-- Settles O44: π names the lane that ρ rotates, by the offset of its own coordinates. -/
theorem rhoPiBits : Obligations.RhoPiBits := by
  intro l a x y z hl hlanes hx hy hz
  have hw : 2 ^ l ≤ 64 := Nat.pow_le_pow_right (n := 2) (by omega) hl
  have hwithin := Grid.within_of_lanes hlanes
  have hmove : (z + rotTab.getD (5 * x + (x + 3 * y) % 5) 0) % 2 ^ l =
      (z + (offsets (2 ^ l)).count (x + 3 * y) x) % 2 ^ l := by
    rw [offsets_count l _ _ hl, Nat.mod_eq_of_lt hx, Nat.add_mod_mod]
  rw [lane_piStep, lane_rho, hmove, rotl_bit_add hw (hwithin _ _) _ hz, ← Grid.lane_mod a (x + 3 * y),
    Nat.mod_eq_of_lt hx]

/-! ### χ and ι -/

/-- Bits of χ, those above w included (rule R148). -/
theorem chi_bit {w : Nat} (hw : w ≤ 64) {a : Grid} (h : a.Within w) (x y z : Nat) :
    ((chi w a).lane x y).getLsbD z =
      ((a.lane x y).getLsbD z ^^ (!(a.lane (x + 1) y).getLsbD z && (a.lane (x + 2) y).getLsbD z)) := by
  rw [lane_chi, BitVec.getLsbD_xor, BitVec.getLsbD_and, notLane_bit hw]
  by_cases hz : z < w
  · rw [decide_eq_true hz, Bool.true_and]
  · rw [getLsbD_of_lt (h (x + 2) y) (Nat.le_of_not_lt hz), Bool.and_false, Bool.and_false]

/-- Bits of ι (rules R150 and R151). -/
theorem iota_bit {l : Nat} (hl : l ≤ 6) (ir : Int) (a : Grid) {x y : Nat} (hx : x < 5) (hy : y < 5) (z : Nat) :
    ((iota l ir a).lane x y).getLsbD z =
      ((a.lane x y).getLsbD z ^^
        decide (x = 0 ∧ y = 0 ∧ ∃ j, j ≤ l ∧ z = 2 ^ j - 1 ∧ rc ((j : Int) + 7 * ir) = true)) := by
  rw [lane_iota, Nat.mod_eq_of_lt hx, Nat.mod_eq_of_lt hy]
  split
  · next horigin =>
    rw [BitVec.getLsbD_xor, roundConstant, rcBits_bit ir z (l + 1) (by omega)]
    simp only [horigin, true_and, Nat.lt_succ_iff]
  · next hother =>
    rw [decide_eq_false fun ⟨hx, hy, _⟩ => hother ⟨hx, hy⟩, Bool.xor_false]

/-- Settles O45: the bits of χ and of ι. -/
theorem chiIotaBits : Obligations.ChiIotaBits := by
  intro l ir a x y z hl hx hy hlanes
  have hw : 2 ^ l ≤ 64 := Nat.pow_le_pow_right (n := 2) (by omega) hl
  have hchi := chi_bit hw (Grid.within_of_lanes hlanes) x y z
  rw [← Grid.lane_mod a (x + 1), ← Grid.lane_mod a (x + 2), Nat.mod_eq_of_lt hy] at hchi
  exact ⟨hchi, iota_bit hl ir a hx hy z⟩

/-! ### The register of the round constants -/

/-- rc(n) for a natural number n, whatever its size (rule R149). -/
theorem rc_natCast (n : Nat) : rc (n : Int) = (lfsr n).getLsbD 0 := by
  have hperiod : Function.Periodic lfsr 255 := lfsr_add_period
  have hmod : ((n : Int) % 255).toNat = n % 255 := by omega
  rw [rc, hmod, hperiod.map_mod_nat]

/-- Settles O46: the register returns after 255 steps, and the 24 constants are computed. -/
theorem roundConstantBitsHavePeriod255 : Obligations.RoundConstantBitsHavePeriod255 := by
  refine ⟨rc_natCast, fun t => ⟨?reduced, ?shifted⟩, rfl, ?negative, rfl, fun _ => rfl, ?constants⟩
  case reduced => rw [rc, rc, Int.emod_emod_of_dvd t (Int.dvd_refl 255)]
  case shifted => rw [rc, rc, Int.add_emod_right]
  case negative => decide +kernel
  case constants => decide +kernel

end Sys2Proof.Machine
end

section
/-! PROOFS. The sponge (rules R205 to R208 and R212): the blocks absorbed one by one, and the blocks squeezed one by
one. -/

namespace Sys2Proof.Machine

/-! ### Absorbing -/

/-- The lanes after the first `i` blocks of a padded message (rule R206). -/
def absorbedLanes (p : BitStr) (r i : Nat) : Grid := absorbBlocks p r i 0 Grid.zero

/-- The lanes with block `i` XORed in, before its permutation (rule R206). -/
def blendedLanes (p : BitStr) (r i : Nat) : Grid :=
  xorIn 64 (absorbedLanes p r i) ((messageBlock p r i).changeLength 1600)

theorem absorbedLanes_zero (p : BitStr) (r : Nat) : absorbedLanes p r 0 = Grid.zero := rfl

theorem absorbedLanes_succ (p : BitStr) (r i : Nat) :
    absorbedLanes p r (i + 1) = keccakF (blendedLanes p r i) := by
  rw [absorbedLanes, absorbBlocks_last, Nat.zero_add]
  rfl

theorem absorbAll_zero (p : BitStr) (r : Nat) : absorbAll Grid.zero p r = absorbedLanes p r (blockCount p r) := rfl

/-- Bits of a block, the one the XOR-in datapath takes (rules R161, R205 and R206). -/
theorem messageBlock_bit {p : BitStr} (hp : p.val < 2 ^ p.len) {r i : Nat} (hr : 0 < r) (hr' : r ≤ 1600)
    (hi : (i + 1) * r ≤ p.len) (j : Nat) :
    ((messageBlock p r i).changeLength 1600).bit j = (decide (j < r) && p.bit (i * r + j)) := by
  rw [BitStr.changeLength_bit, messageBlock_eq hr hi, BitStr.slice_bit hp]
  by_cases hj : j < r
  · rw [decide_eq_true (hj.trans_le hr'), Bool.true_and]
  · rw [decide_eq_false hj, Bool.false_and, Bool.and_false]

/-- Absorbing a block flips the bits of the lanes, in flat order, where the block has a 1 (rule R206). -/
theorem blendedLanes_bit {p : BitStr} (hp : p.val < 2 ^ p.len) {r i : Nat} (hr : 0 < r) (hr' : r ≤ 1600)
    (hi : (i + 1) * r ≤ p.len) {q z : Nat} (hq : q < 25) (hz : z < 64) :
    ((blendedLanes p r i).getD q 0#64).getLsbD z =
      (((absorbedLanes p r i).getD q 0#64).getLsbD z ^^
        (decide (64 * q + z < r) && p.bit (i * r + (64 * q + z)))) := by
  have hflat : 5 * (q / 5) + q % 5 = q := Nat.div_add_mod q 5
  rw [Grid.getD_eq_lane _ q hq, Grid.getD_eq_lane _ q hq, blendedLanes,
    xorIn_bit (Nat.le_refl 64) _ (BitStr.changeLength_lt _ _) (Nat.le_refl 1600) (Nat.mod_lt _ (by omega)) (by omega),
    messageBlock_bit hp hr hr' hi, hflat, decide_eq_true hz, Bool.true_and]

/-- The padded message is the message, a 1, zeros, and a 1 as its last bit (rules R203 and R205). -/
theorem paddedMessage_bit_eq_or {m : BitStr} (hm : m.val < 2 ^ m.len) (r i : Nat) :
    (paddedMessage m r).bit i =
      (m.bit i || decide (i = m.len) || decide (i + 1 = (paddedMessage m r).len)) := by
  rw [paddedMessage_bit hm, paddedMessage_len]
  by_cases hi : i < m.len
  · rw [if_pos hi, decide_eq_false (by omega), decide_eq_false (by omega), Bool.or_false, Bool.or_false]
  · rw [if_neg hi, BitStr.bit_of_len_le hm (Nat.le_of_not_lt hi), Bool.false_or, ← Bool.decide_or, decide_eq_decide]
    omega

/-! ### Squeezing -/

/-- The first `k + 1` blocks of `r` bits squeezed out of the lanes `a` (rule R207). -/
def squeezedBlocks (r : Nat) (a : Grid) : Nat → BitStr
  | 0 => extractOut 64 a r
  | k + 1 => (squeezedBlocks r a k).append (extractOut 64 (keccakF^[k + 1] a) r)

theorem squeezedBlocks_len (r : Nat) (a : Grid) (k : Nat) : (squeezedBlocks r a k).len = (k + 1) * r := by
  induction k with
  | zero => rw [squeezedBlocks, extractOut_len, Nat.zero_add, Nat.one_mul]
  | succ k ih => rw [squeezedBlocks, BitStr.append_len, ih, extractOut_len, Nat.succ_mul (k + 1)]

theorem squeezedBlocks_lt (r : Nat) (a : Grid) (k : Nat) :
    (squeezedBlocks r a k).val < 2 ^ (squeezedBlocks r a k).len := by
  induction k with
  | zero => exact extractOut_lt _ _ _
  | succ k ih => exact BitStr.append_lt ih (extractOut_lt _ _ _)

/-- Bits of one squeezed block, by flat index of the lane (rule R162). -/
theorem extractOut_bit_getD (a : Grid) {r j : Nat} (hr : r ≤ 1600) (hj : j < r) :
    (extractOut 64 a r).bit j = (a.getD (j / 64) 0#64).getLsbD (j % 64) := by
  rw [extractOut_bit (by decide) a r (by omega : j < 25 * 64), decide_eq_true hj, Bool.true_and,
    Grid.getD_eq_lane a _ (by omega)]

/-- Bit `i` of the squeezed blocks is bit i mod r of the lanes after i div r permutations (rule R207). -/
theorem squeezedBlocks_bit {r : Nat} (hr : 0 < r) (hr' : r ≤ 1600) (a : Grid) {k i : Nat} (hi : i < (k + 1) * r) :
    (squeezedBlocks r a k).bit i = ((keccakF^[i / r] a).getD (i % r / 64) 0#64).getLsbD (i % r % 64) := by
  induction k with
  | zero =>
    have hi' : i < r := by omega
    rw [squeezedBlocks, extractOut_bit_getD a hr' hi', Nat.div_eq_of_lt hi', Nat.mod_eq_of_lt hi',
      Function.iterate_zero_apply]
  | succ k ih =>
    rw [squeezedBlocks, BitStr.append_bit (squeezedBlocks_lt r a k), squeezedBlocks_len]
    split
    · next hlow => exact ih hlow
    · next hlow =>
      obtain ⟨j, rfl⟩ := Nat.exists_eq_add_of_le (Nat.le_of_not_lt hlow)
      have hj : j < r := by rw [Nat.succ_mul (k + 1)] at hi; omega
      have hdiv : ((k + 1) * r + j) / r = k + 1 := by
        rw [Nat.mul_comm, Nat.mul_add_div hr, Nat.div_eq_of_lt hj, Nat.add_zero]
      have hmod : ((k + 1) * r + j) % r = j := by
        rw [Nat.mul_comm, Nat.mul_add_mod, Nat.mod_eq_of_lt hj]
      rw [Nat.add_sub_cancel_left, extractOut_bit_getD _ hr' hj, hdiv, hmod]

/-- (d - 1) div r turns are left for d bits: `k + 1` blocks are too few exactly while k is below that. -/
theorem succ_mul_lt_iff {r : Nat} (hr : 0 < r) (d k : Nat) : (k + 1) * r < d ↔ k < (d - 1) / r := by
  rw [Nat.lt_iff_add_one_le (m := k), Nat.le_div_iff_mul_le hr]
  have : 0 < (k + 1) * r := Nat.mul_pos (Nat.succ_pos k) hr
  omega

/-- The squeeze loop entered with `k + 1` blocks ends with enough of them, if it has the turns (rule R207). -/
theorem squeezeLoop_eq {r : Nat} (hr : 0 < r) (d : Nat) (a : Grid) (fuel k : Nat) (hk : k ≤ (d - 1) / r)
    (hfuel : (d - 1) / r ≤ k + fuel) :
    squeezeLoop r d fuel (squeezedBlocks r a k) (keccakF^[k] a) =
      (squeezedBlocks r a ((d - 1) / r), keccakF^[(d - 1) / r] a) := by
  induction fuel generalizing k with
  | zero =>
    obtain rfl : k = (d - 1) / r := by omega
    rfl
  | succ fuel ih =>
    rcases Nat.lt_or_eq_of_le hk with hlt | rfl
    case inl =>
      have hmore : (squeezedBlocks r a k).len < d := by rw [squeezedBlocks_len]; exact (succ_mul_lt_iff hr d k).mpr hlt
      rw [squeezeLoop_more hmore, ← Function.iterate_succ_apply' keccakF]
      exact ih (k + 1) hlt (by omega)
    case inr =>
      refine squeezeLoop_done (Nat.le_of_not_lt fun h => ?_) _
      rw [squeezedBlocks_len, succ_mul_lt_iff hr] at h
      omega

/-- Squeezing d bits: (d - 1) div r more permutations, and the first d bits of the blocks (rule R207). -/
theorem squeeze_eq {r : Nat} (hr : 0 < r) (a : Grid) (d : Nat) :
    squeeze a r d = ((squeezedBlocks r a ((d - 1) / r)).changeLength d, keccakF^[(d - 1) / r] a) := by
  have hturns : (d - 1) / r ≤ 0 + d := (Nat.div_le_self _ _).trans (by omega)
  have hloop : squeezeLoop r d d (extractOut 64 a r) a =
      (squeezedBlocks r a ((d - 1) / r), keccakF^[(d - 1) / r] a) :=
    squeezeLoop_eq hr d a d 0 (Nat.zero_le _) hturns
  rw [squeeze, hloop]

/-- Bits of a digest (rule R207). -/
theorem squeeze_bit {r : Nat} (hr : 0 < r) (hr' : r ≤ 1600) (a : Grid) {d i : Nat} (hi : i < d) :
    (squeeze a r d).1.bit i = ((keccakF^[i / r] a).getD (i % r / 64) 0#64).getLsbD (i % r % 64) := by
  have henough : d ≤ ((d - 1) / r + 1) * r := Nat.le_of_not_lt fun h =>
    Nat.lt_irrefl _ ((succ_mul_lt_iff hr d _).mp h)
  rw [squeeze_eq hr, BitStr.changeLength_bit, decide_eq_true hi, Bool.true_and,
    squeezedBlocks_bit hr hr' a (hi.trans_le henough)]

/-! ### S.FINAL -/

theorem encode_sFinal (vd : VReg) : encode (.sFinal vd) = BitVec.ofNat 32 (0x32 + 0x100 * vd.val) :=
  fieldsWord_eq_ofNat 0x32#8 vd 0 (by decide : 0 < 256)

/-- The sponge's permutation is Keccak-p[1600, 24] (rule R200). -/
theorem permute_eq_keccakF : permute 64 6 24 (offsets 64) = keccakF := rfl

/-- What S.FINAL computes from cleared lanes (rules R205 to R207 and R212). -/
theorem finalised_of_zero {s : State} (hz : s.lanes = Grid.zero) (d : Nat) :
    s.finalised d =
      squeeze (absorbedLanes (paddedMessage s.mb s.rate.toNat) s.rate.toNat
        (blockCount (paddedMessage s.mb s.rate.toNat) s.rate.toNat)) s.rate.toNat d := by
  rw [State.finalised, hz, absorbAll_zero]

/-- The digest of S.FINAL is SPONGE at the capacity 1600 - r (rules R208 and R212). -/
theorem finalised_eq_sponge {s : State} (hz : s.lanes = Grid.zero) (hr : s.rate.toNat ≤ 1600) (d : Nat) :
    (s.finalised d).1 = sponge s.mb (1600 - s.rate.toNat) d := by
  rw [sponge, Nat.sub_sub_self hr, State.finalised, hz]

/-- Settles O58: the padded message is absorbed block by block and the digest squeezed block by block. -/
theorem sFinalIsTheSponge : Obligations.SFinalIsTheSponge := by
  intro vd s owned hcleared hr hr' hm
  refine ⟨encode_sFinal vd, fun hlong => exec_of_exceedsCapacity ⟨owned, hlong⟩, fun hfits => ?success⟩
  rw [permute_eq_keccakF]
  generalize hp : paddedMessage s.mb s.rate.toNat = p
  have hn : blockCount p s.rate.toNat * s.rate.toNat = p.len := by rw [← hp, blockCount_mul _ hr]
  have hlen : p.len = s.mb.len + (padZeros s.mb.len s.rate.toNat + 2) := by rw [← hp, paddedMessage_len]
  have hcanon : p.val < 2 ^ p.len := hp ▸ paddedMessage_lt hm _
  have hj := padZeros_lt s.mb.len hr
  have hfinal := finalised_of_zero hcleared s.opaNat
  rw [hp] at hfinal
  refine ⟨(s.finalised s.opaNat).1, blockCount p s.rate.toNat, absorbedLanes p s.rate.toNat,
    blendedLanes p s.rate.toNat, ?exec, finalised_eq_sponge hcleared hr'.le _, by omega, by omega,
    absorbedLanes_zero _ _, fun i _ => absorbedLanes_succ p _ i,
    fun i q z hi hq hz => ?absorb, squeeze_len _ _ _, squeeze_lt _ _ _,
    fun i hi => ?digest⟩
  case exec =>
    have hlanes : (s.finalised s.opaNat).2 = keccakF^[(s.opa.toNat - 1) / s.rate.toNat]
        (absorbedLanes p s.rate.toNat (blockCount p s.rate.toNat)) := by
      rw [hfinal, squeeze_eq hr, State.opaNat]
    rw [(Effect.sFinal owned hfits).exec_eq, hlanes]
    rfl
  case absorb =>
    have hblock : (i + 1) * s.rate.toNat ≤ p.len := hn ▸ Nat.mul_le_mul_right _ hi
    have hpad := paddedMessage_bit_eq_or hm s.rate.toNat (i * s.rate.toNat + (64 * q + z))
    rw [hp, ← hn] at hpad
    rw [blendedLanes_bit hcanon hr hr'.le hblock hq hz, hpad]
  case digest => rw [hfinal]; exact squeeze_bit hr hr'.le _ hi

end Sys2Proof.Machine
end

section
/-! PROOFS. The commands that raise ESTATE (rules R176 and R265), and the next sponge state of every command (rule
R213). -/

namespace Sys2Proof.Machine

/-- Rule R265 by command: the P commands while the sponge owns the engine, S.ABSORB and S.FINAL while it does not. -/
def WrongSpongeState (s : State) : Instr → Prop
  | .pInit | .pPermute | .pRdlane | .pWrlane | .pXorin _ | .pExtract _ => s.sst = .absorbing
  | .sAbsorb _ | .sFinal _ => s.sst ≠ .absorbing
  | .bvZero _ | .bvPush _ _ | .bvChlen _ | .bvAppend _ _ | .bvShl _ | .bvShr _ | .bvExtract _ _ | .bvCopy _ _
  | .bvLen _ | .bvReadw _ | .sInit => False

/-- Only the guard itself raises ESTATE (rule R176). -/
theorem errorOf_unlessAbsorbing_eq_estate_iff {s : State} {k : Result} (hk : errorOf k ≠ .estate) :
    errorOf (unlessAbsorbing s k) = .estate ↔ s.sst = .absorbing := by
  simp [unlessAbsorbing, errorOf_ite_eq_iff, hk]

/-- Only the guard itself raises ESTATE (rule R265). -/
theorem errorOf_whileAbsorbing_eq_estate_iff {s : State} {k : Result} (hk : errorOf k ≠ .estate) :
    errorOf (whileAbsorbing s k) = .estate ↔ s.sst ≠ .absorbing := by
  simp [whileAbsorbing, errorOf_ite_eq_iff, hk]

theorem errorOf_exec_eq_estate_iff (i : Instr) (s : State) :
    errorOf (exec i s) = .estate ↔ WrongSpongeState s i := by
  cases i with
  | bvZero | bvPush | bvChlen | bvAppend | bvShl | bvReadw | sInit =>
    simp [exec, execBvZero, execBvPush, execBvChlen, execBvAppend, execBvShl, execBvReadw, execSInit,
      errorOf_ite_eq_iff, WrongSpongeState]
  | bvShr | bvCopy | bvLen => exact ⟨nofun, nofun⟩
  | bvExtract => rw [exec, errorOf_execBvExtract, WrongSpongeState]; split <;> simp
  | pInit | pPermute | pRdlane | pWrlane | pXorin | pExtract =>
    exact errorOf_unlessAbsorbing_eq_estate_iff (by simp [errorOf_ite_eq_iff])
  | sAbsorb | sFinal => exact errorOf_whileAbsorbing_eq_estate_iff (by simp [errorOf_ite_eq_iff])

theorem exec_of_wrongSpongeState {i : Instr} {s : State} (h : WrongSpongeState s i) :
    exec i s = .next (s.afterError .estate) :=
  exec_of_errorOf nofun ((errorOf_exec_eq_estate_iff i s).mpr h)

/-- What a completed command shows in LASTERR is ESTATE in the wrong sponge state only. -/
theorem lastErr_eq_estate_iff {i : Instr} {s t : State} (h : exec i s = .next t) :
    t.lastErr = .estate ↔ WrongSpongeState s i := by
  rw [← errorOf_exec_eq_estate_iff, h, errorOf_next]

/-- The P commands are in the wrong sponge state exactly in ABSORBING (rule R176). -/
theorem wrongSpongeState_engine_iff {i : Instr} (s : State)
    (hi : i ∈ [.pInit, .pPermute, .pRdlane, .pWrlane] ∨ ∃ r, i = .pXorin r ∨ i = .pExtract r) :
    WrongSpongeState s i ↔ s.sst = .absorbing := by
  cases i with
  | pInit | pPermute | pRdlane | pWrlane | pXorin | pExtract => exact Iff.rfl
  | _ => simp at hi

/-- The BV commands run in every sponge state (rule R213). -/
theorem not_wrongSpongeState_bitVector {i : Instr} (s : State)
    (hi : i ∉ [.pInit, .pPermute, .pRdlane, .pWrlane, .sInit])
    (hi' : ∀ r, i ∉ [.pXorin r, .pExtract r, .sAbsorb r, .sFinal r]) : ¬ WrongSpongeState s i := by
  cases i with
  | pInit | pPermute | pRdlane | pWrlane | sInit => simp at hi
  | pXorin r | pExtract r | sAbsorb r | sFinal r => exact absurd (hi' r) (by simp)
  | _ => exact nofun

/-- Every command completes (rule R71). -/
theorem exec_completes (i : Instr) (s : State) : ∃ t, exec i s = .next t := by
  rcases (exec_ends i s).cases with ⟨e, -, hr⟩ | ⟨u, -, hr⟩
  · exact ⟨_, hr⟩
  · exact ⟨_, hr⟩

/-- Only S.INIT and S.FINAL write SST (rule R213). -/
theorem Effect.sst_eq {i : Instr} {s u : State} (h : Effect s i u) (hsInit : i ≠ .sInit)
    (hsFinal : ∀ vd, i ≠ .sFinal vd) : u.sst = s.sst := by
  cases h with
  | sInit => exact absurd rfl hsInit
  | sFinal => exact absurd rfl (hsFinal _)
  | _ => simp

/-- A command other than S.INIT and S.FINAL completes in the sponge state it started in (rule R213). -/
theorem exec_keeps_sst {i : Instr} (hsInit : i ≠ .sInit) (hsFinal : ∀ vd, i ≠ .sFinal vd) (s : State) :
    ∃ t, exec i s = .next t ∧ t.sst = s.sst := by
  obtain ⟨t, ht⟩ := exec_completes i s
  refine ⟨t, ht, ?_⟩
  rcases exec_next ht with ⟨e, -, rfl⟩ | ⟨u, hu, rfl⟩
  · rfl
  · exact hu.sst_eq hsInit hsFinal

/-- S.ABSORB keeps ABSORBING, with or without room (rules R211 and R213). -/
theorem exec_sAbsorb_of_owned (vs : VReg) {s : State} (owned : s.sst = .absorbing) :
    ∃ t, exec (.sAbsorb vs) s = .next t ∧ t.sst = s.sst ∧ (t.lastErr = .ok ∨ t.lastErr = .ecapacity) := by
  rcases Nat.lt_or_ge s.params.mbMaxBits (s.mb.len + (s.getV vs).len) with hlong | hfits
  · exact ⟨_, exec_of_exceedsCapacity ⟨owned, hlong⟩, rfl, .inr rfl⟩
  · exact ⟨_, (Effect.sAbsorb owned hfits).exec_eq, rfl, .inl rfl⟩

/-- S.FINAL leaves ABSORBING unless the digest is too long (rules R212 and R213). -/
theorem exec_sFinal_of_owned (vd : VReg) {s : State} (owned : s.sst = .absorbing) :
    ∃ t, exec (.sFinal vd) s = .next t ∧
      ((t.sst = .used ∧ t.lastErr = .ok) ∨ (t.sst = .absorbing ∧ t.lastErr = .ecapacity)) := by
  rcases Nat.lt_or_ge s.params.bvMaxBits s.opaNat with hlong | hfits
  · exact ⟨_, exec_of_exceedsCapacity ⟨owned, hlong⟩, .inr ⟨owned, rfl⟩⟩
  · exact ⟨_, (Effect.sFinal owned hfits).exec_eq, .inl ⟨rfl, rfl⟩⟩

/-- Settles O24: the three S commands by their guards; every other command keeps SST, and raises ESTATE in the wrong
sponge state only. -/
theorem spongeStateTransitions : Obligations.SpongeStateTransitions := by
  intro s
  refine ⟨?init, fun vs => ?absorb, fun vd => ?final, fun i hi => ?engine, fun i hi hi' => ?bitVector⟩
  case init =>
    split
    · next hc => exact ⟨_, (Effect.sInit hc.1 hc.2).exec_eq, rfl, rfl⟩
    · next hc =>
      have hbad : s.opaNat = 0 ∨ 1600 ≤ s.opaNat := by rw [State.opaNat]; omega
      exact ⟨_, exec_of_invalidOperand (i := .sInit) hbad, rfl, rfl⟩
  case absorb =>
    split
    · next owned => exact exec_sAbsorb_of_owned vs owned
    · next free => exact ⟨_, exec_of_wrongSpongeState (i := .sAbsorb vs) free, rfl, rfl⟩
  case final =>
    split
    · next owned => exact exec_sFinal_of_owned vd owned
    · next free => exact ⟨_, exec_of_wrongSpongeState (i := .sFinal vd) free, rfl, rfl⟩
  case engine =>
    obtain ⟨t, ht, hsst⟩ := exec_keeps_sst (i := i) (by rintro rfl; simp at hi) (by rintro vd rfl; simp at hi) s
    exact ⟨t, ht, hsst, (lastErr_eq_estate_iff ht).trans (wrongSpongeState_engine_iff s hi)⟩
  case bitVector =>
    obtain ⟨t, ht, hsst⟩ := exec_keeps_sst (i := i) (by rintro rfl; simp at hi)
      (fun vd => by rintro rfl; exact absurd (hi' vd) (by simp)) s
    exact ⟨t, ht, hsst, fun h => not_wrongSpongeState_bitVector s hi hi' ((lastErr_eq_estate_iff ht).mp h)⟩

end Sys2Proof.Machine
end

section
/-! PROOFS. The padding (rules R202 to R205): it is the shortest that fills the last block, and it loses nothing. -/

namespace Sys2Proof.Machine

/-- No smaller number of zeros fills the last block: two that do differ by a multiple of r (rule R204). -/
theorem padZeros_le {m r k : Nat} (hr : 0 < r) (hk : (m + k + 2) % r = 0) : padZeros m r ≤ k := by
  by_contra hlt
  have hdvd : r ∣ m + padZeros m r + 2 - (m + k + 2) :=
    Nat.dvd_sub (Nat.dvd_of_mod_eq_zero (padZeros_mod m hr)) (Nat.dvd_of_mod_eq_zero hk)
  have hle := Nat.le_of_dvd (by omega) hdvd
  have := padZeros_lt m hr
  omega

/-- Settles O53: the number of zeros is `padZeros`. -/
theorem paddingIsPad101 : Obligations.PaddingIsPad101 := fun m r hr =>
  ⟨padZeros m r, padding_len m r, padZeros_lt m hr, padZeros_mod m hr, fun _ hk => padZeros_le hr hk, padding_bit m r⟩

/-- The message ends at the last 1 bit but one of its padded message, so none with the same padded message is shorter
(rules R203 and R205). -/
theorem len_le_of_paddedMessage_eq {m m' : BitStr} {r : Nat} (hm : m.val < 2 ^ m.len) (hm' : m'.val < 2 ^ m'.len)
    (h : paddedMessage m r = paddedMessage m' r) : m'.len ≤ m.len := by
  by_contra hlt
  have hone : (paddedMessage m' r).bit m'.len = true := by simp [paddedMessage_bit_eq_or hm']
  have hzero : (paddedMessage m r).bit m'.len = false := by
    have hlen := paddedMessage_len m' r
    rw [paddedMessage_bit_eq_or hm, h, BitStr.bit_of_len_le hm (by omega), decide_eq_false (by omega),
      decide_eq_false (by omega), Bool.or_false, Bool.or_false]
  rw [h, hone] at hzero
  exact nomatch hzero

/-- At one length the padding is the same, and `append` can be cancelled. -/
theorem eq_of_paddedMessage_eq {m m' : BitStr} {r : Nat} (hlen : m.len = m'.len)
    (h : paddedMessage m r = paddedMessage m' r) : m = m' := by
  have hval : m.val + (padding m.len r).val * 2 ^ m.len = m'.val + (padding m'.len r).val * 2 ^ m'.len :=
    congrArg BitStr.val h
  rw [hlen] at hval
  exact congrArg₂ BitStr.mk hlen (Nat.add_right_cancel hval)

/-- Settles O54: the lengths are equal, and so are the bits before the padding. -/
theorem paddedMessagesAreDistinct : Obligations.PaddedMessagesAreDistinct := fun _ _ _ _ hm hm' h =>
  eq_of_paddedMessage_eq
    (Nat.le_antisymm (len_le_of_paddedMessage_eq hm' hm h.symm) (len_le_of_paddedMessage_eq hm hm' h)) h

end Sys2Proof.Machine
end

section
/-! PROOFS. S.INIT and S.ABSORB (rules R210, R211 and R214), and the digests of one message (rule R207). -/

namespace Sys2Proof.Machine

/-- OFF for lanes of 64 bits (rules R142 and R143). -/
theorem offsets_64 : offsets 64 =
    #v[0#6, 1#6, 62#6, 28#6, 27#6, 36#6, 44#6, 6#6, 55#6, 20#6, 3#6, 10#6, 43#6, 25#6, 39#6, 41#6, 45#6, 15#6, 21#6,
      8#6, 18#6, 2#6, 61#6, 56#6, 14#6] := by simp [offsets, rotTab]

/-- RATE holds every rate S.INIT sets (rules R32 and R210). -/
theorem rate_toNat_add {c : Nat} (hc : 1 ≤ c) (hc' : c ≤ 1599) : (BitVec.ofNat 11 (1600 - c)).toNat + c = 1600 := by
  rw [BitVec.toNat_ofNat]
  omega

/-- Settles O55: the effect of S.INIT field by field, OFF written out, or EINVAL. -/
theorem sInitResult : Obligations.SInitResult := by
  intro s
  refine ⟨rfl, fun hc hc' => ?success, fun hbad => exec_of_invalidOperand (i := .sInit) hbad⟩
  refine ⟨BitVec.ofNat 11 (1600 - s.opaNat), ?_, rate_toNat_add hc hc'⟩
  rw [(Effect.sInit hc (Nat.lt_succ_of_le hc')).exec_eq, ← offsets_64]
  rfl

theorem encode_sAbsorb (vs : VReg) : encode (.sAbsorb vs) = BitVec.ofNat 32 (0x31 + 0x400 * vs.val) :=
  fieldsWord_eq_ofNat 0x31#8 0 vs (by decide : 0 < 256)

/-- Settles O56: the guards in order, and the bits of the longer message. -/
theorem sAbsorbResult : Obligations.SAbsorbResult := by
  intro vs s hmb hvs
  refine ⟨encode_sAbsorb vs, fun owned hfits => ?success, fun free => exec_of_wrongSpongeState (i := .sAbsorb vs) free,
    fun owned hlong => exec_of_exceedsCapacity ⟨owned, hlong⟩⟩
  exact ⟨s.mb.append (s.getV vs), (Effect.sAbsorb owned hfits).exec_eq, rfl, BitStr.append_lt hmb hvs,
    fun i hi => BitStr.append_bit_of_lt hmb hi, fun i _ => BitStr.append_bit_add hmb i⟩

/-- Settles O57: both runs have room, and appending is associative. -/
theorem absorbsConcatenate : Obligations.AbsorbsConcatenate := by
  intro r1 r2 r3 s owned hr3 hroom
  have hroom3 : s.mb.len + (s.getV r3).len ≤ s.params.mbMaxBits := by rw [hr3, BitStr.append_len]; omega
  have hfirst := (Effect.sAbsorb (vs := r1) owned (by omega)).exec_eq
  have hsecond := (Effect.sAbsorb (s := (s.setMb (s.mb.append (s.getV r1))).afterSuccess) (vs := r2)
    owned hroom).exec_eq
  refine ⟨_, _, _, hfirst, hsecond, (Effect.sAbsorb owned hroom3).exec_eq, rfl, ?_⟩
  rw [hr3, ← BitStr.append_assoc]
  rfl

/-- A shorter digest is the beginning of a longer one: a bit of either depends on the lanes and its index only
(rule R207). -/
theorem squeeze_changeLength {r : Nat} (hr : 0 < r) (hr' : r ≤ 1600) (a : Grid) {d d' : Nat} (hd : d ≤ d') :
    (squeeze a r d).1 = (squeeze a r d').1.changeLength d := by
  refine BitStr.ext_bits (squeeze_lt a r d) (BitStr.changeLength_lt _ d) rfl fun i (hi : i < d) => ?_
  rw [BitStr.changeLength_bit, decide_eq_true hi, Bool.true_and, squeeze_bit hr hr' a hi,
    squeeze_bit hr hr' a (hi.trans_le hd)]

/-- Settles O59: S.FINAL's guard, and the digests squeezed out of the same lanes. -/
theorem shorterDigestsAreBeginnings : Obligations.ShorterDigestsAreBeginnings :=
  ⟨fun vd _ free => exec_of_wrongSpongeState (i := .sFinal vd) free,
    fun _ _ _ _ _ hc hd => squeeze_changeLength (by omega) (by omega) _ hd⟩

end Sys2Proof.Machine
end

section
/-! PROOFS. The completion update of every command and of every CMD value (rules R271 and R272), and the commands that
raise ESTATE (rule R265). -/

namespace Sys2Proof.Machine

/-- The part of the update of rule R271 that is the same for every command, with the frame of rule R21. -/
structure Completed (s t : State) : Prop where
  pc : t.pc = s.pc + 1
  busy : t.busy = false
  errSeen : t.errSeen = true ↔ s.errSeen = true ∨ t.lastErr ≠ .ok
  host : SameHostSide s t

section
variable {s t : State}

theorem completed_afterError {e : ErrorCode} (he : e ≠ .ok) : Completed s (s.afterError e) where
  pc := rfl
  busy := rfl
  errSeen := iff_of_true rfl (.inr he)
  host := ⟨rfl, rfl, rfl, rfl, rfl, rfl⟩

theorem EffectFrame.completed_afterSuccess (h : EffectFrame s t) : Completed s t.afterSuccess where
  pc := congrArg (· + 1) h.pc
  busy := rfl
  errSeen := by simp [h.errSeen]
  host := h.host

theorem Ends.completed (h : Ends s (.next t)) : Completed s t := by
  cases h with
  | error he => exact completed_afterError he.ne_ok
  | success hu => exact hu.completed_afterSuccess

/-- A command that decodes leaves neither EILLEGAL nor EINTERNAL (rules R262 and R267). -/
theorem Ends.lastErr_mem (h : Ends s (.next t)) : t.lastErr ∈ [.ok, .einval, .erange, .estate, .ecapacity] := by
  cases h with
  | error he => simpa [ErrorCode.IsCommandError] using Or.inr he
  | success => exact .head _

theorem Ends.lastErr_ne_eillegal (h : Ends s (.next t)) : t.lastErr ≠ .eillegal := by
  intro hill
  simpa [hill] using h.lastErr_mem

/-- The effect of a command that ends with an error is the error (rule R272). -/
theorem Ends.eq_afterError (h : Ends s (.next t)) (herr : t.lastErr ≠ .ok) : t = s.afterError t.lastErr := by
  cases h with
  | error => rfl
  | success => exact absurd rfl herr

/-- CMDCNT is the low half of pc (rule R33). -/
theorem statusWord_cmdcnt (s : State) : s.statusWord.extractLsb' 32 32 = BitVec.ofNat 32 s.pc := by
  obtain ⟨-, -, -, -, hpc⟩ := statusWord_fields s
  exact hpc

/-- CMDCNT counts a completed command, modulo 2^32 (rules R33 and R271). -/
theorem Completed.cmdcnt (h : Completed s t) :
    t.statusWord.extractLsb' 32 32 = s.statusWord.extractLsb' 32 32 + 1#32 := by
  rw [statusWord_cmdcnt, statusWord_cmdcnt, h.pc, BitVec.ofNat_add]

theorem ends_of_exec {i : Instr} (h : exec i s = .next t) : Ends s (.next t) := h ▸ exec_ends i s

theorem sst_eq_of_exec {i : Instr} (h : exec i s = .next t) (hsInit : i ≠ .sInit) (hsFinal : ∀ vd, i ≠ .sFinal vd) :
    t.sst = s.sst := by
  obtain ⟨_, h', hsst⟩ := exec_keeps_sst hsInit hsFinal s
  cases h.symm.trans h'
  exact hsst

theorem execCmd_of_illegalCmd {u : Word} (h : IllegalCmd u) (s : State) :
    execCmd u s = .next (s.afterError .eillegal) := by
  obtain ⟨_, he⟩ := (illegalCommandValues u).mpr h
  exact execCmd_of_error he s

/-- A CMD value that is not illegal completes as the command it encodes does (rules R80 and R271). -/
theorem execCmd_of_not_illegalCmd {u : Word} (h : ¬ IllegalCmd u) (s : State) :
    ∃ t, execCmd u s = .next t ∧ Ends s (.next t) := by
  obtain ⟨i, hi⟩ := (exists_decode_eq_ok_iff u).mpr h
  obtain ⟨t, ht⟩ := exec_completes i s
  exact ⟨t, (execCmd_of_ok hi s).trans ht, ends_of_exec ht⟩

end

/-- Settles O21: the update of a command that decodes, whichever way it ends, and EILLEGAL for a value that does not. -/
theorem everyCommandCompletes : Obligations.EveryCommandCompletes := by
  refine ⟨fun i s => ?command, fun u s => ?value⟩
  case command =>
    obtain ⟨t, ht⟩ := exec_completes i s
    have hends := ends_of_exec ht
    have hdone := hends.completed
    exact ⟨t, ht, hdone.pc, hdone.busy, hends.lastErr_mem, hdone.errSeen, hdone.cmdcnt, hdone.host, sst_eq_of_exec ht⟩
  case value =>
    by_cases hill : IllegalCmd u
    · have hdone : Completed s (s.afterError .eillegal) := completed_afterError nofun
      exact ⟨_, execCmd_of_illegalCmd hill s, hdone.pc, hdone.busy, by simp, iff_of_true rfl hill, hdone.errSeen,
        statusWord_cmdcnt _, hdone.host, fun _ => rfl⟩
    · obtain ⟨t, ht, hends⟩ := execCmd_of_not_illegalCmd hill s
      have hdone := hends.completed
      have hcode : t.lastErr ∈ [.ok, .eillegal, .einval, .erange, .estate, .ecapacity] :=
        ((List.sublist_cons_self _ _).cons_cons _).subset hends.lastErr_mem
      exact ⟨t, ht, hdone.pc, hdone.busy, hcode, iff_of_false hends.lastErr_ne_eillegal hill, hdone.errSeen,
        statusWord_cmdcnt t, hdone.host, fun h => absurd h hill⟩

/-- Settles O22: of the two ways a command can end only the error leaves a code, and an illegal value ends with one. -/
theorem failedCommandsChangeNothingElse : Obligations.FailedCommandsChangeNothingElse := by
  refine ⟨fun i s t h herr => (ends_of_exec h).eq_afterError herr, fun u s t h herr => ?value⟩
  rcases execCmd_ends u s with hill | hends
  · cases hill.symm.trans h; rfl
  · rw [h] at hends; exact hends.eq_afterError herr

/-- Settles O27: the commands with a wrong sponge state, in the words of rule R265. -/
theorem whenEstateIsRaised : Obligations.WhenEstateIsRaised := by
  intro i s t h
  rw [lastErr_eq_estate_iff h]
  cases i with
  | pInit | pPermute | pRdlane | pWrlane | pXorin | pExtract => simp [WrongSpongeState]
  | sAbsorb | sFinal => simp [WrongSpongeState]
  | _ => simp [WrongSpongeState]

end Sys2Proof.Machine
end

section
/-! PROOFS. Reset: the value of every element, the engine it leaves configured, and what it does to a command that runs
(rules R300 to R303 and R310). -/

namespace Sys2Proof.Machine

/-! ### The state after reset -/

section
variable (p : Params)

theorem resetWith_laneAt {i : Nat} (hi : i < 25) : (State.resetWith p).laneAt i = 0#64 := by
  simp [State.laneAt, State.resetWith, Grid.zero, Vector.getD, hi]

theorem resetWith_statusWord : (State.resetWith p).statusWord = 0x0000000000000000#64 := by
  simp [State.statusWord, State.resetWith, SpongeState.code, ErrorCode.code]

theorem resetWith_configWord : (State.resetWith p).configWord = 0x0000000640180640#64 := by
  show (0#13 ++ 0#11 ++ 0#5 ++ 6#3 ++ 0#1 ++ 64#7 ++ 24#8 ++ 0#5 ++ 1600#11 : Word) = 0x0000000640180640#64
  decide

/-- Reset leaves the engine as P.INIT of 1600 and 24 configures it, whatever OPA and OPB then hold (rule R302). -/
theorem resetWith_configure (x y : Word) :
    State.configure { State.resetWith p with opa := x, opb := y } 1600 24 =
      { State.resetWith p with opa := x, opb := y } := rfl

/-- The round indices 12 + 2 L - ROUNDS to 11 + 2 L are 0 to 23 after reset (rules R152 and R302). -/
theorem resetWith_permuted : (State.resetWith p).permuted =
    (List.range 24).foldl (fun (a : Grid) (k : Nat) => keccakRound 64 6 (offsets 64) a (k : Int)) Grid.zero := by
  have hindex : ∀ k : Nat, 12 + 2 * ((6 : Nat) : Int) - ((24 : Nat) : Int) + (k : Int) = k := by omega
  calc (State.resetWith p).permuted
      = (List.range 24).foldl (fun (a : Grid) (k : Nat) =>
          keccakRound 64 6 (offsets 64) a (12 + 2 * ((6 : Nat) : Int) - ((24 : Nat) : Int) + (k : Int))) Grid.zero :=
        permuted_eq_foldl _
    _ = (List.range 24).foldl (fun (a : Grid) (k : Nat) => keccakRound 64 6 (offsets 64) a (k : Int)) Grid.zero := by
        simp only [hindex]

end

/-- The two views show elements that reset sets, and nothing of the model's own fields (rules R34, R35 and R301). -/
theorem hardReset_statusWord (s : State) : s.hardReset.statusWord = (State.resetWith s.params).statusWord := rfl

theorem hardReset_configWord (s : State) : s.hardReset.configWord = (State.resetWith s.params).configWord := rfl

/-- A reset between commands (rule R300). -/
theorem step_reset {s : State} {a : Arrival} {q : List HostEvent} (hq : s.queue = ⟨.reset, a⟩ :: q) :
    step s = .next { s with queue := q }.hardReset :=
  step_cons hq

/-- Settles O16: the reset step is `hardReset`, whose elements are those of the state after reset. -/
theorem resetValues : Obligations.ResetValues := by
  intro s t a q hq ht
  cases (step_reset hq).symm.trans ht
  exact ⟨rfl, rfl, rfl, fun d => resetWith_getV s.params d, fun i hi => resetWith_laneAt s.params hi, rfl, rfl, rfl,
    rfl, offsets_64, rfl, rfl, rfl, rfl, (hardReset_statusWord _).trans (resetWith_statusWord _),
    (hardReset_configWord _).trans (resetWith_configWord _)⟩

/-- Settles O17: P.INIT's effect on a state that it would configure as it stands, and P.PERMUTE's 24 rounds. -/
theorem resetIsAConfiguredEngine : Obligations.ResetIsAConfiguredEngine := by
  intro p
  refine ⟨?init, ?permute⟩
  case init =>
    have free : (State.resetWith p).sst ≠ .absorbing := nofun
    have hexec : exec .pInit { State.resetWith p with opa := 1600#64, opb := 24#64 } =
        .next (State.configure { State.resetWith p with opa := 1600#64, opb := 24#64 } 1600 24).afterSuccess :=
      Effect.exec_eq (.pInit free (by decide : 1600 ∈ legalWidths) (by decide : 24 ≤ 255))
    rw [hexec, resetWith_configure]
    rfl
  case permute =>
    rw [(Effect.pPermute (s := State.resetWith p) nofun).exec_eq, resetWith_permuted]
    rfl

/-! ### A reset while a command runs -/

/-- A reset abandons the command that runs when it arrives (rule R303). -/
theorem overlap_of_reset (q : List HostEvent) : overlap (⟨.reset, .busy⟩ :: q) = ⟨[], true, q⟩ := by
  simp [overlap]

/-- A reset that finds a CMD write held discards it (rule R303). -/
theorem overlap_of_held_reset (u : Word) (q : List HostEvent) :
    overlap (⟨.write 0x10 8 u, .busy⟩ :: ⟨.reset, .held⟩ :: q) = ⟨[], true, q⟩ := by
  simp [overlap, HostOp.isCmdWrite]

/-- A CMD write whose command a reset abandons, behind the accesses performed while it runs. -/
theorem step_of_abandoned {s : State} {u : Word} {a : Arrival} {ops : List HostOp} {r q : List HostEvent}
    (hops : ∀ op ∈ ops, op.isSupported = true ∧ op.isCmdWrite = false) (hr : overlap r = ⟨[], true, q⟩)
    (hq : s.queue = ⟨.write 0x10 8 u, a⟩ :: ((ops.map fun op => ⟨op, .busy⟩) ++ r)) :
    step s = abandonByReset ops (s.start q) := by
  rw [step_cmdWrite hq]
  simp [cmdWrite, overlap_of_busy_append hops, hr, State.start]

/-- After the accesses performed meanwhile, the reset leaves the reset values and the model's own fields (rules R301 and
R303, assumption log 8). -/
theorem abandonByReset_next {s : State} (h : s.lastErr ≠ .einternal) (ops : List HostOp) :
    ∃ t, abandonByReset ops s = .next t ∧
      t = { State.resetWith s.params with queue := s.queue, hostReads := t.hostReads, freeCount := t.freeCount } := by
  obtain ⟨t, ht⟩ := busyAccesses_ok h h ops
  have hsame := busyAccesses_next ht
  refine ⟨t.hardReset, by simp [abandonByReset, ht], ?_⟩
  rw [← hsame.params, ← hsame.queue]
  rfl

/-- Settles O11: what stands behind the accesses, the reset alone or a held CMD write with it, abandons the command. -/
theorem resetAbandonsTheCommand : Obligations.ResetAbandonsTheCommand := by
  intro s u u' a ops q hops herr hq
  have hstep : step s = abandonByReset ops (s.start q) := by
    rcases hq with hq | hq
    · exact step_of_abandoned hops (overlap_of_reset q) hq
    · exact step_of_abandoned hops (overlap_of_held_reset u' q) hq
  rw [hstep]
  exact abandonByReset_next (s := s.start q) herr ops

end Sys2Proof.Machine
end
